-- ==== Sys2Proof/Word.lean ====
section
/-! DEFINITION. The words of the serial-link framer: every quantity on the wire is an unsigned byte or an unsigned
16-bit value (R8, R126), and a buffer is an index space of bytes (R40). -/

namespace Sys2Proof

/-- One byte, 8 bits, unsigned (R8). -/
abbrev Byte := BitVec 8

/-- A 16-bit unsigned value: the declared length and the CRC (R64, R65). -/
abbrev Word16 := BitVec 16

/-- A byte sequence, indexed from 0 (R8). -/
abbrev Bytes := List Byte

/-- One private storage space of the block (R40, R41): the bytes written so far, as (index, byte) pairs with the
indices strictly rising. An index that is not listed holds NO VALUE: nothing has been written there since the reset
that left the contents unspecified (R14, R17, R21, R240; assumption 2). -/
abbrev Memory := List Host.Cell

end Sys2Proof
end

