-- ==== Sys2Proof/Config.lean ====
section
/-! DEFINITION. The constants that the source fixes and the parameters that it leaves open (R3). The parameters are
one record, `Config`, that carries the constraints R3 puts on them; `Config.impl`, the record of the modelled
machine, has no body, so that a theorem about it holds for every admissible choice. -/

namespace Sys2Proof

/-- `DELIM`, the start and end delimiter of a wire frame (R3, R60). -/
def delimByte : Byte := 0x7E
/-- `ESC`, the escape marker (R3, R60). -/
def escByte : Byte := 0x7D
/-- `XOR_MASK`, what an escaped byte is masked with (R3, R61). -/
def xorMask : Byte := 0x20
/-- `STX`, the control byte that the encoder escapes too (R3, R67). -/
def stxByte : Byte := 0x02
/-- `OVERHEAD = HDR_LEN + CRC_LEN`: a frame body is this much longer than its payload (R3, R63). -/
def overhead : Nat := 5
/-- `MIN_COMPLETE`: the least number of accumulated bytes that a delimiter completes (R3, R103). -/
def minComplete : Nat := 3
/-- `BLE_CHUNK`: the payload bytes of one BLE_DATA chunk frame (R3, R139). -/
def bleChunk : Nat := 64
/-- The longest payload a 16-bit length field can declare (R3's derived bounds, R64, R93). -/
def maxPayload : Nat := 65535

/-- The five packet types of the source (R66). -/
inductive PacketType where
  | ack | nak | bleData | control | ping
deriving DecidableEq, Repr

/-- The fourteen control opcode names, in the source's order (R200). -/
inductive CtrlOp where
  | deviceName | bondDbGet | bondDbSet | pairingCode | bleStatus | irk | productString | chipReset
  | identityAddress | pairingSuccessful | tkConfirm | bleEnabled | txPower | debugString
deriving DecidableEq, Repr

/-- The connection status that the BLE stack reports: the three values GET_BLE_STATUS replies with (R196). -/
inductive BleStatus where
  | advertising | connected | connectedSecure
deriving DecidableEq, Repr

/-- Some pairwise distinct type bytes. They serve only to show that a `Config` exists; no rule reads them. -/
def sampleTypeByte : PacketType → Byte
  | .ack => 1 | .nak => 2 | .bleData => 3 | .control => 4 | .ping => 5

/-- Some pairwise distinct opcode bytes, for the same purpose as `sampleTypeByte`. -/
def sampleCtrlOpcode : CtrlOp → Byte
  | .deviceName => 1 | .bondDbGet => 2 | .bondDbSet => 3 | .pairingCode => 4 | .bleStatus => 5 | .irk => 6
  | .productString => 7 | .chipReset => 8 | .identityAddress => 9 | .pairingSuccessful => 10
  | .tkConfirm => 11 | .bleEnabled => 12 | .txPower => 13 | .debugString => 14

theorem sampleTypeByte_injective : Function.Injective sampleTypeByte := by
  intro a b; cases a <;> cases b <;> simp [sampleTypeByte]

theorem sampleCtrlOpcode_injective : Function.Injective sampleCtrlOpcode := by
  intro a b; cases a <;> cases b <;> simp [sampleCtrlOpcode]

/-- The parameters of R3, with their constraints, and the parameters of the ControlCommandDispatcher that R192 to
R200 name without a value (U10, U11, U12). The default values are there so that Lean can see that the constraints can
be met together; no rule reads a default. -/
structure Config where
  /-- `crc16`: a total function from byte sequences to 16-bit values, the same in the encoder and in the parser
  (R65, R120; D1). -/
  crc16 : Bytes → Word16 := fun _ => 0
  /-- `TYPE_ACK`, `TYPE_NAK`, `TYPE_BLE_DATA`, `TYPE_CONTROL`, `TYPE_PING` (R66; D2). -/
  typeByte : PacketType → Byte := sampleTypeByte
  /-- The five type bytes are pairwise distinct (R3). -/
  typeByte_injective : Function.Injective typeByte := by exact sampleTypeByte_injective
  /-- `RX_FRAME_CAP` (R14; D3). -/
  rxFrameCap : Nat := 5
  rxFrameCap_ge : 5 ≤ rxFrameCap := by decide
  /-- `TX_BUF_CAP` (R17; D4). -/
  txBufCap : Nat := 7
  txBufCap_ge : 7 ≤ txBufCap := by decide
  /-- `RX_SCRATCH_CAP` (R21; D5). -/
  rxScratchCap : Nat := 1
  rxScratchCap_ge : 1 ≤ rxScratchCap := by decide
  /-- `TXQ_DEPTH`; `none` is the unbounded queue (R20; D6). -/
  txqDepth : Option Nat := none
  /-- `RX_REENABLE_DELAY`, an opaque duration that no rule reads (D7). -/
  rxReenableDelay : Nat := 0
  /-- `CONN_IDX`, passed through to the BLE delivery port (D25). -/
  connIdx : Nat := 0
  /-- `ATTR_HANDLE`, passed through to the BLE delivery port (D25). -/
  attrHandle : Nat := 0
  /-- The control opcodes, "each a distinct small integer" (R200; U12). -/
  ctrlOpcode : CtrlOp → Byte := sampleCtrlOpcode
  ctrlOpcode_injective : Function.Injective ctrlOpcode := by exact sampleCtrlOpcode_injective
  /-- `KEY_LEN` of TK_CONFIRM's length test (R195; U10). -/
  keyLen : Nat := 0
  /-- The "length bound" of SET_DEVICE_NAME (R192; U10). -/
  nameBound : Nat := 0
  /-- The "advertising-field capacity" of SET_DEVICE_NAME (R192; U10). -/
  advNameCap : Nat := 0
  /-- FREE VALUE: the payload of the reply to GET_BLE_STATUS, whose layout the source does not give (R191, R196;
  U11; assumption 12). -/
  statusReply : BleStatus → Bytes := fun _ => []
  /-- FREE VALUE: how many operations of the environment come before the dispatcher's reply reaches the block, by the
  number of the occasion, `State.occasion` (R201: "at any time"; assumption 12). -/
  replyDelay : Nat → Nat := fun _ => 0
  /-- FREE VALUE: whether an existing connection is secure when the dispatcher handles a payload that was received under
  a connection flag only, by the number of the occasion (R196, R231; assumption 12). -/
  secured : Nat → Bool := fun _ => false
deriving Inhabited

/-- The parameters of the modelled machine. It has no body: nothing can be proved of it but what holds for EVERY
configuration that meets the constraints (R3: "A model must not bake a P0 value into a rule"; assumption 1). -/
opaque Config.impl : Config

end Sys2Proof
end

