-- ==== Sys2Proof/Syntax.lean ====
section
/-! DEFINITION. The instructions: one constructor per row of spec/opcode_table.json (R77), with the operands that the
row or its rule names; and `Code`, the form in which an instruction stands in the stimulus script, the block's
"program" (R7, R78). The formats of `Code` are the table's row formats (R76). -/

namespace Sys2Proof

/-- What `CLASSIFY` answers: one of the five types, or `NONE` (R124). It never answers `ERR`. -/
inductive TypeClass where
  | none | ack | nak | bleData | control | ping
deriving DecidableEq, Repr

/-- The class enumeration of the parser, seven values (R75). -/
inductive PacketClass where
  | none | err | ack | nak | bleData | control | ping
deriving DecidableEq, Repr

/-- A parsed packet, one of the three shapes of R121. -/
inductive Packet where
  /-- The length check failed. -/
  | garbage
  /-- The length check passed and the CRC check failed; type and payload are as read and not to be trusted. -/
  | crcFail (type : Byte) (payload : Bytes)
  /-- Both checks passed. -/
  | ok (type : Byte) (payload : Bytes) (cls : TypeClass)
deriving DecidableEq, Repr

/-- The two directions in which the block handles a packet type: the two columns "transmit" and "receive" of R66's
table, which are the two effects a type-byte row of the opcode table names. -/
inductive TypeUse where
  /-- The host asks the block to transmit a packet of this type: `SEND` (R135). -/
  | transmit (payload : Bytes)
  /-- A frame body of this type, with the right length and CRC, has been received; `connected` is the BLE stack's
  answer at that moment (R169, R170). -/
  | receive (payload : Bytes) (connected : Bool)
deriving DecidableEq, Repr

/-- The destination buffer operand of `ENCODE` (R93). -/
inductive EncodeDest where
  /-- The block's own transmit buffer with its length register and `TX_BUF_CAP` ("in this block always", R91). -/
  | txbuf
  /-- A buffer of the caller that holds `content` already, with `cap` bytes of room in all (the form of the spec's
  vectors V40-20 to V40-24). -/
  | given (content : Bytes) (cap : Nat)
deriving DecidableEq, Repr

/-- The block's instructions, in the order of spec/opcode_table.json. An operand `connected` is the BLE stack's answer
to "does a connection exist", sampled while the operation runs (R160, R231). -/
inductive Instr where
  -- wire-byte rows: one byte received on the serial line
  | delim (connected : Bool)
  | esc (connected : Bool)
  | lit (b : Byte) (connected : Bool)
  -- wire-pair rows: an escape marker and the byte after it, received on the serial line
  | escPair7E (connected : Bool)
  | escPair7D (connected : Bool)
  | escPair02 (connected : Bool)
  | escPairAny (x : Byte) (connected : Bool)
  -- frame-body row: the fields of R63, as the decoder hands them to the parser
  | frameBody (type : Byte) (length : Word16) (payload : Bytes) (crc : Word16) (connected : Bool)
  -- wire-frame row: a whole wire frame received, given by its frame body (R62)
  | wireFrame (body : Bytes) (connected : Bool)
  -- type-byte rows
  | typeAck (use : TypeUse)
  | typeNak (use : TypeUse)
  | typeBleData (use : TypeUse)
  | typeControl (use : TypeUse)
  | typePing (use : TypeUse)
  | typeOther (type : Byte) (use : TypeUse)
  -- operation rows: external
  | reset
  | start
  | send (type : Byte) (payload : Bytes)
  | txComplete
  | rxReady (bytes : Bytes) (memUsed memMax : Nat) (connected : Bool)
  | timerFire
  | syncXchg (req : Bytes) (expect : Byte) (reads : List Bytes)
  -- operation rows: internal
  | escape (b : Byte)
  | encode (dest : EncodeDest) (type : Byte) (payload : Bytes)
  | crc16 (bytes : Bytes)
  | decodeByte (b : Byte)
  | decode (input : Bytes)
  | parse (body : Bytes)
  | classify (type : Byte)
  | bpCheck (memUsed memMax : Nat)
  | route (packet : Packet) (connected : Bool)
  | drain
  -- ctrl-opcode rows: a CONTROL packet with this opcode received and handed to the dispatcher; `args` is the payload
  -- after the opcode byte, `status` the connection status the dispatcher sees (R190 to R199)
  | ctrlDeviceName (args : Bytes) (status : BleStatus)
  | ctrlBondDbGet (args : Bytes) (status : BleStatus)
  | ctrlBondDbSet (args : Bytes) (status : BleStatus)
  | ctrlPairingCode (args : Bytes) (status : BleStatus)
  | ctrlBleStatus (args : Bytes) (status : BleStatus)
  | ctrlIrk (args : Bytes) (status : BleStatus)
  | ctrlProductString (args : Bytes) (status : BleStatus)
  | ctrlChipReset (args : Bytes) (status : BleStatus)
  | ctrlIdentityAddress (args : Bytes) (status : BleStatus)
  | ctrlPairingSuccessful (args : Bytes) (status : BleStatus)
  | ctrlTkConfirm (args : Bytes) (status : BleStatus)
  | ctrlBleEnabled (args : Bytes) (status : BleStatus)
  | ctrlTxPower (args : Bytes) (status : BleStatus)
  | ctrlDebugString (args : Bytes) (status : BleStatus)
deriving DecidableEq, Repr

/-- The type operand of a `SEND` line: one of the five names, or a byte (R78). -/
inductive TypeOperand where
  | name (t : PacketType)
  | byte (b : Byte)
deriving DecidableEq, Repr

/-- A line of the script notation, already read from its characters: one constructor per operation, with the operands
that R78's syntax writes for it. The seven keywords of R78 name the external operations; the others are the mnemonics
of the internal operations, which R78 does not list (assumption 5). -/
inductive Line where
  | RESET
  | START
  | SEND (type : TypeOperand) (payload : Bytes)
  | TXDONE
  | RXRDY (bytes : Bytes) (memUsed memMax : Nat) (connected : Bool)
  | TFIRE
  | SYNC (req : Bytes) (expect : Byte) (reads : List Bytes)
  | ESCAPE (b : Byte)
  | ENCODE (dest : EncodeDest) (type : Byte) (payload : Bytes)
  | CRC16 (bytes : Bytes)
  | DECODE_BYTE (b : Byte)
  | DECODE (input : Bytes)
  | PARSE (body : Bytes)
  | CLASSIFY (type : Byte)
  | BP_CHECK (memUsed memMax : Nat)
  | ROUTE (packet : Packet) (connected : Bool)
  | DRAIN
deriving DecidableEq, Repr

/-- An instruction as it stands in the stimulus script, before it is decoded: one constructor per row format of the
opcode table (R76), and one for what the dispatcher sends. An operation has no bit pattern (R77) and is a line of the
script notation (R78). A code that has the form of a row and not its pattern is no instruction, and stands for the bytes
or the payload that it holds (`standsFor`). -/
inductive Code where
  /-- A wire-byte (8 bits) or wire-pair (16 bits, the first wire byte in bits 15 to 8, R76) pattern; of any other width,
  the bytes received, the first wire byte in the highest bits. -/
  | bits (nbits w : Nat) (connected : Bool)
  /-- The bytes of a frame body (R63). -/
  | body (bytes : Bytes) (connected : Bool)
  /-- The bytes of a wire frame, delimiters included (R62). -/
  | frame (bytes : Bytes) (connected : Bool)
  /-- A type byte and what is done with it (R66). -/
  | typed (type : Byte) (use : TypeUse)
  /-- The payload of a CONTROL packet, its first byte the opcode (R190). -/
  | command (payload : Bytes) (status : BleStatus)
  /-- A line of the script notation (R78). -/
  | line (l : Line)
  /-- A `SEND` of a CONTROL packet that the ControlCommandDispatcher has still to make, its reply to a command (R191,
  R201). Only the dispatcher puts it into the script, and a reset of the chip takes it out (R242). -/
  | reply (payload : Bytes)
deriving DecidableEq, Repr

end Sys2Proof
end

