-- ==== Sys2Proof/WellFormed.lean ====
section
/-! DEFINITION. Which instructions are well formed: their operands lie in the ranges that the spec gives them. -/

namespace Sys2Proof

/-- A payload that a 16-bit length field can declare (R64, R93, R135; D40). -/
def payloadFits (p : Bytes) : Bool := decide (p.length ≤ maxPayload)

/-- A request or a received packet of a type-byte row carries a payload of admissible length (R64). That a received one
must fit `RX_FRAME_CAP` as well (R70, R105) is not asked, because the row starts behind the decoder (assumption 9). -/
def TypeUse.fits : TypeUse → Bool
  | .transmit p => payloadFits p
  | .receive p _ => payloadFits p

/-- A type byte is unassigned when it is none of the five parameters (R66, R124). -/
def Config.unassigned (c : Config) (t : Byte) : Bool :=
  decide (t ≠ c.typeByte .ack ∧ t ≠ c.typeByte .nak ∧ t ≠ c.typeByte .bleData ∧ t ≠ c.typeByte .control
    ∧ t ≠ c.typeByte .ping)

/-- A control command's payload, opcode byte included, fits a frame (R64, R190). -/
def argsFit (args : Bytes) : Bool := decide (args.length + 1 ≤ maxPayload)

/-- The destination of an `ENCODE` holds no more than its capacity (R42, R91). -/
def EncodeDest.fits : EncodeDest → Bool
  | .txbuf => true
  | .given content cap => decide (content.length ≤ cap)

/-- The operands are in the ranges the spec gives them: a LIT is neither delimiter nor escape marker (R60); the pair
ANY stands for the pairs that have no row of their own (R61); a frame body carries as many payload bytes as it
declares (R63, R64); a wire frame's body has the length of a frame body (R63); a payload is at most 65535 bytes (R93,
R135); one UART read is at most `RX_SCRATCH_CAP` bytes (R160, R165, R246); a destination's content fits it (R42). -/
def Instr.wellFormed (c : Config) : Instr → Bool
  | .delim _ => true
  | .esc _ => true
  | .lit b _ => decide (b ≠ delimByte ∧ b ≠ escByte)
  | .escPair7E _ => true
  | .escPair7D _ => true
  | .escPair02 _ => true
  | .escPairAny x _ => decide (x ≠ 0x5E ∧ x ≠ 0x5D ∧ x ≠ 0x22)
  | .frameBody _ len p _ _ => decide (p.length = len.toNat)
  | .wireFrame body _ => decide (overhead ≤ body.length ∧ body.length ≤ maxPayload + overhead)
  | .typeAck u => u.fits
  | .typeNak u => u.fits
  | .typeBleData u => u.fits
  | .typeControl u => u.fits
  | .typePing u => u.fits
  | .typeOther t u => c.unassigned t && u.fits
  | .reset => true
  | .start => true
  | .send _ p => payloadFits p
  | .txComplete => true
  | .rxReady bs _ _ _ => decide (bs.length ≤ c.rxScratchCap)
  | .timerFire => true
  | .syncXchg req _ reads => payloadFits req && reads.all (fun r => decide (r.length ≤ c.rxScratchCap))
  | .escape _ => true
  | .encode d _ p => d.fits && payloadFits p
  | .crc16 _ => true
  | .decodeByte _ => true
  | .decode _ => true
  | .parse _ => true
  | .classify _ => true
  | .bpCheck _ _ => true
  | .route _ _ => true
  | .drain => true
  | .ctrlDeviceName args _ => argsFit args
  | .ctrlBondDbGet args _ => argsFit args
  | .ctrlBondDbSet args _ => argsFit args
  | .ctrlPairingCode args _ => argsFit args
  | .ctrlBleStatus args _ => argsFit args
  | .ctrlIrk args _ => argsFit args
  | .ctrlProductString args _ => argsFit args
  | .ctrlChipReset args _ => argsFit args
  | .ctrlIdentityAddress args _ => argsFit args
  | .ctrlPairingSuccessful args _ => argsFit args
  | .ctrlTkConfirm args _ => argsFit args
  | .ctrlBleEnabled args _ => argsFit args
  | .ctrlTxPower args _ => argsFit args
  | .ctrlDebugString args _ => argsFit args

end Sys2Proof
end

