-- ==== Sys2Proof/Decode.lean ====
section
/-! DEFINITION. The wire format's helpers (byte order, escaping, the layout of a frame), the decoder from a script's
`Code` to an instruction, total and rejecting by name, and after it the encoder. The bit patterns are those of
spec/opcode_table.json and of 30_encoding.md; an operation has no bit pattern and is a line of the script notation
(R76, R77, R78). -/

namespace Sys2Proof

/-! ### Byte order and bit fields -/

/-- `lo8(v) = v[7:0]` (R8, R43). -/
def lo8 (v : Word16) : Byte := v.extractLsb' 0 8

/-- `hi8(v) = v[15:8]` (R8, R43). -/
def hi8 (v : Word16) : Byte := v.extractLsb' 8 8

/-- `zext_16(lo) or (zext_16(hi) << 8)`: how a reader assembles a little-endian field (R43, R64). -/
def assemble16 (lo hi : Byte) : Word16 := lo.zeroExtend 16 ||| (hi.zeroExtend 16 <<< 8)

/-- `F[i]`. Every rule that reads an index has first established that it is inside `F` (R42, R122). -/
def byteAt (F : Bytes) (i : Nat) : Byte := F.getD i 0

/-- `F[i..j]`, the bytes at indices `i` to `j - 1` (R8). -/
def slice (F : Bytes) (i j : Nat) : Bytes := (F.drop i).take (j - i)

/-! ### Escaping and the frame -/

/-- `ESCAPE(b)` (R90): the three bytes of the escape set become a pair, every other byte stands for itself. -/
def escapeByte (b : Byte) : Bytes :=
  if b = delimByte ∨ b = escByte ∨ b = stxByte then [escByte, b ^^^ xorMask] else [b]

/-- Every byte of a frame body, escaped in order (R62, R67, R91). -/
def escapeAll (F : Bytes) : Bytes := F.flatMap escapeByte

/-- The header that the CRC covers together with the payload: `type, len_lo, len_hi` (R63, R65). -/
def frameHeader (type : Byte) (len : Word16) : Bytes := [type, lo8 len, hi8 len]

/-- A frame body laid out from its fields (R63). -/
def layoutBody (type : Byte) (len : Word16) (payload : Bytes) (crc : Word16) : Bytes :=
  frameHeader type len ++ payload ++ [lo8 crc, hi8 crc]

/-- The 16-bit length field of a payload (R64, R93). -/
def lengthField (payload : Bytes) : Word16 := BitVec.ofNat 16 payload.length

/-- The frame body of a type and a payload, its CRC over header and payload (R63, R65, R93). -/
def bodyOf (c : Config) (type : Byte) (payload : Bytes) : Bytes :=
  layoutBody type (lengthField payload) payload (c.crc16 (frameHeader type (lengthField payload) ++ payload))

/-- A wire frame: a delimiter, the escaped frame body, a delimiter (R62). -/
def wireOfBody (F : Bytes) : Bytes := delimByte :: (escapeAll F ++ [delimByte])

/-- `encode(type, payload)`, the pure form of `ENCODE` (R93, R96). -/
def wireOf (c : Config) (type : Byte) (payload : Bytes) : Bytes := wireOfBody (bodyOf c type payload)

/-- The body bytes that the inside of a wire frame stands for: an escaped pair `7D x` stands for `x xor 0x20`, any
other byte for itself (R61); a delimiter, or a marker with nothing after it, is not the inside of a frame. -/
def unescape : Bytes → Option Bytes
  | [] => some []
  | [b] => if b = delimByte ∨ b = escByte then none else some [b]
  | b :: x :: rest =>
    if b = delimByte then none
    else if b = escByte then (unescape rest).map ((x ^^^ xorMask) :: ·)
    else (unescape (x :: rest)).map (b :: ·)

/-! ### The type byte and the control opcode -/

/-- `CLASSIFY(t)` (R124). -/
def classifyByte (c : Config) (t : Byte) : TypeClass :=
  if t = c.typeByte .ack then .ack
  else if t = c.typeByte .nak then .nak
  else if t = c.typeByte .bleData then .bleData
  else if t = c.typeByte .control then .control
  else if t = c.typeByte .ping then .ping
  else .none

/-- The control opcode names in the source's order (R200). -/
def allCtrlOps : List CtrlOp :=
  [.deviceName, .bondDbGet, .bondDbSet, .pairingCode, .bleStatus, .irk, .productString, .chipReset,
   .identityAddress, .pairingSuccessful, .tkConfirm, .bleEnabled, .txPower, .debugString]

/-- The control opcode that a byte stands for, if any (R190, R200). -/
def ctrlOpOf (c : Config) (b : Byte) : Option CtrlOp := allCtrlOps.find? (fun o => c.ctrlOpcode o = b)

/-! ### The decoder -/

/-- Why a `Code` is no instruction. -/
inductive DecodeError where
  /-- The opcode table has rows of 8 and of 16 bits only. -/
  | noSuchWidth
  /-- A 16-bit pattern whose first byte is not the escape marker (R61). -/
  | notAnEscapedPair
  /-- A frame body needs at least 5 bytes (R63). -/
  | bodyTooShort
  /-- A frame body is as long as its declared length plus 5 (R63). -/
  | bodyLengthMismatch
  /-- A wire frame begins and ends with a delimiter (R62). -/
  | missingDelimiter
  /-- The inside of a wire frame holds a delimiter, or ends in an escape marker (R62). -/
  | badEscaping
  /-- A body byte of a wire frame stands for itself where the encoder escapes it, or is escaped where the encoder does
  not (R62, R67): what R70 calls no well-formed frame made by the encoder. -/
  | notTheEncodersEscaping
  /-- A ControlCommand has an opcode byte (R73, R190). -/
  | noOpcode
  /-- No control opcode has this value (R200). -/
  | unknownOpcode
deriving DecidableEq, Repr

/-- The token that one received byte is (R60). -/
def byteInstr (connected : Bool) (b : Byte) : Instr :=
  if b = delimByte then .delim connected else if b = escByte then .esc connected else .lit b connected

/-- The wire-byte and wire-pair rows (R60, R61). A byte pattern is one received byte; a pair pattern has its first
wire byte in bits 15 to 8 (R76). The three pairs with a row of their own go before the row for any pair. -/
def decodeBits (nbits w : Nat) (connected : Bool) : Except DecodeError Instr :=
  if nbits = 8 then .ok (byteInstr connected (BitVec.ofNat 8 w))
  else if nbits = 16 then
    let first : Byte := BitVec.ofNat 8 (w / 256)
    let second : Byte := BitVec.ofNat 8 w
    if first = escByte then
      .ok (if second = 0x5E then .escPair7E connected else if second = 0x5D then .escPair7D connected
        else if second = 0x22 then .escPair02 connected else .escPairAny second connected)
    else .error .notAnEscapedPair
  else .error .noSuchWidth

/-- The frame-body row: the fields of R63 read out of the bytes of a frame body. -/
def decodeBody (F : Bytes) (connected : Bool) : Except DecodeError Instr :=
  if F.length < overhead then .error .bodyTooShort
  else
    let len := assemble16 (byteAt F 1) (byteAt F 2)
    let L := len.toNat
    if F.length ≠ L + overhead then .error .bodyLengthMismatch
    else .ok (.frameBody (byteAt F 0) len (slice F 3 (3 + L)) (assemble16 (byteAt F (3 + L)) (byteAt F (4 + L))) connected)

/-- The wire-frame row: the body between the two delimiters of R62, its pairs undone. The row is the encoder's frame:
bytes with any other escaping are not this row, and are received as they are (R67, R70; `standsFor`). -/
def decodeFrame (W : Bytes) (connected : Bool) : Except DecodeError Instr :=
  match W with
  | [] => .error .missingDelimiter
  | b :: rest =>
    if b = delimByte ∧ rest.getLast? = some delimByte then
      match unescape rest.dropLast with
      | some F => if wireOfBody F = b :: rest then .ok (.wireFrame F connected) else .error .notTheEncodersEscaping
      | none => .error .badEscaping
    else .error .missingDelimiter

/-- The type-byte rows (R66, R124). -/
def decodeTyped (c : Config) (t : Byte) (u : TypeUse) : Instr :=
  match classifyByte c t with
  | .ack => .typeAck u
  | .nak => .typeNak u
  | .bleData => .typeBleData u
  | .control => .typeControl u
  | .ping => .typePing u
  | .none => .typeOther t u

/-- The instruction of a control opcode row. -/
def commandInstr (o : CtrlOp) (args : Bytes) (status : BleStatus) : Instr :=
  match o with
  | .deviceName => .ctrlDeviceName args status
  | .bondDbGet => .ctrlBondDbGet args status
  | .bondDbSet => .ctrlBondDbSet args status
  | .pairingCode => .ctrlPairingCode args status
  | .bleStatus => .ctrlBleStatus args status
  | .irk => .ctrlIrk args status
  | .productString => .ctrlProductString args status
  | .chipReset => .ctrlChipReset args status
  | .identityAddress => .ctrlIdentityAddress args status
  | .pairingSuccessful => .ctrlPairingSuccessful args status
  | .tkConfirm => .ctrlTkConfirm args status
  | .bleEnabled => .ctrlBleEnabled args status
  | .txPower => .ctrlTxPower args status
  | .debugString => .ctrlDebugString args status

/-- The ctrl-opcode rows: `opcode = payload[0]` (R69, R190). -/
def decodeCommand (c : Config) (p : Bytes) (status : BleStatus) : Except DecodeError Instr :=
  match p with
  | [] => .error .noOpcode
  | b :: args =>
    match ctrlOpOf c b with
    | some o => .ok (commandInstr o args status)
    | none => .error .unknownOpcode

/-- The type byte that the operand of a `SEND` line names (R66, R78). -/
def TypeOperand.toByte (c : Config) : TypeOperand → Byte
  | .name t => c.typeByte t
  | .byte b => b

/-- The operation rows: a line of the script notation (R77, R78). -/
def decodeLine (c : Config) : Line → Instr
  | .RESET => .reset
  | .START => .start
  | .SEND t p => .send (t.toByte c) p
  | .TXDONE => .txComplete
  | .RXRDY bs used max conn => .rxReady bs used max conn
  | .TFIRE => .timerFire
  | .SYNC req e rs => .syncXchg req e rs
  | .ESCAPE b => .escape b
  | .ENCODE d t p => .encode d t p
  | .CRC16 bs => .crc16 bs
  | .DECODE_BYTE b => .decodeByte b
  | .DECODE bs => .decode bs
  | .PARSE F => .parse F
  | .CLASSIFY t => .classify t
  | .BP_CHECK used max => .bpCheck used max
  | .ROUTE p conn => .route p conn
  | .DRAIN => .drain

/-- The decoder: total, and where a `Code` is no instruction it says why. -/
def decode (c : Config) : Code → Except DecodeError Instr
  | .bits n w conn => decodeBits n w conn
  | .body F conn => decodeBody F conn
  | .frame W conn => decodeFrame W conn
  | .typed t u => .ok (decodeTyped c t u)
  | .command p status => decodeCommand c p status
  | .line l => .ok (decodeLine c l)
  | .reply p => .ok (.send (c.typeByte .control) p)

/-- The instruction the decoder reads from the bits of a row of spec/opcode_table.json. A row of bits says nothing of
the BLE connection; it is read as R79's `FEED` reads received bytes, with a connection present (assumption 6). -/
def decodeTableWord (nbits w : Nat) : Option Instr :=
  match decodeBits nbits w true with
  | .ok i => some i
  | .error _ => none

/-! ### The encoder -/

/-- The `Code` of an instruction, written from the tables of 30_encoding.md. -/
def encode (c : Config) : Instr → Code
  | .delim conn => .bits 8 0x7E conn
  | .esc conn => .bits 8 0x7D conn
  | .lit b conn => .bits 8 b.toNat conn
  | .escPair7E conn => .bits 16 0x7D5E conn
  | .escPair7D conn => .bits 16 0x7D5D conn
  | .escPair02 conn => .bits 16 0x7D22 conn
  | .escPairAny x conn => .bits 16 (0x7D00 + x.toNat) conn
  | .frameBody t len p crc conn => .body (layoutBody t len p crc) conn
  | .wireFrame F conn => .frame (wireOfBody F) conn
  | .typeAck u => .typed (c.typeByte .ack) u
  | .typeNak u => .typed (c.typeByte .nak) u
  | .typeBleData u => .typed (c.typeByte .bleData) u
  | .typeControl u => .typed (c.typeByte .control) u
  | .typePing u => .typed (c.typeByte .ping) u
  | .typeOther t u => .typed t u
  | .reset => .line .RESET
  | .start => .line .START
  | .send t p => .line (.SEND (.byte t) p)
  | .txComplete => .line .TXDONE
  | .rxReady bs used max conn => .line (.RXRDY bs used max conn)
  | .timerFire => .line .TFIRE
  | .syncXchg req e rs => .line (.SYNC req e rs)
  | .escape b => .line (.ESCAPE b)
  | .encode d t p => .line (.ENCODE d t p)
  | .crc16 bs => .line (.CRC16 bs)
  | .decodeByte b => .line (.DECODE_BYTE b)
  | .decode bs => .line (.DECODE bs)
  | .parse bs => .line (.PARSE bs)
  | .classify t => .line (.CLASSIFY t)
  | .bpCheck used max => .line (.BP_CHECK used max)
  | .route p conn => .line (.ROUTE p conn)
  | .drain => .line .DRAIN
  | .ctrlDeviceName args st => .command (c.ctrlOpcode .deviceName :: args) st
  | .ctrlBondDbGet args st => .command (c.ctrlOpcode .bondDbGet :: args) st
  | .ctrlBondDbSet args st => .command (c.ctrlOpcode .bondDbSet :: args) st
  | .ctrlPairingCode args st => .command (c.ctrlOpcode .pairingCode :: args) st
  | .ctrlBleStatus args st => .command (c.ctrlOpcode .bleStatus :: args) st
  | .ctrlIrk args st => .command (c.ctrlOpcode .irk :: args) st
  | .ctrlProductString args st => .command (c.ctrlOpcode .productString :: args) st
  | .ctrlChipReset args st => .command (c.ctrlOpcode .chipReset :: args) st
  | .ctrlIdentityAddress args st => .command (c.ctrlOpcode .identityAddress :: args) st
  | .ctrlPairingSuccessful args st => .command (c.ctrlOpcode .pairingSuccessful :: args) st
  | .ctrlTkConfirm args st => .command (c.ctrlOpcode .tkConfirm :: args) st
  | .ctrlBleEnabled args st => .command (c.ctrlOpcode .bleEnabled :: args) st
  | .ctrlTxPower args st => .command (c.ctrlOpcode .txPower :: args) st
  | .ctrlDebugString args st => .command (c.ctrlOpcode .debugString :: args) st

/-! ### What a code that is no row's pattern stands for

"None traps; none is a hint" (R70): bytes that are no row of the opcode table are received all the same, one token after
the other (R60), and a packet that is none of the rows goes the way of any packet. -/

/-- The connection flag that goes with a connection status (R170, R196). -/
def isConnected : BleStatus → Bool
  | .advertising => false
  | .connected => true
  | .connectedSecure => true

/-- The connection flag under which a type-byte row receives, if it does (R66, R170). -/
def TypeUse.flag : TypeUse → Option Bool
  | .transmit _ => none
  | .receive _ connected => some connected

/-- Whether an item of the script is the dispatcher's. -/
def Code.isReply : Code → Bool
  | .reply _ => true
  | .bits _ _ _ => false
  | .body _ _ => false
  | .frame _ _ => false
  | .typed _ _ => false
  | .command _ _ => false
  | .line _ => false

/-- The `k` bytes of a pattern, the first wire byte in its highest bits (R76). -/
def patternBytes : Nat → Nat → Bytes
  | 0, _ => []
  | k + 1, w => BitVec.ofNat 8 (w / 256 ^ k) :: patternBytes k w

/-- What stands in the script in the form of a row and is refused by the row's decoder, as the block meets it. Bits and
wire frames are the bytes they hold, each its own token, as they are (R60, R70, R71); a body that is not laid out as R63
says goes to the parser, which gives it the class `NONE`, and the router takes no action (R70, R122, R173); a CONTROL
payload with no opcode, or with one that is not assigned, is a CONTROL packet received like any other (R171, R199; U9).
That the items are read so is the model's (assumption 5). -/
def standsFor (c : Config) : Code → List Instr
  | .bits n w conn => (patternBytes ((n + 7) / 8) w).map (byteInstr conn)
  | .body F _ => [.parse F]
  | .frame W conn => W.map (byteInstr conn)
  | .typed t u => [decodeTyped c t u]
  | .command p status => [.typeControl (.receive p (isConnected status))]
  | .line l => [decodeLine c l]
  | .reply p => [.send (c.typeByte .control) p]

/-- The operations that an item of the script stands for, in order: its row's instruction, or `standsFor`. -/
def instructionsOf (c : Config) (code : Code) : List Instr :=
  match decode c code with
  | .ok i => [i]
  | .error _ => standsFor c code

/-! ### The pseudo-operations of the script notation -/

/-- What may stand in a byte list of the script notation (R79). -/
inductive ByteItem where
  | byte (b : Byte)
  /-- `WIRE(TYPE, [payload])`: the bytes `ENCODE` produces. -/
  | wire (type : Byte) (payload : Bytes)
  /-- `0xNN*k`: the byte repeated. -/
  | repeated (b : Byte) (k : Nat)
  /-- `00..7F`: the consecutive values, first to last. -/
  | run (first last : Byte)
deriving DecidableEq, Repr

/-- The bytes of one item of a byte list (R79). -/
def expandItem (c : Config) : ByteItem → Bytes
  | .byte b => [b]
  | .wire t p => wireOf c t p
  | .repeated b k => List.replicate k b
  | .run a b => (List.range (b.toNat + 1 - a.toNat)).map (fun i => a + BitVec.ofNat 8 i)

/-- The bytes of a byte list (R79). -/
def expandItems (c : Config) (xs : List ByteItem) : Bytes := xs.flatMap (expandItem c)

/-- The line that `FEED [bytes]` stands for: a notification with memory far under the threshold and a connection
(R79). -/
def feedCode (bs : Bytes) : Code := .line (.RXRDY bs 0 1 true)

/-- The lines that `FEED1 [b0 ... bn]` stands for: one notification a byte (R79). -/
def feed1Codes (bs : Bytes) : List Code := bs.map (fun b => feedCode [b])

end Sys2Proof
end

