-- ==== Sys2Proof/Machine/State.lean ====
section
/-! DEFINITION. The state of the serial-link framer (R10), the record of what it shows to the outside (R4, R30), and
the part of its environment that decides which operation comes next (R2, R222); the reasons a step can stop; reset. -/

namespace Sys2Proof.Machine

/-- The decoder's scan mode (R13). -/
inductive DecMode where
  | wait | inFrame | escaped
deriving DecidableEq, Repr

/-- The transmit controller's state (R16). -/
inductive TxState where
  | ready | busy
deriving DecidableEq, Repr

/-- The phase: boot, where the blocking exchange is admitted, or steady state (R24). -/
inductive Phase where
  | boot | run
deriving DecidableEq, Repr

/-- An outbound request that waits in the pending queue, held by value (R20). -/
structure PendingSend where
  type : Byte
  payload : Bytes
deriving DecidableEq, Repr

/-- The closed set of error outcomes (R210). They have no numeric codes (D30). -/
inductive ErrorOutcome where
  /-- Incomplete: more bytes are needed; "not an error" (R211). -/
  | needMore
  /-- Malformed by length (R212). -/
  | garbage
  /-- Malformed by CRC (R213). -/
  | crcFail
  /-- A frame exceeds the parser's buffer (R214). -/
  | overflow
  /-- A request does not fit the transmit buffer (R215). -/
  | capacityExceeded
  /-- A request of a type that is not transmitted (R216). -/
  | invalidType
  /-- A BLE_DATA request whose length is zero or no multiple of 64 (R217). -/
  | badLength
  /-- The pending queue is full (R218). -/
  | queueFull
  /-- A blocking exchange outside boot, or while a transmission is in progress (R237). -/
  | notAdmitted
deriving DecidableEq, Repr

/-- The codes of the diagnostic channel (R30, R235). -/
inductive DiagCode where
  | crcError
  | rxOverflow
  | txDropped (e : ErrorOutcome)
deriving DecidableEq, Repr

/-- The effects, in the order of R30's table. -/
inductive Effect where
  | uartTx (bytes : Bytes)
  | uartTxBlocking (bytes : Bytes)
  | timerArm (delay : Nat)
  | bleDeliver (connIdx attrHandle : Nat) (bytes : Bytes)
  | ctrlDeliver (bytes : Bytes)
  | diag (code : DiagCode)
deriving DecidableEq, Repr

/-- What `DECODE_BYTE` answers (R100). -/
inductive ByteResult where
  | more
  | frame (F : Bytes)
  | overflow
deriving DecidableEq, Repr

/-- What `DECODE` answers, beside the consumed count (R107). -/
inductive DecodeResult where
  | needMore
  | frame (F : Bytes)
  | overflow
deriving DecidableEq, Repr

/-- What `ENCODE` answers (R93). -/
inductive EncodeResult where
  | done
  | capacityExceeded
deriving DecidableEq, Repr

/-- What `BP_CHECK` answers (R163). -/
inductive Valve where
  | over | under
deriving DecidableEq, Repr

/-- What the ControlCommandDispatcher, a collaborator outside the block, does with a command (R192 to R199). None of
it touches the block's state (R202). -/
inductive DispatchAction where
  /-- No action: an unrecognised opcode, or a command that fails its validation (R199; U9, U10). -/
  | noOp
  /-- SET_DEVICE_NAME: the new name record, and the scan-response data, truncated (R192). -/
  | updateDeviceName (name scanResponse : Bytes)
  /-- GET_PRODUCT_STRING: a product-string indication request to the BLE stack (R193). -/
  | indicateProductString
  /-- CHIP_RESET: the remap-and-reset sequence (R194). -/
  | chipReset
  /-- TK_CONFIRM: the confirm or reject forwarded to the security layer (R195). -/
  | forwardTkConfirm (args : Bytes)
  /-- GET_BLE_STATUS: the reply's payload, to be sent as a CONTROL packet (R191, R196). -/
  | replyStatus (payload : Bytes)
  /-- SET_BLE_ENABLED=0: the shutdown; disconnect if connected, else stop advertising; no re-advertising (R197). -/
  | beginShutdown (disconnect : Bool)
  /-- SET_TX_POWER: the level applied (R198). -/
  | applyTxPower (level : Byte)
deriving DecidableEq, Repr

/-- The result that an operation returns to its caller (R4, R77). -/
inductive OpResult where
  /-- The operation returns nothing. -/
  | none
  | sent
  | queued
  | refused (e : ErrorOutcome)
  /-- `SYNC_XCHG` has found its reply: the whole payload (R247). -/
  | reply (payload : Bytes)
  /-- The model-only outcome "still polling" (R249). -/
  | noReply
  | bytes (bs : Bytes)
  | word (w : Word16)
  /-- `ENCODE`, with the valid content of its destination afterwards. -/
  | encoded (r : EncodeResult) (content : Bytes)
  | byteStep (r : ByteResult)
  | decoded (r : DecodeResult) (consumed : Nat)
  | packet (p : Packet)
  | cls (k : TypeClass)
  | valve (v : Valve)
  /-- A control command has been delivered; the dispatcher's action with it. -/
  | dispatched (a : DispatchAction)
deriving DecidableEq, Repr

/-- A blocking exchange that has not ended: "still polling" (R249). -/
structure Exchange where
  req : Bytes
  expect : Byte
deriving DecidableEq, Repr

/-- The machine. The first eleven fields are the complete state of the block (R10); the next two are what it shows to
the outside (R4, R30) and no rule reads them; the last four are the environment's (R2, R201, R222, R249), and no register
or buffer of the block is computed from them. -/
structure State where
  /-- `dec_mode` (R13). -/
  decMode : DecMode
  /-- `fbuf`, the frame buffer of the decoder (R14). -/
  fbuf : Memory
  /-- `flen`, the bytes accumulated in `fbuf` (R15). -/
  flen : Nat
  /-- `tx_state` (R16). -/
  txState : TxState
  /-- `txbuf`, the transmit buffer (R17). -/
  txbuf : Memory
  /-- `txlen`, the valid bytes of `txbuf` (R18). -/
  txlen : Nat
  /-- `txq`, the pending queue, head first (R20). -/
  txq : List PendingSend
  /-- `scratch`, the bytes of one UART read; dead between operations (R21). -/
  scratch : Memory
  /-- `rx_irq_en`, the level output to the UART receiver (R22). -/
  rxIrqEn : Bool
  /-- `rx_timer_armed` (R23). -/
  rxTimerArmed : Bool
  /-- `phase` (R24). -/
  phase : Phase
  /-- The output trace, oldest effect first (R30). -/
  trace : List Effect
  /-- The result of the last operation (R4). -/
  result : OpResult
  /-- The stimulus script: the operations the environment has yet to choose, next one first (R7, R78, R222). -/
  script : List Code
  /-- The blocking exchange in progress, if one is (R249). -/
  exchange : Option Exchange
  /-- What the ControlCommandDispatcher has made of the payloads handed to it, oldest first (R190, R199; assumption
  11). -/
  actions : List DispatchAction
  /-- How many payloads the dispatcher has handled: the running number to which its free values are applied (R201;
  assumption 12). -/
  occasion : Nat
deriving DecidableEq, Repr

/-- The storage spaces of R40 that hold bytes. -/
inductive Space where
  | fbuf | txbuf | scratch
deriving DecidableEq, Repr

/-- Why the machine stops. -/
inductive Fault where
  /-- Raised by a rule's buffer read at an index that nothing has written since the contents became unspecified. R42:
  no rule performs one ("a model that wants to be defensive makes it a model-internal fault"); it can be raised only
  from a state that breaks the invariants of R14 and R17. SAFE: the model stops where the spec gives no value. -/
  | unwrittenByte (space : Space)
  /-- Raised by `step` when a blocking exchange is still polling and the script's next operation is neither more reads
  of the same exchange nor a reset: the system hangs (R249, R251; U8). SAFE: the model stops where the block never
  comes to another operation. -/
  | exchangeInProgress
deriving DecidableEq, Repr

/-- Why there is no meaning for what stands in the script. -/
inductive Refusal where
  /-- Raised by an arm of `exec` whose instruction has no meaning yet. SAFE. -/
  | notModelled (mnemonic : String)
  /-- Raised by a meaning whose payload is longer than 65535 bytes, outside the operand range of `SEND` and `ENCODE`
  (R93, R135; D40, U18: "refuse"). SAFE. -/
  | payloadTooLong
  /-- Raised by `RX_READY` and `SYNC_XCHG` when one UART read returns more than `RX_SCRATCH_CAP` bytes, which the read
  port never does (R165, R228). SAFE. -/
  | readTooLong
  /-- Raised by the internal operation `ENCODE`, invoked by itself with the transmit buffer as its destination while
  that buffer is being transmitted: R255, `txbuf` is never written while `tx_state = BUSY`. SAFE. -/
  | txbufInUse
  /-- Raised by the internal operation `ENCODE`, invoked with a destination of the caller that holds more than its
  capacity, outside the operand range (R42, R91). SAFE. -/
  | destinationOverfull
deriving DecidableEq, Repr

/-- The machine right after reset (R240): the reset values of R10's table; nothing listed in the three buffers, whose
contents are unspecified; no effect emitted, no result, no operation chosen yet, no exchange in progress, and nothing
handed to the dispatcher. -/
def State.reset : State where
  decMode := .wait
  fbuf := []
  flen := 0
  txState := .ready
  txbuf := []
  txlen := 0
  txq := []
  scratch := []
  rxIrqEn := true
  rxTimerArmed := false
  phase := .boot
  trace := []
  result := .none
  script := []
  exchange := none
  actions := []
  occasion := 0

end Sys2Proof.Machine
end

