-- ==== Sys2Proof/Machine/Ops.lean ====
section
/-! DEFINITION. The named operations over the block's storage and registers: reads and writes of a buffer (R8, R42),
the bounded append (R51), effects and results (R30), the pending queue (R20), and the one way an error is taken
(R219). -/

namespace Sys2Proof.Machine

/-! ### Buffers -/

/-- `MemRead(B:i, 1)`: the byte at index `i`, if something has written it (R8, R42). -/
def Memory.read (m : Memory) (i : Nat) : Option Byte :=
  match m with
  | [] => none
  | (a, v) :: rest => if a = i then some v else Memory.read rest i

/-- `MemWrite(B:i, 1, v)` (R8, R42), keeping the indices strictly rising. -/
def Memory.write (m : Memory) (i : Nat) (v : Byte) : Memory :=
  match m with
  | [] => [(i, v)]
  | (a, w) :: rest =>
    if i < a then (i, v) :: (a, w) :: rest
    else if i = a then (i, v) :: rest
    else (a, w) :: Memory.write rest i v

/-- The canonical form of a buffer: its indices strictly rise. (An unlisted index has no value, so that no entry can
equal what an unlisted index reads as.) -/
abbrev Memory.wf (m : Memory) : Prop := (m.map Prod.fst).Pairwise (· < ·)

/-- The bytes at indices `start .. start + n`, if every one has been written. -/
def Memory.load (m : Memory) (start : Nat) : Nat → Option Bytes
  | 0 => some []
  | n + 1 =>
    match Memory.read m start with
    | some v => (Memory.load m (start + 1) n).map (v :: ·)
    | none => none

/-- Consecutive bytes stored from index `start` on. -/
def Memory.store (m : Memory) (start : Nat) : Bytes → Memory
  | [] => m
  | v :: vs => Memory.store (Memory.write m start v) (start + 1) vs

/-- A buffer with its length register and its capacity: the operands `B`, `len`, `cap` of R51. -/
structure Buffer where
  cells : Memory
  len : Nat
  cap : Nat
deriving DecidableEq, Repr

/-- The bounded append of R51: `none` is `Full`, with nothing written. -/
def Buffer.append (B : Buffer) (v : Byte) : Option Buffer :=
  if B.len = B.cap then none
  else some { B with cells := Memory.write B.cells B.len v, len := B.len + 1 }

/-- Bytes appended one after the other (R91): on `Full` the appending stops, the bytes stored so far stay stored. -/
def Buffer.emit (B : Buffer) : Bytes → Bool × Buffer
  | [] => (true, B)
  | v :: vs =>
    match Buffer.append B v with
    | none => (false, B)
    | some B' => Buffer.emit B' vs

/-! ### Effects, results, the pending queue -/

/-- `emit X(args)`: an effect appended to the output trace (R8, R30). -/
def State.emit (s : State) (e : Effect) : State := { s with trace := s.trace ++ [e] }

/-- The operation's result, for its caller (R4). -/
def State.withResult (s : State) (r : OpResult) : State := { s with result := r }

/-- `push(txq, x)` (R20). -/
def State.push (s : State) (x : PendingSend) : State := { s with txq := s.txq ++ [x] }

/-- Whether the pending queue holds `TXQ_DEPTH` entries (R142); an unbounded queue is never full. -/
def State.queueFull (c : Config) (s : State) : Bool :=
  match c.txqDepth with
  | none => false
  | some d => decide (s.txq.length = d)

/-! ### Taking an error

There is no trap, no vector, no saved state and no mode change: an error is the value that the operation which detects
it returns (R219), and after it the enclosing operation carries on, with nothing to restore (R220). An error with no
caller to go to surfaces on the diagnostic channel, or not at all; one with a caller is the operation's result. -/

/-- What the diagnostic channel shows of an error met in a notification (R210's column "How it surfaces", R235): a CRC
failure, an overflow, and a queued request that is refused when its turn comes; nothing for an incomplete frame (R211)
and for one malformed by length (R212). `QueueFull` and `NotAdmitted` arise in `SEND` and `SYNC_XCHG` only, which have a
caller (R218, R237). -/
def diagOf : ErrorOutcome → Option DiagCode
  | .needMore => none
  | .garbage => none
  | .crcFail => some .crcError
  | .overflow => some .rxOverflow
  | .capacityExceeded => some (.txDropped .capacityExceeded)
  | .invalidType => some (.txDropped .invalidType)
  | .badLength => some (.txDropped .badLength)
  | .queueFull => none
  | .notAdmitted => none

/-- Taking an error where there is no caller (R219): the report, if the error has one, and nothing else. -/
def State.takeError (s : State) (e : ErrorOutcome) : State :=
  match diagOf e with
  | none => s
  | some d => s.emit (.diag d)

/-- Taking an error where there is a caller (R219): it is the operation's typed result. -/
def State.refuse (s : State) (e : ErrorOutcome) : State := s.withResult (.refused e)

/-- An operation's outcome from the state it ends in, or from the defensive fault of R42. -/
def finish (r : Except Fault State) : Host.Outcome State Fault Refusal :=
  match r with
  | .ok s => .next s
  | .error f => .fault f

end Sys2Proof.Machine
end

