-- ==== Sys2Proof/Machine/Operands.lean ====
section
/-! DEFINITION. How operands are assembled (R69): the payload of a frame body, its received CRC, the 64-byte chunks of
a BLE_DATA request, the destination of an encode. -/

namespace Sys2Proof.Machine

/-- The declared length of a frame body, `F[1] or (F[2] << 8)` (R64). -/
def declaredLength (F : Bytes) : Nat := (assemble16 (byteAt F 1) (byteAt F 2)).toNat

/-- The payload of a frame body that declares `L` bytes: `F[3 .. 3+L]` (R69, R121). -/
def bodyPayload (F : Bytes) (L : Nat) : Bytes := slice F 3 (3 + L)

/-- What the CRC of a frame body that declares `L` bytes covers: `F[0 .. 3+L]` (R65, R121). -/
def crcCovers (F : Bytes) (L : Nat) : Bytes := slice F 0 (3 + L)

/-- The received CRC of a frame body that declares `L` bytes (R69, R121). -/
def receivedCrc (F : Bytes) (L : Nat) : Word16 := assemble16 (byteAt F (3 + L)) (byteAt F (4 + L))

/-- The chunks of a BLE_DATA payload in order, `P[64*i .. 64*i + 64]` (R69, R139). -/
def chunks (p : Bytes) : List Bytes :=
  (List.range (p.length / bleChunk)).map (fun i => slice p (bleChunk * i) (bleChunk * i + bleChunk))

/-- The transmit buffer as the destination of an encode: `txbuf`, `txlen`, `TX_BUF_CAP` (R91). -/
def State.txBuffer (c : Config) (s : State) : Buffer := { cells := s.txbuf, len := s.txlen, cap := c.txBufCap }

/-- The transmit buffer as an encode leaves it. -/
def State.setTxBuffer (s : State) (B : Buffer) : State := { s with txbuf := B.cells, txlen := B.len }

/-- A destination of the caller that holds `content` (R93). -/
def givenBuffer (content : Bytes) (cap : Nat) : Buffer :=
  { cells := Memory.store [] 0 content, len := content.length, cap := cap }

end Sys2Proof.Machine
end

