-- ==== Sys2Proof/Machine/Flags.lean ====
section
/-! DEFINITION. The flag-like values. The block has no condition-code register (R25); what plays its part are the tests
below, the `valid` field of a parsed packet, and the one-bit register `rx_timer_armed`. -/

namespace Sys2Proof.Machine

/-- The memory budget is over its threshold: `mem_used * 10 >= mem_max * 9` on natural numbers (R162, R126). -/
def overThreshold (memUsed memMax : Nat) : Bool := decide (memMax * 9 ≤ memUsed * 10)

/-- The length check of R122, the test for 5 bytes first. -/
def lengthOk (F : Bytes) : Bool := decide (overhead ≤ F.length) && decide (F.length = declaredLength F + overhead)

/-- The CRC check of R123, made only after the length check passed. -/
def crcOk (c : Config) (F : Bytes) : Bool :=
  decide (c.crc16 (crcCovers F (declaredLength F)) = receivedCrc F (declaredLength F))

/-- The `valid` field of a parsed packet (R25, R121): both checks passed. -/
def packetValid : Packet → Bool
  | .garbage => false
  | .crcFail _ _ => false
  | .ok _ _ _ => true

/-- The class of a parsed packet, the third column of R121's table (R75). -/
def packetClass : Packet → PacketClass
  | .garbage => .none
  | .crcFail _ _ => .err
  | .ok _ _ .none => .none
  | .ok _ _ .ack => .ack
  | .ok _ _ .nak => .nak
  | .ok _ _ .bleData => .bleData
  | .ok _ _ .control => .control
  | .ok _ _ .ping => .ping

/-- BLE_DATA length admission (R140): a positive multiple of 64. -/
def bleLengthOk (p : Bytes) : Bool := decide (p.length ≠ 0) && decide (p.length % bleChunk = 0)

/-- `BLE_DATA` and `CONTROL` are the types admitted for transmission (R136). -/
def typeTransmits (c : Config) (t : Byte) : Bool :=
  decide (t = c.typeByte .control) || decide (t = c.typeByte .bleData)

/-- A polled packet is the reply an exchange waits for: a valid CONTROL packet whose payload begins with the expected
opcode (R247 point (e)). Its payload, if so. -/
def matchingReply (expect : Byte) : Packet → Option Bytes
  | .ok _ (b :: rest) .control => if b = expect then some (b :: rest) else none
  | _ => none

/-- The admission test of the blocking exchange (R246). -/
def exchangeAdmitted (s : State) : Bool := decide (s.phase = .boot) && decide (s.txState = .ready)

end Sys2Proof.Machine
end

