-- ==== Sys2Proof/Machine/Encoder.lean ====
section
/-! DEFINITION. The FrameCodec encoder: `ESCAPE` and `ENCODE` (40_frame_encode.md). -/

namespace Sys2Proof.Machine

/-- `ENCODE(B, type, payload)` (R93): the wire frame appended to the destination byte by byte, each after its capacity
check (R91). On `CapacityExceeded` the length register gets back the value it had, and the bytes stored beyond it stay
where they are, without meaning (R92). -/
def encodeInto (c : Config) (B : Buffer) (type : Byte) (payload : Bytes) : EncodeResult × Buffer :=
  match Buffer.emit B (wireOf c type payload) with
  | (true, B') => (.done, B')
  | (false, B') => (.capacityExceeded, { B' with len := B.len })

/-- The valid content of a buffer, its bytes below the length register (R42). -/
def Buffer.content (B : Buffer) : Option Bytes := Memory.load B.cells 0 B.len

/-- `ESCAPE` (R90). -/
def execEscape (b : Byte) (s : State) : Host.Outcome State Fault Refusal :=
  .next (s.withResult (.bytes (escapeByte b)))

/-- The result of an `ENCODE` invoked by itself: its answer, and what the destination holds afterwards. -/
def encodeResult (space : Space) (r : EncodeResult) (B : Buffer) (s : State) : Host.Outcome State Fault Refusal :=
  match Buffer.content B with
  | some content => .next (s.withResult (.encoded r content))
  | none => .fault (.unwrittenByte space)

/-- `ENCODE` by itself, under any configuration (R93). Into the transmit buffer it is the step that `SEND` and
`SYNC_XCHG` build on, and needs what they establish, that the buffer is not being transmitted (R255). -/
def encodeStep (c : Config) (dest : EncodeDest) (type : Byte) (payload : Bytes) (s : State) :
    Host.Outcome State Fault Refusal :=
  if payloadFits payload then
    match dest with
    | .txbuf =>
      if s.txState = .busy then .refused .txbufInUse
      else
        let (r, B) := encodeInto c (s.txBuffer c) type payload
        encodeResult .txbuf r B (s.setTxBuffer B)
    | .given content cap =>
      if content.length ≤ cap then
        let (r, B) := encodeInto c (givenBuffer content cap) type payload
        encodeResult .txbuf r B s
      else .refused .destinationOverfull
  else .refused .payloadTooLong

/-- `ENCODE` (R93). -/
def execEncode (dest : EncodeDest) (type : Byte) (payload : Bytes) (s : State) : Host.Outcome State Fault Refusal :=
  encodeStep Config.impl dest type payload s

end Sys2Proof.Machine
end

