-- ==== Sys2Proof/Machine/Decoder.lean ====
section
/-! DEFINITION. The FrameCodec's incremental decoder: `DECODE_BYTE` and `DECODE` (41_frame_decode.md). They read and
write `dec_mode`, `fbuf` and `flen` and nothing else. -/

namespace Sys2Proof.Machine

/-- `fbuf` with its length register and capacity, as the operand of the bounded append (R51, R105). -/
def State.frameBuffer (c : Config) (s : State) : Buffer := { cells := s.fbuf, len := s.flen, cap := c.rxFrameCap }

/-- The shared append step of R105: on a full buffer the frame in progress is lost, ParserState is reset in place and
`Overflow` is the answer; the byte is consumed. -/
def appendBody (c : Config) (v : Byte) (s : State) : ByteResult × State :=
  match Buffer.append (s.frameBuffer c) v with
  | none => (.overflow, { s with flen := 0, decMode := .wait })
  | some B => (.more, { s with fbuf := B.cells, flen := B.len })

/-- Mode `WAIT` (R101). -/
def decodeWait (b : Byte) (s : State) : ByteResult × State :=
  (.more, if b = delimByte then { s with decMode := .inFrame } else s)

/-- A delimiter in mode `IN_FRAME`: a complete frame (R103), or a false start (R104). -/
def decodeDelim (s : State) : Except Fault (ByteResult × State) :=
  if minComplete ≤ s.flen then
    match Memory.load s.fbuf 0 s.flen with
    | some F => .ok (.frame F, { s with flen := 0, decMode := .wait })
    | none => .error (.unwrittenByte .fbuf)
  else .ok (.more, { s with flen := 0 })

/-- Mode `IN_FRAME` (R100): delimiter first, escape marker second (R102), literal last (R105). -/
def decodeInFrame (c : Config) (b : Byte) (s : State) : Except Fault (ByteResult × State) :=
  if b = delimByte then decodeDelim s
  else if b = escByte then .ok (.more, { s with decMode := .escaped })
  else .ok (appendBody c b s)

/-- Mode `ESCAPED` (R106): for every byte, the delimiter and the marker included. -/
def decodeEscaped (c : Config) (b : Byte) (s : State) : ByteResult × State :=
  appendBody c (b ^^^ xorMask) { s with decMode := .inFrame }

/-- `DECODE_BYTE(b)` (R100). -/
def decodeByte (c : Config) (b : Byte) (s : State) : Except Fault (ByteResult × State) :=
  match s.decMode with
  | .wait => .ok (decodeWait b s)
  | .inFrame => decodeInFrame c b s
  | .escaped => .ok (decodeEscaped c b s)

/-- `DECODE(input)` (R107): the first frame or overflow, or `NeedMore`, and how many bytes were consumed. -/
def decodeBytes (c : Config) (input : Bytes) (s : State) : Except Fault (DecodeResult × Nat × State) :=
  match input with
  | [] => .ok (.needMore, 0, s)
  | b :: rest =>
    match decodeByte c b s with
    | .error f => .error f
    | .ok (.frame F, s') => .ok (.frame F, 1, s')
    | .ok (.overflow, s') => .ok (.overflow, 1, s')
    | .ok (.more, s') =>
      match decodeBytes c rest s' with
      | .error f => .error f
      | .ok (r, n, s'') => .ok (r, n + 1, s'')

/-- `DECODE_BYTE` by itself, under any configuration, its answer the result (R100). -/
def decodeByteStep (c : Config) (b : Byte) (s : State) : Host.Outcome State Fault Refusal :=
  match decodeByte c b s with
  | .ok (r, s') => .next (s'.withResult (.byteStep r))
  | .error f => .fault f

/-- `DECODE` by itself, under any configuration, its answer the result (R107). -/
def decodeStep (c : Config) (input : Bytes) (s : State) : Host.Outcome State Fault Refusal :=
  match decodeBytes c input s with
  | .ok (r, n, s') => .next (s'.withResult (.decoded r n))
  | .error f => .fault f

/-- `DECODE_BYTE` (R100). -/
def execDecodeByte (b : Byte) (s : State) : Host.Outcome State Fault Refusal := decodeByteStep Config.impl b s

/-- `DECODE` (R107). -/
def execDecode (input : Bytes) (s : State) : Host.Outcome State Fault Refusal := decodeStep Config.impl input s

end Sys2Proof.Machine
end

