-- ==== Sys2Proof/Machine/Parser.lean ====
section
/-! DEFINITION. The PacketParser: `CRC16`, `PARSE` and `CLASSIFY` (42_packet_parse.md), pure functions of their operand
and the configuration. -/

namespace Sys2Proof.Machine

/-- `PARSE(F)` (R121): the length check first, the CRC check second, the type last (R125). -/
def parseBody (c : Config) (F : Bytes) : Packet :=
  if lengthOk F then
    let payload := bodyPayload F (declaredLength F)
    let t := byteAt F 0
    if crcOk c F then .ok t payload (classifyByte c t) else .crcFail t payload
  else .garbage

/-- `CRC16` (R120). -/
def execCrc16 (bytes : Bytes) (s : State) : Host.Outcome State Fault Refusal :=
  .next (s.withResult (.word (Config.impl.crc16 bytes)))

/-- `PARSE` (R121). -/
def execParse (body : Bytes) (s : State) : Host.Outcome State Fault Refusal :=
  .next (s.withResult (.packet (parseBody Config.impl body)))

/-- `CLASSIFY` (R124). -/
def execClassify (type : Byte) (s : State) : Host.Outcome State Fault Refusal :=
  .next (s.withResult (.cls (classifyByte Config.impl type)))

end Sys2Proof.Machine
end

