-- ==== Sys2Proof/Machine/RxRouter.lean ====
section
/-! DEFINITION. The RxRouter and its backpressure arbiter: `RX_READY`, `BP_CHECK`, `ROUTE` and `TIMER_FIRE`
(44_rx_router.md). They read and write the receive side only (R28). -/

namespace Sys2Proof.Machine

/-- Closing the valve (R163): the receive interrupt is disabled, and the timer armed unless it is armed already. -/
def closeValve (c : Config) (s : State) : State :=
  let s' := { s with rxIrqEn := false }
  if s.rxTimerArmed then s' else { s' with rxTimerArmed := true }.emit (.timerArm c.rxReenableDelay)

/-- `BP_CHECK(mem_used, mem_max)` (R162, R163). -/
def bpCheck (c : Config) (memUsed memMax : Nat) (s : State) : Valve × State :=
  if overThreshold memUsed memMax then (.over, closeValve c s) else (.under, s)

/-- `ROUTE(pkt, connected)` (R169): BLE_DATA to the BLE stack where a connection exists (R170), CONTROL to the
dispatcher (R171), a CRC failure to the diagnostic channel (R172), and nothing for the rest (R173, R174). -/
def route (c : Config) (pkt : Packet) (connected : Bool) (s : State) : State :=
  match pkt with
  | .garbage => s.takeError .garbage
  | .crcFail _ _ => s.takeError .crcFail
  | .ok _ payload .bleData => if connected then s.emit (.bleDeliver c.connIdx c.attrHandle payload) else s
  | .ok _ payload .control => s.emit (.ctrlDeliver payload)
  | .ok _ _ .none => s
  | .ok _ _ .ack => s
  | .ok _ _ .nak => s
  | .ok _ _ .ping => s

/-- What the parse loop does with one answer of `DECODE` (R160 step 3, R168). -/
def onDecoded (c : Config) (connected : Bool) (r : DecodeResult) (s : State) : State :=
  match r with
  | .frame F => route c (parseBody c F) connected s
  | .overflow => s.takeError .overflow
  | .needMore => s.takeError .needMore

/-- The parse loop of R160 step 3 (R167): `DECODE` driven again on what is left, at most `fuel` times. Each time it
consumes at least one byte, so that the number of bytes is fuel enough (R177). -/
def parseLoop (c : Config) (connected : Bool) : Nat → Bytes → State → Except Fault State
  | 0, _, s => .ok s
  | _ + 1, [], s => .ok s
  | fuel + 1, b :: rest, s =>
    match decodeBytes c (b :: rest) s with
    | .error f => .error f
    | .ok (r, n, s') => parseLoop c connected fuel ((b :: rest).drop n) (onDecoded c connected r s')

/-- The bytes of a UART read stored in `scratch` (R160 step 1, R165). -/
def State.fillScratch (s : State) (bytes : Bytes) : State := { s with scratch := Memory.store s.scratch 0 bytes }

/-- `scratch` is dead at the end of the operation (R21, R177): its contents have no meaning any more. -/
def State.dropScratch (s : State) : State := { s with scratch := [] }

/-- `RX_READY(B, mem_used, mem_max, connected)` (R160): read, then check, then parse or not; the bytes of an
over-threshold notification are lost (R164). The value of `rx_irq_en` plays no part (R161). -/
def receive (c : Config) (bytes : Bytes) (memUsed memMax : Nat) (connected : Bool) (s : State) : Except Fault State :=
  match bpCheck c memUsed memMax (s.fillScratch bytes) with
  | (.over, s1) => .ok s1.dropScratch
  | (.under, s1) =>
    match Memory.load s1.scratch 0 bytes.length with
    | none => .error (.unwrittenByte .scratch)
    | some B => (parseLoop c connected B.length B s1).map State.dropScratch

/-- Bytes received one notification each, with memory far under the threshold: `FEED1` (R79). -/
def receiveEach (c : Config) (connected : Bool) : Bytes → State → Except Fault State
  | [], s => .ok s
  | b :: rest, s =>
    match receive c [b] 0 1 connected s with
    | .error f => .error f
    | .ok s' => receiveEach c connected rest s'

/-- `TIMER_FIRE` on the state (R166). -/
def openValve (s : State) : State :=
  if s.rxTimerArmed then { s with rxTimerArmed := false, rxIrqEn := true } else s

/-- `RX_READY` under any configuration (R160); a read longer than the scratch buffer is outside the operand range. -/
def rxReadyStep (c : Config) (bytes : Bytes) (memUsed memMax : Nat) (connected : Bool) (s : State) :
    Host.Outcome State Fault Refusal :=
  if bytes.length ≤ c.rxScratchCap then
    finish ((receive c bytes memUsed memMax connected s).map (fun s' => s'.withResult .none))
  else .refused .readTooLong

/-- `RX_READY` (R160). -/
def execRxReady (bytes : Bytes) (memUsed memMax : Nat) (connected : Bool) (s : State) :
    Host.Outcome State Fault Refusal :=
  rxReadyStep Config.impl bytes memUsed memMax connected s

/-- `TIMER_FIRE` (R166). -/
def execTimerFire (s : State) : Host.Outcome State Fault Refusal := .next ((openValve s).withResult .none)

/-- `BP_CHECK` (R163). -/
def execBpCheck (memUsed memMax : Nat) (s : State) : Host.Outcome State Fault Refusal :=
  let (v, s') := bpCheck Config.impl memUsed memMax s
  .next (s'.withResult (.valve v))

/-- `ROUTE` (R169). -/
def execRoute (packet : Packet) (connected : Bool) (s : State) : Host.Outcome State Fault Refusal :=
  .next ((route Config.impl packet connected s).withResult .none)

end Sys2Proof.Machine
end

