-- ==== Sys2Proof/Machine/Boot.lean ====
section
/-! DEFINITION. Reset, the change to steady state, and the blocking boot exchange: `RESET`, `START` and `SYNC_XCHG`
(70_reset_and_hazards.md). -/

namespace Sys2Proof.Machine

/-- The block's state at its reset values (R240), the buffers' contents unspecified. What has been emitted stays in the
trace, and the dispatcher's record of what it has done is not the block's. An exchange in progress ends with the reset of
the chip, and so does what the dispatcher still had to send: "the external agents restart with the block", the
scheduler's queue is empty (R242). What else stands in the script are the environment's choices after the reset
(assumption 7). -/
def resetBlock (s : State) : State :=
  { State.reset with trace := s.trace, script := s.script.filter (fun code => !code.isReply), actions := s.actions, occasion := s.occasion }

/-- What a polling iteration does with one answer of `DECODE` that is not the reply (R247 point (f)): every frame is
dropped; a CRC failure and an overflow are reported. -/
def onPolled (c : Config) (r : DecodeResult) (s : State) : State :=
  match r with
  | .frame F =>
    match parseBody c F with
    | .crcFail _ _ => s.takeError .crcFail
    | .garbage => s
    | .ok _ _ _ => s
  | .overflow => s.takeError .overflow
  | .needMore => s.takeError .needMore

/-- The reply an exchange waits for, if this answer of `DECODE` brings it (R247 point (e)). -/
def replyIn (c : Config) (expect : Byte) : DecodeResult → Option Bytes
  | .frame F => matchingReply expect (parseBody c F)
  | .overflow => none
  | .needMore => none

/-- One polling iteration over the bytes of a read (R247): `DECODE` driven again until the reply has come or no bytes
are left. -/
def pollLoop (c : Config) (expect : Byte) : Nat → Bytes → State → Except Fault (Option Bytes × State)
  | 0, _, s => .ok (none, s)
  | _ + 1, [], s => .ok (none, s)
  | fuel + 1, b :: rest, s =>
    match decodeBytes c (b :: rest) s with
    | .error f => .error f
    | .ok (r, n, s') =>
      match replyIn c expect r with
      | some p => .ok (some p, s')
      | none => pollLoop c expect fuel ((b :: rest).drop n) (onPolled c r s')

/-- One read of the busy-poll: into `scratch`, through the decoder, and whatever follows the reply discarded with
`scratch` (R247 point (g)). -/
def pollRead (c : Config) (expect : Byte) (bytes : Bytes) (s : State) : Except Fault (Option Bytes × State) :=
  let s1 := s.fillScratch bytes
  match Memory.load s1.scratch 0 bytes.length with
  | none => .error (.unwrittenByte .scratch)
  | some B =>
    match pollLoop c expect B.length B s1 with
    | .error f => .error f
    | .ok (p, s2) => .ok (p, s2.dropScratch)

/-- The busy-poll over successive reads (R247). -/
def pollReads (c : Config) (expect : Byte) : List Bytes → State → Except Fault (Option Bytes × State)
  | [], s => .ok (none, s)
  | r :: rs, s =>
    match pollRead c expect r s with
    | .error f => .error f
    | .ok (some p, s') => .ok (some p, s')
    | .ok (none, s') => pollReads c expect rs s'

/-- Polling until the reply has come or the given reads are used up. With the reply the exchange ends (R247 point
(h)); without it, it is still polling: the model-only outcome `NoReply` (R249). -/
def pollExchange (c : Config) (x : Exchange) (reads : List Bytes) (s : State) : Except Fault State :=
  match pollReads c x.expect reads s with
  | .error f => .error f
  | .ok (some p, s') => .ok ({ s' with exchange := none }.withResult (.reply p))
  | .ok (none, s') => .ok ({ s' with exchange := some x }.withResult .noReply)

/-- The blocking write of the request (R247): `UartTxBlocking(txbuf[0..txlen])`, complete on return; `tx_state` stays
as it is. -/
def submitBlocking (s : State) : Except Fault State :=
  match Memory.load s.txbuf 0 s.txlen with
  | some bytes => .ok (s.emit (.uartTxBlocking bytes))
  | none => .error (.unwrittenByte .txbuf)

/-- A new exchange: admission (R246), the request frame, the blocking write, the polling (R247). -/
def beginExchange (c : Config) (x : Exchange) (reads : List Bytes) (s : State) : Except Fault State :=
  if exchangeAdmitted s then
    match encodeInto c ({ s with txlen := 0 }.txBuffer c) (c.typeByte .control) x.req with
    | (.capacityExceeded, B) => .ok ({ s.setTxBuffer B with txlen := 0 }.refuse .capacityExceeded)
    | (.done, B) =>
      match submitBlocking (s.setTxBuffer B) with
      | .error f => .error f
      | .ok s' => pollExchange c x reads s'
  else .ok (s.refuse .notAdmitted)

/-- `SYNC_XCHG(req, expect, reads)` under any configuration. An exchange that is still polling for this very request
goes on with more reads, "the only legitimate continuation" (R249); otherwise a new exchange begins. -/
def syncXchgStep (c : Config) (req : Bytes) (expect : Byte) (reads : List Bytes) (s : State) :
    Host.Outcome State Fault Refusal :=
  if payloadFits req then
    if reads.all (fun r => decide (r.length ≤ c.rxScratchCap)) then
      let x : Exchange := { req := req, expect := expect }
      finish (if s.exchange = some x then pollExchange c x reads s else beginExchange c x reads s)
    else .refused .readTooLong
  else .refused .payloadTooLong

/-- `RESET` (R240). -/
def execReset (s : State) : Host.Outcome State Fault Refusal := .next (resetBlock s)

/-- `START` (R245). -/
def execStart (s : State) : Host.Outcome State Fault Refusal := .next ({ s with phase := .run }.withResult .none)

/-- `SYNC_XCHG` (R246, R247, R249). -/
def execSyncXchg (req : Bytes) (expect : Byte) (reads : List Bytes) (s : State) : Host.Outcome State Fault Refusal :=
  syncXchgStep Config.impl req expect reads s

end Sys2Proof.Machine
end

