-- ==== Sys2Proof/Machine/Dispatcher.lean ====
section
/-! DEFINITION. The ctrl-opcode rows of the opcode table: a CONTROL packet with that opcode is received and delivered
(R171, R190), and the ControlCommandDispatcher, a collaborator outside the block, handles it as 45_control_dispatch.md
transcribes (R192 to R199). The handlers touch no state of the block (R202): the dispatcher's action is recorded, and is
the result of a control row, and its two ways back into the block, a `SEND` (R191) and the chip-wide reset (R194), go into
the environment's script (assumptions 11 and 12). What any other operation delivers reaches the dispatcher at the end of
the step (`observed`). -/

namespace Sys2Proof.Machine

/-- The handler of one command. `p` is the whole payload, opcode byte included, which is what the length conditions
count (R190); a command that fails its condition has no action (U10). -/
def handle (c : Config) (status : BleStatus) (o : CtrlOp) (p : Bytes) : DispatchAction :=
  match o with
  | .deviceName =>                                                     -- R192
    let name := p.drop 1
    if p.length ≤ c.nameBound then .updateDeviceName name (name.take c.advNameCap) else .noOp
  | .productString => if isConnected status then .indicateProductString else .noOp      -- R193
  | .chipReset => .chipReset                                                            -- R194
  | .tkConfirm => if p.length = c.keyLen + 2 then .forwardTkConfirm (p.drop 1) else .noOp      -- R195
  | .bleStatus => if p.length = 1 then .replyStatus ((c.statusReply status).take maxPayload) else .noOp      -- R196
  | .bleEnabled =>                                                     -- R197
    if p.length = 2 ∧ byteAt p 1 = 0 then .beginShutdown (isConnected status) else .noOp
  | .txPower =>                                                        -- R198
    if 2 ≤ p.length ∧ 1 ≤ (byteAt p 1).toNat ∧ (byteAt p 1).toNat ≤ 12 then .applyTxPower (byteAt p 1) else .noOp
  | .bondDbGet => .noOp                                                -- R199, as the six below
  | .bondDbSet => .noOp
  | .pairingCode => .noOp
  | .irk => .noOp
  | .identityAddress => .noOp
  | .pairingSuccessful => .noOp
  | .debugString => .noOp

/-- What the dispatcher does with a delivered payload (R190, R199): it dispatches on `opcode = payload[0]`; an
unrecognised opcode is a no-op, and so is an empty payload, which has no opcode byte to read (U9). -/
def dispatch (c : Config) (status : BleStatus) (p : Bytes) : DispatchAction :=
  match p with
  | [] => .noOp
  | b :: _ =>
    match ctrlOpOf c b with
    | some o => handle c status o p
    | none => .noOp

/-- An element put into a list behind its first `k` elements, or at its end. -/
def insertBehind (k : Nat) (x : Code) (l : List Code) : List Code := l.take k ++ x :: l.drop k

/-- What comes back into the block's environment from an action: after CHIP_RESET "the block's next operation is
`RESET`" (R194); the reply to GET_BLE_STATUS is a `SEND` of a CONTROL packet that some later operation of the
environment is, at a free place (R191, R201; assumption 12), unless the chip is reset before (R242). Where that place
falls between two `SYNC_XCHG` items of one exchange that is still polling, the step stops there by name
(`exchangeInProgress`) and does not hold the `SEND` until the exchange ends (R251): DESIGN CHOICE, assumptions 10 and 12.
Nothing else comes back (R202). -/
def State.afterAction (c : Config) (s : State) : DispatchAction → State
  | .chipReset => { s with script := .line .RESET :: s.script }
  | .replyStatus p =>
    { s with script := insertBehind (c.replyDelay s.occasion) (.reply p) s.script }
  | .noOp => s
  | .updateDeviceName _ _ => s
  | .indicateProductString => s
  | .forwardTkConfirm _ => s
  | .beginShutdown _ => s
  | .applyTxPower _ => s

/-- A payload handed to the dispatcher (R190): it acts, what comes back goes into the script, and the occasion is
counted. -/
def State.handOver (c : Config) (s : State) (status : BleStatus) (p : Bytes) : State :=
  let a := dispatch c status p
  { s.afterAction c a with actions := s.actions ++ [a], occasion := s.occasion + 1 }

/-- The connection status that the dispatcher sees at an occasion, for a payload received under a connection flag: a
connection is secure or not as the free value says (R196, R231; assumption 12). -/
def statusAt (c : Config) (connected : Bool) (occasion : Nat) : BleStatus :=
  if connected then (if c.secured occasion then .connectedSecure else .connected) else .advertising

/-- The payloads of an operation handed to the dispatcher in the order of their delivery (R47, R190). After CHIP_RESET
nothing more is handled: the whole chip restarts (R194; assumption 11). -/
def handOverAll (c : Config) (connected : Bool) : List Bytes → State → State
  | [], s => s
  | p :: rest, s =>
    let status := statusAt c connected s.occasion
    if dispatch c status p = .chipReset then s.handOver c status p
    else handOverAll c connected rest (s.handOver c status p)

/-- The payload that an effect hands to the dispatcher, if it does (R190). -/
def Effect.delivery : Effect → Option Bytes
  | .ctrlDeliver p => some p
  | .uartTx _ => none
  | .uartTxBlocking _ => none
  | .timerArm _ => none
  | .bleDeliver _ _ _ => none
  | .diag _ => none

/-- The connection flag of an operation whose deliveries the dispatcher has still to handle: of every operation through
which a frame reaches the router. The control rows have handled theirs themselves, and the rest deliver nothing. -/
def deliversUnder : Instr → Option Bool
  | .delim conn | .esc conn | .lit _ conn => some conn
  | .escPair7E conn | .escPair7D conn | .escPair02 conn | .escPairAny _ conn => some conn
  | .frameBody _ _ _ _ conn | .wireFrame _ conn | .rxReady _ _ _ conn | .route _ conn => some conn
  | .typeAck u | .typeNak u | .typeBleData u | .typeControl u | .typePing u | .typeOther _ u => u.flag
  | .reset | .start | .send _ _ | .txComplete | .timerFire | .syncXchg _ _ _ => none
  | .escape _ | .encode _ _ _ | .crc16 _ | .decodeByte _ | .decode _ | .parse _ | .classify _ | .bpCheck _ _ | .drain => none
  | .ctrlDeviceName _ _ | .ctrlBondDbGet _ _ | .ctrlBondDbSet _ _ | .ctrlPairingCode _ _ | .ctrlBleStatus _ _ => none
  | .ctrlIrk _ _ | .ctrlProductString _ _ | .ctrlChipReset _ _ | .ctrlIdentityAddress _ _ => none
  | .ctrlPairingSuccessful _ _ | .ctrlTkConfirm _ _ | .ctrlBleEnabled _ _ | .ctrlTxPower _ _ | .ctrlDebugString _ _ => none

/-- The dispatcher observes every `CtrlDeliver` that an operation has emitted (R190, R201): the effects of `t` behind
those of the state `s` in which the operation began. -/
def observed (c : Config) (i : Instr) (s t : State) : State :=
  match deliversUnder i with
  | some connected => handOverAll c connected ((t.trace.drop s.trace.length).filterMap Effect.delivery) t
  | none => t

/-- A control command received, under any configuration: the valid CONTROL packet with this payload is routed (R171),
and the dispatcher acts. The packet may be longer than `RX_FRAME_CAP` admits (R70, R105): the row starts behind the
decoder (assumptions 9 and 11). -/
def commandStep (c : Config) (o : CtrlOp) (args : Bytes) (status : BleStatus) (s : State) :
    Host.Outcome State Fault Refusal :=
  let p := c.ctrlOpcode o :: args
  if argsFit args then
    let s1 := route c (parseBody c (bodyOf c (c.typeByte .control) p)) (isConnected status) s
    .next ((s1.handOver c status p).withResult (.dispatched (dispatch c status p)))
  else .refused .payloadTooLong

/-- "device name", handler SET_DEVICE_NAME (R192). -/
def execCtrlDeviceName (args : Bytes) (status : BleStatus) (s : State) : Host.Outcome State Fault Refusal :=
  commandStep Config.impl .deviceName args status s

/-- "bond-db get", no handler (R199, R200). -/
def execCtrlBondDbGet (args : Bytes) (status : BleStatus) (s : State) : Host.Outcome State Fault Refusal :=
  commandStep Config.impl .bondDbGet args status s

/-- "bond-db set", no handler (R199, R200). -/
def execCtrlBondDbSet (args : Bytes) (status : BleStatus) (s : State) : Host.Outcome State Fault Refusal :=
  commandStep Config.impl .bondDbSet args status s

/-- "pairing code", no handler (R199, R200). -/
def execCtrlPairingCode (args : Bytes) (status : BleStatus) (s : State) : Host.Outcome State Fault Refusal :=
  commandStep Config.impl .pairingCode args status s

/-- "BLE status", handler GET_BLE_STATUS (R196). -/
def execCtrlBleStatus (args : Bytes) (status : BleStatus) (s : State) : Host.Outcome State Fault Refusal :=
  commandStep Config.impl .bleStatus args status s

/-- "IRK", no handler (R199, R200). -/
def execCtrlIrk (args : Bytes) (status : BleStatus) (s : State) : Host.Outcome State Fault Refusal :=
  commandStep Config.impl .irk args status s

/-- "product string", handler GET_PRODUCT_STRING (R193). -/
def execCtrlProductString (args : Bytes) (status : BleStatus) (s : State) : Host.Outcome State Fault Refusal :=
  commandStep Config.impl .productString args status s

/-- "chip reset", handler CHIP_RESET (R194). -/
def execCtrlChipReset (args : Bytes) (status : BleStatus) (s : State) : Host.Outcome State Fault Refusal :=
  commandStep Config.impl .chipReset args status s

/-- "identity address", no handler (R199, R200). -/
def execCtrlIdentityAddress (args : Bytes) (status : BleStatus) (s : State) : Host.Outcome State Fault Refusal :=
  commandStep Config.impl .identityAddress args status s

/-- "pairing successful", no handler (R199, R200). -/
def execCtrlPairingSuccessful (args : Bytes) (status : BleStatus) (s : State) : Host.Outcome State Fault Refusal :=
  commandStep Config.impl .pairingSuccessful args status s

/-- "TK confirm", handler TK_CONFIRM (R195). -/
def execCtrlTkConfirm (args : Bytes) (status : BleStatus) (s : State) : Host.Outcome State Fault Refusal :=
  commandStep Config.impl .tkConfirm args status s

/-- "BLE enabled", handler SET_BLE_ENABLED (R197). -/
def execCtrlBleEnabled (args : Bytes) (status : BleStatus) (s : State) : Host.Outcome State Fault Refusal :=
  commandStep Config.impl .bleEnabled args status s

/-- "TX power level", handler SET_TX_POWER (R198). -/
def execCtrlTxPower (args : Bytes) (status : BleStatus) (s : State) : Host.Outcome State Fault Refusal :=
  commandStep Config.impl .txPower args status s

/-- "debug string", no handler (R199, R200). -/
def execCtrlDebugString (args : Bytes) (status : BleStatus) (s : State) : Host.Outcome State Fault Refusal :=
  commandStep Config.impl .debugString args status s

end Sys2Proof.Machine
end

