-- ==== Sys2Proof/Machine/TxController.lean ====
section
/-! DEFINITION. The TxController: `SEND`, `TX_COMPLETE` and `DRAIN` (43_tx_controller.md). They read and write
`tx_state`, `txbuf`, `txlen` and `txq`, and nothing on the receive side (R28). -/

namespace Sys2Proof.Machine

/-- Frames of one type encoded one after the other into a buffer, stopping at the first that does not fit (R137,
R139). -/
def encodeEach (c : Config) (type : Byte) : List Bytes → Buffer → EncodeResult × Buffer
  | [], B => (.done, B)
  | p :: ps, B =>
    match encodeInto c B type p with
    | (.capacityExceeded, B') => (.capacityExceeded, B')
    | (.done, B') => encodeEach c type ps B'

/-- The payloads of the frames of a request: a CONTROL request is one frame (R138), a BLE_DATA request its 64-byte
chunks (R139). -/
def framePayloads (c : Config) (type : Byte) (payload : Bytes) : List Bytes :=
  if type = c.typeByte .control then [payload] else chunks payload

/-- `Sent`, or the error with which a request is refused. -/
abbrev SendResult := Option ErrorOutcome

/-- The refusals of `SendNow` before anything is encoded, in R224's order: the type (R136), then the BLE length
(R140). -/
def sendDefect (c : Config) (type : Byte) (payload : Bytes) : Option ErrorOutcome :=
  if typeTransmits c type then
    if type = c.typeByte .control then none
    else if bleLengthOk payload then none else some .badLength
  else some .invalidType

/-- Submitting what `txbuf` holds to the UART send primitive (R137): `UartTx(txbuf[0..txlen])`, then `BUSY`. -/
def submit (s : State) : Except Fault State :=
  match Memory.load s.txbuf 0 s.txlen with
  | some bytes => .ok { s.emit (.uartTx bytes) with txState := .busy }
  | none => .error (.unwrittenByte .txbuf)

/-- `SendNow(type, payload)` (R137), the `READY` branch of `SEND`: a fresh transmit buffer, then all the frames of the
request or none (R141). `none` is `Sent`. -/
def sendNow (c : Config) (type : Byte) (payload : Bytes) (s : State) : Except Fault (SendResult × State) :=
  let s0 := { s with txlen := 0 }
  match sendDefect c type payload with
  | some e => .ok (some e, s0)
  | none =>
    match encodeEach c type (framePayloads c type payload) (s0.txBuffer c) with
    | (.capacityExceeded, B) => .ok (some .capacityExceeded, { s0.setTxBuffer B with txlen := 0 })
    | (.done, B) =>
      match submit (s0.setTxBuffer B) with
      | .ok s' => .ok (none, s')
      | .error f => .error f

/-- The result of a request that `SendNow` has dealt with (R135). -/
def State.sendResult (s : State) : SendResult → State
  | none => s.withResult .sent
  | some e => s.refuse e

/-- `SEND` in `BUSY` (R142): no validation (R143), the request queued, or refused where the queue is full. -/
def sendQueued (c : Config) (type : Byte) (payload : Bytes) (s : State) : State :=
  if s.queueFull c then s.refuse .queueFull
  else (s.push { type := type, payload := payload }).withResult .queued

/-- `SEND(type, payload)` under any configuration (R135). -/
def sendStep (c : Config) (type : Byte) (payload : Bytes) (s : State) : Host.Outcome State Fault Refusal :=
  if payloadFits payload then
    match s.txState with
    | .busy => .next (sendQueued c type payload s)
    | .ready =>
      match sendNow c type payload s with
      | .ok (r, s') => .next (s'.sendResult r)
      | .error f => .fault f
  else .refused .payloadTooLong

/-- `DRAIN()` (R145), at most `n` times round: while `READY` and not empty, the head leaves the queue and `SendNow` is
entered again; a request that it refuses is dropped with a report (R146). -/
def drainLoop (c : Config) : Nat → State → Except Fault State
  | 0, s => .ok s
  | n + 1, s =>
    match s.txState, s.txq with
    | .ready, x :: rest =>
      match sendNow c x.type x.payload { s with txq := rest } with
      | .error f => .error f
      | .ok (none, s') => drainLoop c n s'
      | .ok (some e, s') => drainLoop c n (s'.takeError e)
    | _, _ => .ok s

/-- `DRAIN()` (R145): each time round removes one entry, so that `size(txq)` times are enough. -/
def drain (c : Config) (s : State) : Except Fault State := drainLoop c s.txq.length s

/-- `TX_COMPLETE` under any configuration (R144). -/
def txCompleteStep (c : Config) (s : State) : Host.Outcome State Fault Refusal :=
  finish ((drain c { s with txState := .ready }).map (fun s' => s'.withResult .none))

/-- `DRAIN` by itself, under any configuration (R145). -/
def drainStep (c : Config) (s : State) : Host.Outcome State Fault Refusal :=
  finish ((drain c s).map (fun s' => s'.withResult .none))

/-- `SEND` (R135). -/
def execSend (type : Byte) (payload : Bytes) (s : State) : Host.Outcome State Fault Refusal :=
  sendStep Config.impl type payload s

/-- `TX_COMPLETE` (R144). -/
def execTxComplete (s : State) : Host.Outcome State Fault Refusal := txCompleteStep Config.impl s

/-- `DRAIN` (R145). -/
def execDrain (s : State) : Host.Outcome State Fault Refusal := drainStep Config.impl s

end Sys2Proof.Machine
end

