-- ==== Sys2Proof/Machine/PacketTypes.lean ====
section
/-! DEFINITION. The type-byte rows of the opcode table: what the block does with a packet of each type in its two
directions (R66). -/

namespace Sys2Proof.Machine

/-- A type byte put to use, under any configuration: transmitting is a `SEND` of that type (R135); receiving is the
routing of a parsed frame body of that type (R160 step 3, R169). The received body may be longer than `RX_FRAME_CAP`,
which no frame that the decoder delivers is (R70, R105): this row starts behind the decoder, the model's choice
(assumption 9). -/
def typeStep (c : Config) (type : Byte) (use : TypeUse) (s : State) : Host.Outcome State Fault Refusal :=
  match use with
  | .transmit payload => sendStep c type payload s
  | .receive payload connected =>
    if payloadFits payload then
      .next ((route c (parseBody c (bodyOf c type payload)) connected s).withResult .none)
    else .refused .payloadTooLong

/-- `ACK` (R66): not transmitted (R136); received, no action (R174). -/
def execTypeAck (use : TypeUse) (s : State) : Host.Outcome State Fault Refusal :=
  typeStep Config.impl (Config.impl.typeByte .ack) use s

/-- `NAK` (R66): not transmitted (R136); received, no action (R174). -/
def execTypeNak (use : TypeUse) (s : State) : Host.Outcome State Fault Refusal :=
  typeStep Config.impl (Config.impl.typeByte .nak) use s

/-- `BLE_DATA` (R66): transmitted in 64-byte chunk frames (R139); received, delivered to the BLE stack (R170). -/
def execTypeBleData (use : TypeUse) (s : State) : Host.Outcome State Fault Refusal :=
  typeStep Config.impl (Config.impl.typeByte .bleData) use s

/-- `CONTROL` (R66): transmitted as one frame (R138); received, delivered to the dispatcher (R171). -/
def execTypeControl (use : TypeUse) (s : State) : Host.Outcome State Fault Refusal :=
  typeStep Config.impl (Config.impl.typeByte .control) use s

/-- `PING` (R66): not transmitted (R136); received, no action (R174). -/
def execTypePing (use : TypeUse) (s : State) : Host.Outcome State Fault Refusal :=
  typeStep Config.impl (Config.impl.typeByte .ping) use s

/-- Any other type byte (R66, R124): not transmitted (R136); received, class `NONE`, no action (R173). -/
def execTypeOther (type : Byte) (use : TypeUse) (s : State) : Host.Outcome State Fault Refusal :=
  typeStep Config.impl type use s

end Sys2Proof.Machine
end

