-- ==== Sys2Proof/Machine/Wire.lean ====
section
/-! DEFINITION. The wire rows of the opcode table: bytes that arrive on the serial line. Each byte is received with a
notification of its own, memory far under the threshold: the script's `FEED1` (R79), with the connection flag an
operand (assumption 6). The frame-body row is what the decoder hands to the parser and the router (R160 step 3). -/

namespace Sys2Proof.Machine

/-- Wire bytes received, under any configuration (R79, R160). -/
def wireStep (c : Config) (bytes : Bytes) (connected : Bool) (s : State) : Host.Outcome State Fault Refusal :=
  finish ((receiveEach c connected bytes s).map (fun s' => s'.withResult .none))

/-- `DELIM` (R60): the decoder's action by mode is R101, R103, R104, R106. -/
def execDelim (connected : Bool) (s : State) : Host.Outcome State Fault Refusal :=
  wireStep Config.impl [delimByte] connected s

/-- `ESC` (R60): the decoder's action by mode is R101, R102, R106. -/
def execEsc (connected : Bool) (s : State) : Host.Outcome State Fault Refusal :=
  wireStep Config.impl [escByte] connected s

/-- `LIT` (R60): the decoder's action by mode is R101, R105, R106; `0x02` is a literal (R110). -/
def execLit (b : Byte) (connected : Bool) (s : State) : Host.Outcome State Fault Refusal :=
  wireStep Config.impl [b] connected s

/-- `7D 5E`, the pair that stands for `0x7E` (R61, R106). -/
def execEscPair7E (connected : Bool) (s : State) : Host.Outcome State Fault Refusal :=
  wireStep Config.impl [escByte, 0x5E] connected s

/-- `7D 5D`, the pair that stands for `0x7D` (R61, R106). -/
def execEscPair7D (connected : Bool) (s : State) : Host.Outcome State Fault Refusal :=
  wireStep Config.impl [escByte, 0x5D] connected s

/-- `7D 22`, the pair that stands for `0x02` (R61, R106). -/
def execEscPair02 (connected : Bool) (s : State) : Host.Outcome State Fault Refusal :=
  wireStep Config.impl [escByte, 0x22] connected s

/-- `7D x`, any other pair: accepted for every `x` (R61, R106). -/
def execEscPairAny (x : Byte) (connected : Bool) (s : State) : Host.Outcome State Fault Refusal :=
  wireStep Config.impl [escByte, x] connected s

/-- `FRAME_BODY` (R63): a frame body handed to the parser and the router; the result is what `PARSE` answers. The body
is taken as given, one longer than `RX_FRAME_CAP` too, which the decoder never delivers (R70, R105): the model's choice
(assumption 9). -/
def execFrameBody (type : Byte) (length : Word16) (payload : Bytes) (crc : Word16) (connected : Bool) (s : State) :
    Host.Outcome State Fault Refusal :=
  let pkt := parseBody Config.impl (layoutBody type length payload crc)
  .next ((route Config.impl pkt connected s).withResult (.packet pkt))

/-- `WIRE_FRAME` (R62): a delimiter, the bytes of the frame body escaped as the encoder does (R67), a delimiter. -/
def execWireFrame (body : Bytes) (connected : Bool) (s : State) : Host.Outcome State Fault Refusal :=
  wireStep Config.impl (wireOfBody body) connected s

end Sys2Proof.Machine
end

