-- ==== Sys2Proof/Machine/Dispatch.lean ====
section
/-! DEFINITION. The dispatch of an instruction to its meaning: one arm per constructor, in the order of
spec/opcode_table.json. -/

namespace Sys2Proof.Machine

/-- What an instruction does to the machine. -/
def exec (i : Instr) (s : State) : Host.Outcome State Fault Refusal :=
  match i with
  -- wire-byte rows
  | .delim connected => Sys2Proof.Machine.execDelim connected s
  | .esc connected => Sys2Proof.Machine.execEsc connected s
  | .lit b connected => Sys2Proof.Machine.execLit b connected s
  -- wire-pair rows
  | .escPair7E connected => Sys2Proof.Machine.execEscPair7E connected s
  | .escPair7D connected => Sys2Proof.Machine.execEscPair7D connected s
  | .escPair02 connected => Sys2Proof.Machine.execEscPair02 connected s
  | .escPairAny x connected => Sys2Proof.Machine.execEscPairAny x connected s
  -- frame-body rows
  | .frameBody type length payload crc connected => Sys2Proof.Machine.execFrameBody type length payload crc connected s
  -- wire-frame rows
  | .wireFrame body connected => Sys2Proof.Machine.execWireFrame body connected s
  -- type-byte rows
  | .typeAck use => Sys2Proof.Machine.execTypeAck use s
  | .typeNak use => Sys2Proof.Machine.execTypeNak use s
  | .typeBleData use => Sys2Proof.Machine.execTypeBleData use s
  | .typeControl use => Sys2Proof.Machine.execTypeControl use s
  | .typePing use => Sys2Proof.Machine.execTypePing use s
  | .typeOther type use => Sys2Proof.Machine.execTypeOther type use s
  -- operation rows
  | .reset => Sys2Proof.Machine.execReset s
  | .start => Sys2Proof.Machine.execStart s
  | .send type payload => Sys2Proof.Machine.execSend type payload s
  | .txComplete => Sys2Proof.Machine.execTxComplete s
  | .rxReady bytes memUsed memMax connected => Sys2Proof.Machine.execRxReady bytes memUsed memMax connected s
  | .timerFire => Sys2Proof.Machine.execTimerFire s
  | .syncXchg req expect reads => Sys2Proof.Machine.execSyncXchg req expect reads s
  | .escape b => Sys2Proof.Machine.execEscape b s
  | .encode dest type payload => Sys2Proof.Machine.execEncode dest type payload s
  | .crc16 bytes => Sys2Proof.Machine.execCrc16 bytes s
  | .decodeByte b => Sys2Proof.Machine.execDecodeByte b s
  | .decode input => Sys2Proof.Machine.execDecode input s
  | .parse body => Sys2Proof.Machine.execParse body s
  | .classify type => Sys2Proof.Machine.execClassify type s
  | .bpCheck memUsed memMax => Sys2Proof.Machine.execBpCheck memUsed memMax s
  | .route packet connected => Sys2Proof.Machine.execRoute packet connected s
  | .drain => Sys2Proof.Machine.execDrain s
  -- ctrl-opcode rows
  | .ctrlDeviceName args status => Sys2Proof.Machine.execCtrlDeviceName args status s
  | .ctrlBondDbGet args status => Sys2Proof.Machine.execCtrlBondDbGet args status s
  | .ctrlBondDbSet args status => Sys2Proof.Machine.execCtrlBondDbSet args status s
  | .ctrlPairingCode args status => Sys2Proof.Machine.execCtrlPairingCode args status s
  | .ctrlBleStatus args status => Sys2Proof.Machine.execCtrlBleStatus args status s
  | .ctrlIrk args status => Sys2Proof.Machine.execCtrlIrk args status s
  | .ctrlProductString args status => Sys2Proof.Machine.execCtrlProductString args status s
  | .ctrlChipReset args status => Sys2Proof.Machine.execCtrlChipReset args status s
  | .ctrlIdentityAddress args status => Sys2Proof.Machine.execCtrlIdentityAddress args status s
  | .ctrlPairingSuccessful args status => Sys2Proof.Machine.execCtrlPairingSuccessful args status s
  | .ctrlTkConfirm args status => Sys2Proof.Machine.execCtrlTkConfirm args status s
  | .ctrlBleEnabled args status => Sys2Proof.Machine.execCtrlBleEnabled args status s
  | .ctrlTxPower args status => Sys2Proof.Machine.execCtrlTxPower args status s
  | .ctrlDebugString args status => Sys2Proof.Machine.execCtrlDebugString args status s

end Sys2Proof.Machine
end

