-- ==== Sys2Proof/Machine/Fetch.lean ====
section
/-! DEFINITION. Where the next operation comes from. The block fetches no instructions (R12, R49); the environment
chooses the next external operation (R222), and the script holds its choices, first one first (R7, R78). -/

namespace Sys2Proof.Machine

/-- The next operation of a script, and the script behind it. An item of several operations leaves the rest of them; one
of none, a pattern with no byte, is passed over. -/
def nextOperation (c : Config) : List Code → Option (Instr × List Code)
  | [] => none
  | code :: rest =>
    match instructionsOf c code with
    | [] => nextOperation c rest
    | i :: more => some (i, more.map (encode c) ++ rest)

/-- The next operation, and the state once the environment has made that choice. -/
def fetch (c : Config) (s : State) : Option (Instr × State) :=
  (nextOperation c s.script).map (fun x => (x.1, { s with script := x.2 }))

/-- While a blocking exchange is still polling, the one thread of the block is in it: no other operation happens
(R249, R251) but more reads of the same exchange, or a reset of the whole chip (R222, R242). -/
def admits (s : State) (i : Instr) : Bool :=
  match s.exchange with
  | none => true
  | some x =>
    match i with
    | .reset => true
    | .syncXchg req expect _ => decide (x.req = req) && decide (x.expect = expect)
    | _ => false

/-- The bits of a row of the opcode table put first in the script, with a BLE connection present (assumption 6). -/
def placeWord (s : State) (nbits w : Nat) : State := { s with script := .bits nbits w true :: s.script, exchange := none }

end Sys2Proof.Machine
end

