-- ==== Sys2Proof/Machine/Step.lean ====
section
/-! DEFINITION. One step of the machine: the next operation of the script executed (R2: one operation at a time, to
completion), and what it delivered to the dispatcher observed by it (R190, R201). -/

namespace Sys2Proof.Machine

/-- What an operation comes to for the machine: the block's next state, with the dispatcher's observation. -/
def afterwards (c : Config) (i : Instr) (s : State) : Host.Outcome State Fault Refusal → Host.Outcome State Fault Refusal
  | .next t => .next (observed c i s t)
  | .fault f => .fault f
  | .refused r => .refused r

/-- One step. With no operation left in the script the block waits (assumption 4). -/
def step (s : State) : Host.Outcome State Fault Refusal :=
  match fetch Config.impl s with
  | none => .next { s with script := [] }
  | some (i, s') =>
    if admits s' i then afterwards Config.impl i s' (exec i s') else .fault .exchangeInProgress

/-- `s` with the bits of an opcode-table row where `step` fetches its next instruction, and no exchange in progress
that would keep `step` from running it. -/
def State.withFetchWord (s : State) (nbits w : Nat) : State := placeWord s nbits w

end Sys2Proof.Machine
end

