-- ==== Sys2Proof/Safety.lean ====
section
/-! DEFINITION. What a sound state is: the invariants that the spec states between operations (R15, R18, R20, R22, R23,
R29, R42), and the terms in which claims about runs are put. -/

namespace Sys2Proof.Machine

/-- Every index below `n` has been written. -/
def Memory.writtenBelow (m : Memory) (n : Nat) : Prop := ∀ i, i < n → (Memory.read m i).isSome

/-- No index at or beyond `cap` has been written (R42, R91). -/
def Memory.within (m : Memory) (cap : Nat) : Prop := ∀ i, cap ≤ i → Memory.read m i = none

/-- The decoder's part: `0 <= flen <= RX_FRAME_CAP`, `WAIT` implies `flen = 0` (R15), and the body accumulated so far
lies in `fbuf` (R14, R42). -/
structure RxInv (c : Config) (s : State) : Prop where
  fbuf_wf : Memory.wf s.fbuf
  fbuf_within : Memory.within s.fbuf c.rxFrameCap
  fbuf_written : Memory.writtenBelow s.fbuf s.flen
  flen_le : s.flen ≤ c.rxFrameCap
  wait_empty : s.decMode = .wait → s.flen = 0

/-- The transmitter's part: `0 <= txlen <= TX_BUF_CAP` (R18), the valid bytes lie in `txbuf` (R17, R42), `READY`
implies an empty queue, and the queue keeps to its depth and its operand range (R20). -/
structure TxInv (c : Config) (s : State) : Prop where
  txbuf_wf : Memory.wf s.txbuf
  txbuf_within : Memory.within s.txbuf c.txBufCap
  txbuf_written : Memory.writtenBelow s.txbuf s.txlen
  txlen_le : s.txlen ≤ c.txBufCap
  ready_empty : s.txState = .ready → s.txq = []
  depth_le : ∀ d, c.txqDepth = some d → s.txq.length ≤ d
  payload_le : ∀ x, x ∈ s.txq → x.payload.length ≤ maxPayload

/-- The valve's part: `rx_irq_en = 1 - rx_timer_armed` (R23, R175). -/
def ValveInv (s : State) : Prop := s.rxIrqEn = !s.rxTimerArmed

/-- The exchange's part: one in progress is in phase `BOOT` with nothing in transmission (R246, R247). -/
def ExchangeInv (s : State) : Prop := s.exchange.isSome → s.phase = .boot ∧ s.txState = .ready

/-- The invariants that hold between operations (R29). `scratch` is dead then (R21). -/
structure Inv (c : Config) (s : State) : Prop where
  rx : RxInv c s
  tx : TxInv c s
  valve : ValveInv s
  exchange : ExchangeInv s
  scratch_dead : s.scratch = []

/-- The receive side of two states is the same (R28). -/
def sameRx (s t : State) : Prop :=
  t.decMode = s.decMode ∧ t.fbuf = s.fbuf ∧ t.flen = s.flen ∧ t.scratch = s.scratch ∧ t.rxIrqEn = s.rxIrqEn ∧
    t.rxTimerArmed = s.rxTimerArmed

/-- The transmit side of two states is the same (R28). -/
def sameTx (s t : State) : Prop :=
  t.txState = s.txState ∧ t.txbuf = s.txbuf ∧ t.txlen = s.txlen ∧ t.txq = s.txq

/-- What neither side owns is the same: the phase, the script, the exchange and the dispatcher's record. -/
def sameRest (s t : State) : Prop :=
  t.phase = s.phase ∧ t.script = s.script ∧ t.exchange = s.exchange ∧ t.actions = s.actions ∧ t.occasion = s.occasion

/-! ### Terms in which claims are put -/

/-- What a request comes to when its turn comes, said without any buffer: the wire bytes of all its frames, or the
error with which it is refused, the first in R224's order (R136, R138 to R141). -/
def requestWire (c : Config) (type : Byte) (payload : Bytes) : Except ErrorOutcome Bytes :=
  if type = c.typeByte .control then
    if (wireOf c type payload).length ≤ c.txBufCap then .ok (wireOf c type payload) else .error .capacityExceeded
  else if type = c.typeByte .bleData then
    if payload.length = 0 ∨ payload.length % bleChunk ≠ 0 then .error .badLength
    else
      let W := (chunks payload).flatMap (wireOf c type)
      if W.length ≤ c.txBufCap then .ok W else .error .capacityExceeded
  else .error .invalidType

/-- `DECODE` driven over one piece of a stream until all of it is consumed, what is left presented again first; the
frames and overflows it answers, in order (R107, R111). -/
def drivePiece (c : Config) : Nat → Bytes → State → Except Fault (List DecodeResult × State)
  | 0, _, s => .ok ([], s)
  | _ + 1, [], s => .ok ([], s)
  | fuel + 1, b :: rest, s =>
    match decodeBytes c (b :: rest) s with
    | .error f => .error f
    | .ok (r, n, s') =>
      match drivePiece c fuel ((b :: rest).drop n) s' with
      | .error f => .error f
      | .ok (rs, t) => .ok (if r = .needMore then rs else r :: rs, t)

/-- `DECODE` driven over the consecutive pieces of a stream (R111). -/
def drivePieces (c : Config) : List Bytes → State → Except Fault (List DecodeResult × State)
  | [], s => .ok ([], s)
  | p :: ps, s =>
    match drivePiece c p.length p s with
    | .error f => .error f
    | .ok (rs, s') =>
      match drivePieces c ps s' with
      | .error f => .error f
      | .ok (rs', t) => .ok (rs ++ rs', t)

/-- Whether an effect hands the UART a transmission whose completion will be notified (R225). -/
def Effect.isUartTx : Effect → Bool
  | .uartTx _ => true
  | _ => false

/-- Whether an effect arms the timer (R226). -/
def Effect.isTimerArm : Effect → Bool
  | .timerArm _ => true
  | _ => false

/-- A byte sequence with one bit of one byte changed (R127). -/
def flipBit (F : Bytes) (i k : Nat) : Bytes := F.modify i (fun b => b ^^^ BitVec.twoPow 8 k)

/-- The effects of a parsed packet at the router, as the tables of R66, R70 and R169 list them: a valid BLE_DATA packet
is delivered where a connection exists (R170), a valid CONTROL packet always (R171), a CRC failure is reported (R172),
and the rest has no effect (R173, R174). -/
def routeEffects (c : Config) (connected : Bool) : Packet → List Effect
  | .garbage => []
  | .crcFail _ _ => [.diag .crcError]
  | .ok _ payload .bleData => if connected then [.bleDeliver c.connIdx c.attrHandle payload] else []
  | .ok _ payload .control => [.ctrlDeliver payload]
  | .ok _ _ .none => []
  | .ok _ _ .ack => []
  | .ok _ _ .nak => []
  | .ok _ _ .ping => []

/-- What draining a queue comes to, said without any buffer (R145, R146): the errors of the requests that are dropped,
in order, and then the wire bytes of the first request that can be sent, with the requests behind it, if there is
one. -/
def queueOutcome (c : Config) : List PendingSend → List ErrorOutcome × Option (Bytes × List PendingSend)
  | [] => ([], none)
  | x :: rest =>
    match requestWire c x.type x.payload with
    | .ok W => ([], some (W, rest))
    | .error e => (e :: (queueOutcome c rest).1, (queueOutcome c rest).2)

/-- Instructions executed one after the other, stopping at the first fault or refusal. -/
def execAll : List Instr → State → Host.Outcome State Fault Refusal
  | [], s => .next s
  | i :: rest, s =>
    match exec i s with
    | .next t => execAll rest t
    | .fault f => .fault f
    | .refused r => .refused r

/-- Whether an operation belongs to the transmit side: one of `SEND`, `TX_COMPLETE`, `DRAIN`, `ENCODE` into `txbuf`, or
a type byte put to use for transmission (R28, R148). -/
def isTransmitSide : Instr → Bool
  | .send _ _ => true
  | .txComplete => true
  | .drain => true
  | .encode .txbuf _ _ => true
  | .typeAck (.transmit _) => true
  | .typeNak (.transmit _) => true
  | .typeBleData (.transmit _) => true
  | .typeControl (.transmit _) => true
  | .typePing (.transmit _) => true
  | .typeOther _ (.transmit _) => true
  | _ => false

/-- Whether an operation belongs to the receive side: received bytes and frames in any form, `DECODE_BYTE`, `DECODE`,
`BP_CHECK`, `ROUTE` and `TIMER_FIRE` (R28). -/
def isReceiveSide : Instr → Bool
  | .delim _ => true
  | .esc _ => true
  | .lit _ _ => true
  | .escPair7E _ => true
  | .escPair7D _ => true
  | .escPair02 _ => true
  | .escPairAny _ _ => true
  | .frameBody _ _ _ _ _ => true
  | .wireFrame _ _ => true
  | .rxReady _ _ _ _ => true
  | .timerFire => true
  | .decodeByte _ => true
  | .decode _ => true
  | .bpCheck _ _ => true
  | .route _ _ => true
  | .typeAck (.receive _ _) => true
  | .typeNak (.receive _ _) => true
  | .typeBleData (.receive _ _) => true
  | .typeControl (.receive _ _) => true
  | .typePing (.receive _ _) => true
  | .typeOther _ (.receive _ _) => true
  | _ => false

end Sys2Proof.Machine
end

