-- ==== Sys2Proof/Certificates/Slice0/Obligations.lean ====
section
/-! DEFINITION. The statements about the serial-link framer that the provers prove, file by file of the spec's rules.
A statement about an operation whose outcome depends on a parameter of R3 (a buffer capacity, the CRC) is made for
every configuration `c`, of the operation's meaning under `c`; the instruction is that meaning under `Config.impl`. -/

open Sys2Proof Sys2Proof.Machine

/-! ### The encoding of the instructions (30_encoding.md) -/

/-- Decoding what the encoder writes gives the instruction back, for every well-formed instruction and every
configuration (R60 to R63, R66, R78, R190; the script lines of internal operations are assumption 5). -/
def Obligations.DecodeEncodeAgree : Prop :=
  ∀ (c : Config) (i : Instr), i.wellFormed c = true → decode c (encode c i) = .ok i

/-- The other direction for the rows with bits: an 8-bit pattern is exactly one byte token, and a 16-bit pattern is an
escaped pair exactly when its first byte is the escape marker (R60, R61). -/
def Obligations.EveryBitPatternHasOneReading : Prop :=
  ∀ (c : Config) (conn : Bool) (w : Nat),
    (w < 256 → ∃ i, decodeBits 8 w conn = .ok i ∧ encode c i = .bits 8 w conn ∧
      (w = 0x7E ↔ i = .delim conn) ∧ (w = 0x7D ↔ i = .esc conn)) ∧
    (w < 65536 → w / 256 = 0x7D → ∃ i, decodeBits 16 w conn = .ok i ∧ encode c i = .bits 16 w conn) ∧
    (w < 65536 → w / 256 ≠ 0x7D → decodeBits 16 w conn = .error .notAnEscapedPair)

/-- A few words written out from the table: the six rows with fixed bits, a literal, a pair with another second byte,
and what is refused (R60, R61, R76; the connection flag is assumption 6). -/
def Obligations.WrittenWordsDecode : Prop :=
  decodeTableWord 8 0b01111110 = some (.delim true) ∧ decodeTableWord 8 0b01111101 = some (.esc true) ∧
  decodeTableWord 8 0b00000010 = some (.lit 0x02 true) ∧
  decodeTableWord 16 0b0111110101011110 = some (.escPair7E true) ∧
  decodeTableWord 16 0b0111110101011101 = some (.escPair7D true) ∧
  decodeTableWord 16 0b0111110100100010 = some (.escPair02 true) ∧
  decodeTableWord 16 0b0111110101000001 = some (.escPairAny 0x41 true) ∧
  decodeTableWord 16 0b0100000101011110 = none ∧ decodeTableWord 24 0x7D5E7E = none

/-- The size of a wire frame (R68): one wire byte for a body byte, two for one of the escape set. -/
def Obligations.WireFrameSize : Prop :=
  (∀ b : Byte, (escapeByte b).length = if b = 0x7E ∨ b = 0x7D ∨ b = 0x02 then 2 else 1) ∧
  (∀ F : Bytes, (wireOfBody F).length =
    2 + F.length + F.countP (fun b => decide (b = 0x7E ∨ b = 0x7D ∨ b = 0x02))) ∧
  (∀ (c : Config) (t : Byte) (p : Bytes),
    p.length + 7 ≤ (wireOf c t p).length ∧ (wireOf c t p).length ≤ 2 * p.length + 12 ∧
    (p.length = 64 → 71 ≤ (wireOf c t p).length ∧ (wireOf c t p).length ≤ 140))

/-! ### The encoder (40_frame_encode.md) -/

/-- `ESCAPE` (R90): its result, that it is injective, and that no result holds a delimiter or an STX. -/
def Obligations.EscapeResult : Prop :=
  (∀ (b : Byte) (s : State), exec (.escape b) s =
    .next { s with result := .bytes (if b = 0x7E ∨ b = 0x7D ∨ b = 0x02 then [0x7D, b ^^^ 0x20] else [b]) }) ∧
  (∀ (a b : Byte) (s t : State), exec (.escape a) s = .next t → exec (.escape b) s = .next t → a = b) ∧
  (∀ (b : Byte) (s t : State) (bs : Bytes), exec (.escape b) s = .next t → t.result = .bytes bs →
    (0x7E : Byte) ∉ bs ∧ (0x02 : Byte) ∉ bs)

/-- `ENCODE` into a buffer of the caller (R91, R92, R93): the six steps' bytes behind the content where they fit; where
they do not, `CapacityExceeded` and the content as it was. The block's own state is not touched. -/
def Obligations.EncodeIntoCallersBuffer : Prop :=
  ∀ (content : Bytes) (cap : Nat) (t : Byte) (p : Bytes) (s : State), content.length ≤ cap → p.length ≤ 65535 →
    let L : Word16 := BitVec.ofNat 16 p.length
    let C : Word16 := Config.impl.crc16 ([t, lo8 L, hi8 L] ++ p)
    let W : Bytes := [0x7E] ++ escapeByte t ++ escapeByte (lo8 L) ++ escapeByte (hi8 L) ++ p.flatMap escapeByte ++
      escapeByte (lo8 C) ++ escapeByte (hi8 C) ++ [0x7E]
    exec (.encode (.given content cap) t p) s =
      .next { s with result := (if content.length + W.length ≤ cap then .encoded .done (content ++ W)
        else .encoded .capacityExceeded content) }

/-- `ENCODE` into the transmit buffer while it is free (R91, R92, R93), for every configuration: the wire frame behind
the `txlen` bytes it holds, or, where it does not fit, the same valid content and `txlen` as before. Only indices from
`txlen` up to the capacity are stored to, and nothing else changes. While the buffer is transmitted (R255) the model
refuses by name (assumption 8). -/
def Obligations.EncodeIntoTransmitBuffer : Prop :=
  (∀ (t : Byte) (p : Bytes) (s : State), exec (.encode .txbuf t p) s = encodeStep Config.impl .txbuf t p s) ∧
  (∀ (t : Byte) (p : Bytes) (s : State), s.txState = .busy → p.length ≤ 65535 →
    exec (.encode .txbuf t p) s = .refused .txbufInUse) ∧
  ∀ (c : Config) (t : Byte) (p : Bytes) (s : State), TxInv c s → s.txState = .ready → p.length ≤ 65535 →
    ∃ (content : Bytes) (u : State), Memory.load s.txbuf 0 s.txlen = some content ∧
      encodeStep c .txbuf t p s = .next u ∧
      (if s.txlen + (wireOf c t p).length ≤ c.txBufCap then
        u.result = .encoded .done (content ++ wireOf c t p) ∧ u.txlen = s.txlen + (wireOf c t p).length ∧
          Memory.load u.txbuf 0 u.txlen = some (content ++ wireOf c t p)
      else u.result = .encoded .capacityExceeded content ∧ u.txlen = s.txlen) ∧
      (∀ i, i < s.txlen ∨ c.txBufCap ≤ i → Memory.read u.txbuf i = Memory.read s.txbuf i) ∧
      u = { s with txbuf := u.txbuf, txlen := u.txlen, result := u.result }

/-- What the encoder appends (R94), behind what either kind of destination holds: delimiters first and last and nowhere
else, no STX, every escape marker followed by one of the three second bytes, and the frame body between the delimiters
once the pairs are undone. -/
def Obligations.EncoderOutputShape : Prop :=
  ∀ (d : EncodeDest) (t : Byte) (p : Bytes) (s u : State) (out : Bytes),
    exec (.encode d t p) s = .next u → u.result = .encoded .done out →
    ∃ content inner : Bytes, (d = .txbuf → Memory.load s.txbuf 0 s.txlen = some content) ∧
      (∀ held cap, d = .given held cap → content = held) ∧
      out = content ++ ([0x7E] ++ inner ++ [0x7E]) ∧ (0x7E : Byte) ∉ inner ∧ (0x02 : Byte) ∉ inner ∧
      (∀ i : Nat, inner[i]? = some (0x7D : Byte) →
        inner[i + 1]? = some (0x5E : Byte) ∨ inner[i + 1]? = some (0x5D : Byte) ∨ inner[i + 1]? = some (0x22 : Byte)) ∧
      unescape inner = some (bodyOf Config.impl t p)

/-- The round trip (R95): a wire frame of the encoder, fed to the decoder in any pieces, is exactly one frame, at its
last byte, which the parser accepts with the same type and payload; the decoder is back in `WAIT`. -/
def Obligations.EncodedFrameRoundTrip : Prop :=
  ∀ (c : Config) (t : Byte) (p : Bytes) (s : State) (pieces : List Bytes), p.length ≤ 65535 →
    p.length + 5 ≤ c.rxFrameCap → s.decMode = .wait → s.flen = 0 →
    ((∃ b rest, wireOf c t p = pieces.flatten ++ b :: rest) →
      ∃ u, drivePieces c pieces s = .ok ([], u)) ∧
    (pieces.flatten = wireOf c t p →
      ∃ F u, drivePieces c pieces s = .ok ([.frame F], u) ∧ u.decMode = .wait ∧ u.flen = 0 ∧
        F = bodyOf c t p ∧ parseBody c F = .ok t p (classifyByte c t))

/-! ### The decoder (41_frame_decode.md) -/

/-- `DECODE_BYTE`, the whole transition table (R100 to R106, R110): `WAIT` ignores all but a delimiter; in `IN_FRAME` a
delimiter completes a frame of 3 bytes or more or is a false start, the marker changes the mode alone, and any other
byte, `0x02` among them, is appended; in `ESCAPED` every byte is masked and appended. An append stores at index `flen`
and nowhere else, or overflows a full buffer. -/
def Obligations.DecodeByteTransitionTable : Prop :=
  ∀ (b : Byte) (s : State), RxInv Config.impl s →
    ∃ (F : Bytes) (m : Memory), F.length = s.flen ∧ (∀ i, i < s.flen → Memory.read s.fbuf i = F[i]?) ∧
      (∀ i, Memory.read m i =
        if i = s.flen then some (if s.decMode = .escaped then b ^^^ 0x20 else b) else Memory.read s.fbuf i) ∧
      exec (.decodeByte b) s = .next (match s.decMode with
        | .wait => { s with decMode := if b = 0x7E then .inFrame else .wait, result := .byteStep .more }
        | .inFrame =>
          if b = 0x7E then
            if 3 ≤ s.flen then { s with flen := 0, decMode := .wait, result := .byteStep (.frame F) }
            else { s with flen := 0, result := .byteStep .more }
          else if b = 0x7D then { s with decMode := .escaped, result := .byteStep .more }
          else if s.flen = Config.impl.rxFrameCap then
            { s with flen := 0, decMode := .wait, result := .byteStep .overflow }
          else { s with fbuf := m, flen := s.flen + 1, result := .byteStep .more }
        | .escaped =>
          if s.flen = Config.impl.rxFrameCap then
            { s with flen := 0, decMode := .wait, result := .byteStep .overflow }
          else { s with fbuf := m, flen := s.flen + 1, decMode := .inFrame, result := .byteStep .more })

/-- `DECODE` is the fold of `DECODE_BYTE` that stops at the first frame or overflow and counts the bytes it took
(R107), in four clauses: no input; a first byte that completes a frame; one that overflows; one that does neither. -/
def Obligations.DecodeFoldsDecodeByte : Prop :=
  (∀ s : State, exec (.decode []) s = .next { s with result := .decoded .needMore 0 }) ∧
  (∀ (b : Byte) (rest F : Bytes) (s t : State), exec (.decodeByte b) s = .next t →
    t.result = .byteStep (.frame F) →
    exec (.decode (b :: rest)) s = .next { t with result := .decoded (.frame F) 1 }) ∧
  (∀ (b : Byte) (rest : Bytes) (s t : State), exec (.decodeByte b) s = .next t →
    t.result = .byteStep .overflow →
    exec (.decode (b :: rest)) s = .next { t with result := .decoded .overflow 1 }) ∧
  (∀ (b : Byte) (rest : Bytes) (s t u : State) (r : DecodeResult) (n : Nat), exec (.decodeByte b) s = .next t →
    t.result = .byteStep .more → exec (.decode rest) t = .next u → u.result = .decoded r n →
    exec (.decode (b :: rest)) s = .next { u with result := .decoded r (n + 1) })

/-- `DECODE` completes from every state that meets the decoder's invariants (R107, R108, R109): it takes at least one
byte of a non-empty input, all of it when it needs more, delivers a frame of 3 to `RX_FRAME_CAP` bytes, keeps the
invariants, and changes nothing but the decoder's state. -/
def Obligations.DecodeCompletes : Prop :=
  ∀ (input : Bytes) (s : State), RxInv Config.impl s →
    ∃ (u : State) (r : DecodeResult) (n : Nat), exec (.decode input) s = .next u ∧ u.result = .decoded r n ∧
      n ≤ input.length ∧ (input ≠ [] → 1 ≤ n) ∧ (r = .needMore → n = input.length) ∧
      (∀ F, r = .frame F → 3 ≤ F.length ∧ F.length ≤ Config.impl.rxFrameCap) ∧
      (r = .overflow → u.decMode = .wait ∧ u.flen = 0) ∧ RxInv Config.impl u ∧
      u = { s with decMode := u.decMode, fbuf := u.fbuf, flen := u.flen, result := u.result }

/-- Fragmentation invariance (R111): however a byte sequence is cut, the frames and overflows and the final state are
those of the whole. -/
def Obligations.FragmentationInvariance : Prop :=
  ∀ (c : Config) (pieces : List Bytes) (s : State), drivePieces c pieces s = drivePieces c [pieces.flatten] s

/-! ### The wire rows: bytes received on the serial line -/

/-- A delimiter received (R60, R101, R103, R104, R106), in each mode: a start; a complete frame, routed; a false start;
a data byte `0x5E`. That the row is a notification of its own with memory far under the threshold, so that R160's check
lets the byte through, is the model's choice (assumption 6: R79's `FEED1`). -/
def Obligations.DelimiterReceived : Prop :=
  ∀ (conn : Bool) (s : State), Inv Config.impl s →
    ∃ (F : Bytes) (m : Memory), F.length = s.flen ∧ (∀ i, i < s.flen → Memory.read s.fbuf i = F[i]?) ∧
      (∀ i, Memory.read m i = if i = s.flen then some 0x5E else Memory.read s.fbuf i) ∧
      exec (.delim conn) s = .next (match s.decMode with
        | .wait => { s with decMode := .inFrame, result := .none }
        | .inFrame =>
          if 3 ≤ s.flen then
            { s with flen := 0, decMode := .wait, result := .none,
                     trace := s.trace ++ routeEffects Config.impl conn (parseBody Config.impl F) }
          else { s with flen := 0, result := .none }
        | .escaped =>
          if s.flen = Config.impl.rxFrameCap then
            { s with flen := 0, decMode := .wait, trace := s.trace ++ [.diag .rxOverflow], result := .none }
          else { s with fbuf := m, flen := s.flen + 1, decMode := .inFrame, result := .none })

/-- An escape marker received (R60, R101, R102, R106), in each mode: ignored; the mode changes; a data byte `0x5D`. That
the row is an under-threshold notification of its own is the model's choice (assumption 6). -/
def Obligations.EscapeMarkerReceived : Prop :=
  ∀ (conn : Bool) (s : State), Inv Config.impl s →
    ∃ m : Memory, (∀ i, Memory.read m i = if i = s.flen then some 0x5D else Memory.read s.fbuf i) ∧
      exec (.esc conn) s = .next (match s.decMode with
        | .wait => { s with result := .none }
        | .inFrame => { s with decMode := .escaped, result := .none }
        | .escaped =>
          if s.flen = Config.impl.rxFrameCap then
            { s with flen := 0, decMode := .wait, trace := s.trace ++ [.diag .rxOverflow], result := .none }
          else { s with fbuf := m, flen := s.flen + 1, decMode := .inFrame, result := .none })

/-- A literal received (R60, R101, R105, R106, R110, R168), in each mode: ignored; appended; appended with the mask. On
a full buffer the frame is lost with a report. That the row is an under-threshold notification of its own is the model's
choice (assumption 6). -/
def Obligations.LiteralReceived : Prop :=
  ∀ (b : Byte) (conn : Bool) (s : State), Inv Config.impl s → b ≠ 0x7E → b ≠ 0x7D →
    ∃ m : Memory, (∀ i, Memory.read m i =
        if i = s.flen then some (if s.decMode = .escaped then b ^^^ 0x20 else b) else Memory.read s.fbuf i) ∧
      exec (.lit b conn) s = .next (if s.decMode = .wait then { s with result := .none }
        else if s.flen = Config.impl.rxFrameCap then
          { s with flen := 0, decMode := .wait, trace := s.trace ++ [.diag .rxOverflow], result := .none }
        else { s with fbuf := m, flen := s.flen + 1, decMode := .inFrame, result := .none })

/-- An escaped pair received (R61, R106): inside a frame each of the four rows appends the body byte its pair stands for,
or overflows a full buffer at its second byte; in every mode a pair is its two bytes received one after the other. That
the row is two under-threshold notifications, the marker first, is the model's (assumption 6). -/
def Obligations.EscapedPairReceived : Prop :=
  (∀ (i : Instr) (v : Byte) (conn : Bool) (s : State), Inv Config.impl s → s.decMode = .inFrame →
    (i = .escPair7E conn ∧ v = 0x7E ∨ i = .escPair7D conn ∧ v = 0x7D ∨ i = .escPair02 conn ∧ v = 0x02 ∨
      ∃ x : Byte, i = .escPairAny x conn ∧ v = x ^^^ 0x20) →
    ∃ m : Memory, (∀ j, Memory.read m j = if j = s.flen then some v else Memory.read s.fbuf j) ∧
      exec i s = .next (if s.flen = Config.impl.rxFrameCap then
          { s with flen := 0, decMode := .wait, trace := s.trace ++ [.diag .rxOverflow], result := .none }
        else { s with fbuf := m, flen := s.flen + 1, result := .none })) ∧
  ∀ (conn : Bool) (s t : State), exec (.esc conn) s = .next t →
    exec (.escPair7E conn) s = exec (.lit 0x5E conn) t ∧ exec (.escPair7D conn) s = exec (.lit 0x5D conn) t ∧
    exec (.escPair02 conn) s = exec (.lit 0x22 conn) t ∧
    ∀ x : Byte, exec (.escPairAny x conn) s =
      exec (if x = 0x7E then .delim conn else if x = 0x7D then .esc conn else .lit x conn) t

/-- A whole wire frame received (R62, R103, R160). In every mode it is its bytes received one after the other, each the
row of its token. In mode `WAIT`, with a body that fits the frame buffer, its body is parsed and routed, and the decoder
is back in `WAIT`; only the indices of the body are stored to. That the row is one under-threshold notification a byte is
the model's choice (assumption 6). -/
def Obligations.WireFrameReceived : Prop :=
  (∀ (body : Bytes) (conn : Bool) (s : State), exec (.wireFrame body conn) s =
    execAll ((wireOfBody body).map (fun b =>
      if b = 0x7E then .delim conn else if b = 0x7D then .esc conn else .lit b conn)) s) ∧
  ∀ (body : Bytes) (conn : Bool) (s : State), Inv Config.impl s → s.decMode = .wait → 3 ≤ body.length →
    body.length ≤ Config.impl.rxFrameCap →
    ∃ m : Memory, (∀ i, Memory.read m i = if i < body.length then body[i]? else Memory.read s.fbuf i) ∧
      exec (.wireFrame body conn) s = .next { s with
        fbuf := m,
        trace := s.trace ++ routeEffects Config.impl conn (parseBody Config.impl body),
        result := .none }

/-- Overflow and resynchronisation (R105, R168): a wire frame whose body is too long for the frame buffer gives one
report and nothing else, and the wire frame after it is received normally; the valve is not touched. That the row is one
under-threshold notification a byte is the model's choice (assumption 6). -/
def Obligations.OversizedFrameThenResynchronised : Prop :=
  ∀ (big body : Bytes) (conn : Bool) (s : State), Inv Config.impl s → s.decMode = .wait →
    Config.impl.rxFrameCap < big.length → 3 ≤ body.length → body.length ≤ Config.impl.rxFrameCap →
    ∃ u v : State, exec (.wireFrame big conn) s = .next u ∧ u.trace = s.trace ++ [.diag .rxOverflow] ∧
      u.decMode = .inFrame ∧ u.flen = 0 ∧ sameTx s u ∧ sameRest s u ∧ u.rxIrqEn = s.rxIrqEn ∧
      u.rxTimerArmed = s.rxTimerArmed ∧
      exec (.wireFrame body conn) u = .next v ∧
      v.trace = s.trace ++ [.diag .rxOverflow] ++ routeEffects Config.impl conn (parseBody Config.impl body) ∧
      v.decMode = .wait ∧ v.flen = 0 ∧ sameTx s v ∧ sameRest s v ∧ v.rxIrqEn = s.rxIrqEn ∧
      v.rxTimerArmed = s.rxTimerArmed

/-! ### The parser (42_packet_parse.md) -/

/-- The length check of `PARSE` (R122), in numbers: `Garbage` exactly when it fails. -/
def Obligations.ParseLengthCheck : Prop :=
  ∀ (F : Bytes) (s : State), ∃ pkt, exec (.parse F) s = .next { s with result := .packet pkt } ∧
    (pkt = .garbage ↔
      ¬ (5 ≤ F.length ∧ F.length = (byteAt F 1).toNat + 256 * (byteAt F 2).toNat + 5))

/-- `PARSE` of a body laid out as R63 says with the declared length right (R121, R123, R124): the CRC decides between
`Ok` with the class of the type byte and `CrcFail`. -/
def Obligations.ParseOfALaidOutBody : Prop :=
  ∀ (t : Byte) (len : Word16) (p : Bytes) (crc : Word16) (s : State), p.length = len.toNat →
    exec (.parse ([t, lo8 len, hi8 len] ++ p ++ [lo8 crc, hi8 crc])) s =
      .next { s with result := .packet (if Config.impl.crc16 ([t, lo8 len, hi8 len] ++ p) = crc
        then .ok t p (classifyByte Config.impl t) else .crcFail t p) }

/-- `CRC16` (R120) is the configuration function; `CLASSIFY` (R124): each of the five type bytes has its class, and every
other byte is `NONE`. -/
def Obligations.CrcAndClassify : Prop :=
  (∀ (bs : Bytes) (s : State), exec (.crc16 bs) s = .next { s with result := .word (Config.impl.crc16 bs) }) ∧
  (∀ s : State, exec (.classify (Config.impl.typeByte .ack)) s = .next { s with result := .cls .ack } ∧
    exec (.classify (Config.impl.typeByte .nak)) s = .next { s with result := .cls .nak } ∧
    exec (.classify (Config.impl.typeByte .bleData)) s = .next { s with result := .cls .bleData } ∧
    exec (.classify (Config.impl.typeByte .control)) s = .next { s with result := .cls .control } ∧
    exec (.classify (Config.impl.typeByte .ping)) s = .next { s with result := .cls .ping }) ∧
  (∀ (t : Byte) (s : State), (∀ ty, t ≠ Config.impl.typeByte ty) →
    exec (.classify t) s = .next { s with result := .cls .none })

/-- One bit of a frame body changed (R127, the parser's part of case A): in the length field it makes the length check
fail; elsewhere it makes the CRC check fail, provided the CRC of this body's header and payload detects the change. -/
def Obligations.SingleBitFlipIsDetected : Prop :=
  ∀ (c : Config) (t : Byte) (p : Bytes) (i k : Nat), p.length ≤ 65535 → i < p.length + 5 → k < 8 →
    (i = 1 ∨ i = 2 → parseBody c (flipBit (bodyOf c t p) i k) = .garbage) ∧
    (i ≠ 1 → i ≠ 2 →
      (i < p.length + 3 → c.crc16 (flipBit (frameHeader t (lengthField p) ++ p) i k) ≠
        c.crc16 (frameHeader t (lengthField p) ++ p)) →
      ∃ t' p', parseBody c (flipBit (bodyOf c t p) i k) = .crcFail t' p')

/-- `FRAME_BODY`: a frame body handed to the parser and the router (R63, R121, R123, R160, R169). That this row by itself
is `PARSE` and then `ROUTE`, with the packet as the result, and that it starts behind the decoder, so that a body longer
than `RX_FRAME_CAP` is parsed and routed too (which R105 never delivers), is the model's choice (assumption 9). -/
def Obligations.FrameBodyParsedAndRouted : Prop :=
  ∀ (t : Byte) (len : Word16) (p : Bytes) (crc : Word16) (conn : Bool) (s : State), p.length = len.toNat →
    let pkt : Packet := if Config.impl.crc16 ([t, lo8 len, hi8 len] ++ p) = crc
      then .ok t p (classifyByte Config.impl t) else .crcFail t p
    exec (.frameBody t len p crc conn) s =
      .next { s with trace := s.trace ++ routeEffects Config.impl conn pkt, result := .packet pkt }

/-! ### The router and the valve (44_rx_router.md) -/

/-- `ROUTE` (R169): each of the eight cases, its effect and nothing else. -/
def Obligations.RouteByClass : Prop :=
  ∀ (conn : Bool) (t : Byte) (p : Bytes) (s : State),
    exec (.route (.ok t p .bleData) conn) s = .next { s with
      result := .none,
      trace := s.trace ++
        (if conn then [.bleDeliver Config.impl.connIdx Config.impl.attrHandle p] else []) } ∧
    exec (.route (.ok t p .control) conn) s = .next { s with result := .none, trace := s.trace ++ [.ctrlDeliver p] } ∧
    exec (.route (.crcFail t p) conn) s =
      .next { s with result := .none, trace := s.trace ++ [.diag .crcError] } ∧
    exec (.route .garbage conn) s = .next { s with result := .none } ∧
    exec (.route (.ok t p .none) conn) s = .next { s with result := .none } ∧
    exec (.route (.ok t p .ack) conn) s = .next { s with result := .none } ∧
    exec (.route (.ok t p .nak) conn) s = .next { s with result := .none } ∧
    exec (.route (.ok t p .ping) conn) s = .next { s with result := .none }

/-- The valve. `BP_CHECK` (R162, R163): over the threshold it closes and the timer is armed unless it is armed; under
it nothing is written. `TIMER_FIRE` (R166): an armed timer opens the valve; with none armed nothing happens. -/
def Obligations.BackpressureValve : Prop :=
  (∀ (used max : Nat) (s : State), exec (.bpCheck used max) s =
    .next (if max * 9 ≤ used * 10 then
        { s with rxIrqEn := false, rxTimerArmed := true, result := .valve .over,
                 trace := s.trace ++ (if s.rxTimerArmed then [] else [.timerArm Config.impl.rxReenableDelay]) }
      else { s with result := .valve .under })) ∧
  (∀ s : State, exec .timerFire s =
    .next (if s.rxTimerArmed then { s with rxTimerArmed := false, rxIrqEn := true, result := .none }
      else { s with result := .none }))

/-- The timer is never armed twice (R163, R175 (b), R259). Each operation arms it at most once, only when it is not armed,
and leaves it armed; no other way leads to an armed timer, and only `TIMER_FIRE` and `RESET` disarm it. So, over any
operations without a `RESET`, there is at most one `TimerArm` between two `TIMER_FIRE`s, and none at all while the timer
is armed already. (A `RESET` disarms the timer without its firing, so that two `TimerArm`s can stand around one.) -/
def Obligations.TimerArmedAtMostOnce : Prop :=
  (∀ (i : Instr) (s t : State), exec i s = .next t →
    ∃ new : List Effect, t.trace = s.trace ++ new ∧
      (new.countP Effect.isTimerArm = 0 ∨
        new.countP Effect.isTimerArm = 1 ∧ s.rxTimerArmed = false ∧ t.rxTimerArmed = true) ∧
      (new.countP Effect.isTimerArm = 0 → t.rxTimerArmed = true → s.rxTimerArmed = true) ∧
      (s.rxTimerArmed = true → t.rxTimerArmed = false → i = .timerFire ∨ i = .reset)) ∧
  ∀ (ops : List Instr) (s t : State), Instr.timerFire ∉ ops → Instr.reset ∉ ops → execAll ops s = .next t →
    ∃ new : List Effect, t.trace = s.trace ++ new ∧ new.countP Effect.isTimerArm ≤ 1 ∧
      (s.rxTimerArmed = true → new.countP Effect.isTimerArm = 0)

/-- An over-threshold `RX_READY` (R160, R163, R164): its bytes are lost, the decoder is as it was, the valve closes. The
scratch buffer is dead afterwards (R21; assumption 2). -/
def Obligations.OverThresholdBytesAreLost : Prop :=
  ∀ (bs : Bytes) (used max : Nat) (conn : Bool) (s : State), bs.length ≤ Config.impl.rxScratchCap →
    max * 9 ≤ used * 10 → exec (.rxReady bs used max conn) s =
      .next { s with scratch := [], rxIrqEn := false, rxTimerArmed := true, result := .none,
                     trace := s.trace ++ (if s.rxTimerArmed then [] else [.timerArm Config.impl.rxReenableDelay]) }

/-- An under-threshold `RX_READY` completes from every state that meets the decoder's invariants (R160, R163, R176): it
changes the decoder's state and adds effects that neither transmit nor arm the timer; with no bytes it does nothing,
and with one byte it is that byte's row. That the scratch buffer has nothing listed afterwards (assumption 2) and that a
byte's row is an under-threshold notification (assumption 6) are the model's choices. -/
def Obligations.UnderThresholdReceiveCompletes : Prop :=
  ∀ (bs : Bytes) (used max : Nat) (conn : Bool) (s : State), RxInv Config.impl s →
    bs.length ≤ Config.impl.rxScratchCap → used * 10 < max * 9 →
    ∃ (u : State) (new : List Effect), exec (.rxReady bs used max conn) s = .next u ∧ RxInv Config.impl u ∧
      u = { s with decMode := u.decMode, fbuf := u.fbuf, flen := u.flen, scratch := [],
                   trace := s.trace ++ new, result := .none } ∧
      (∀ e ∈ new, e.isUartTx = false ∧ e.isTimerArm = false) ∧
      (bs = [] → u = { s with scratch := [], result := .none }) ∧
      (∀ b, bs = [b] → exec (.rxReady bs used max conn) s =
        exec (if b = 0x7E then .delim conn else if b = 0x7D then .esc conn else .lit b conn) s)

/-- A burst of whole wire frames in one notification (R160, R167, R176): every frame is routed, in order, and the
decoder is back in `WAIT`. -/
def Obligations.BurstOfFramesIsRoutedInOrder : Prop :=
  (∀ (bs : Bytes) (used max : Nat) (conn : Bool) (s : State),
    exec (.rxReady bs used max conn) s = rxReadyStep Config.impl bs used max conn s) ∧
  ∀ (c : Config) (bodies : List Bytes) (used max : Nat) (conn : Bool) (s : State), s.decMode = .wait → s.flen = 0 →
    used * 10 < max * 9 → (∀ F ∈ bodies, 3 ≤ F.length ∧ F.length ≤ c.rxFrameCap) →
    (bodies.flatMap wireOfBody).length ≤ c.rxScratchCap →
    ∃ u : State, rxReadyStep c (bodies.flatMap wireOfBody) used max conn s = .next u ∧
      u.trace = s.trace ++ bodies.flatMap (fun F => routeEffects c conn (parseBody c F)) ∧
      u.decMode = .wait ∧ u.flen = 0 ∧ sameTx s u ∧ sameRest s u ∧ u.rxIrqEn = s.rxIrqEn ∧
      u.rxTimerArmed = s.rxTimerArmed

/-- Splitting what is received over several notifications under the threshold changes nothing (R107, R111, R160,
R177). -/
def Obligations.ReceiveSplitsAnywhere : Prop :=
  (∀ (bs : Bytes) (used max : Nat) (conn : Bool) (s : State),
    exec (.rxReady bs used max conn) s = rxReadyStep Config.impl bs used max conn s) ∧
  ∀ (c : Config) (xs ys : Bytes) (used max : Nat) (conn : Bool) (s t : State), used * 10 < max * 9 →
    (xs ++ ys).length ≤ c.rxScratchCap → rxReadyStep c xs used max conn s = .next t →
    rxReadyStep c (xs ++ ys) used max conn s = rxReadyStep c ys used max conn t

/-- `RX_READY` does the same whatever the value of `rx_irq_en` (R161). -/
def Obligations.ReceiveIgnoresTheEnable : Prop :=
  ∀ (bs : Bytes) (used max : Nat) (conn v : Bool) (s t : State), exec (.rxReady bs used max conn) s = .next t →
    exec (.rxReady bs used max conn) { s with rxIrqEn := v } =
      .next { t with rxIrqEn := if max * 9 ≤ used * 10 then false else v }

/-! ### The transmitter (43_tx_controller.md) -/

/-- `SEND` of a CONTROL or BLE_DATA request in `READY`, and of any other (R135 to R141), for every configuration: all
its frames in one transmission, or refused with an empty transmit buffer, for the first of the reasons type, BLE length
and capacity (R224). Only indices below the capacity are stored to, and below the transmission's length where it is
sent. -/
def Obligations.SendWhenReady : Prop :=
  (∀ (t : Byte) (p : Bytes) (s : State), exec (.send t p) s = sendStep Config.impl t p s) ∧
  ∀ (c : Config) (t : Byte) (p : Bytes) (s : State), p.length ≤ 65535 → s.txState = .ready →
    ∃ m : Memory, (∀ i, c.txBufCap ≤ i → Memory.read m i = Memory.read s.txbuf i) ∧
      (∀ W, requestWire c t p = .ok W → W.length ≤ c.txBufCap ∧
        ∀ i, Memory.read m i = if i < W.length then W[i]? else Memory.read s.txbuf i) ∧
      sendStep c t p s = .next (match requestWire c t p with
        | .ok W => { s with txbuf := m, txlen := W.length, txState := .busy,
                            trace := s.trace ++ [.uartTx W], result := .sent }
        | .error e => { s with txbuf := m, txlen := 0, result := .refused e })

/-- `SEND` in `READY` of a type that is not transmitted (R136, R216), and of BLE_DATA whose length is zero or no
multiple of 64 (R140, R217): refused, nothing transmitted, `txlen` zero. -/
def Obligations.SendRefusesTypesAndLengths : Prop :=
  ∀ (t : Byte) (p : Bytes) (s : State), p.length ≤ 65535 → s.txState = .ready →
    (t ≠ Config.impl.typeByte .control → t ≠ Config.impl.typeByte .bleData →
      exec (.send t p) s = .next { s with txlen := 0, result := .refused .invalidType }) ∧
    (p.length = 0 ∨ p.length % 64 ≠ 0 →
      exec (.send (Config.impl.typeByte .bleData) p) s =
        .next { s with txlen := 0, result := .refused .badLength })

/-- The chunks of a BLE_DATA request (R69 (a), R139): `k` pieces of 64 bytes, chunk `i` from index `64*i`, that make up
the payload in order. -/
def Obligations.BleDataChunks : Prop :=
  ∀ (p : Bytes) (k : Nat), p.length = 64 * k → (chunks p).length = k ∧ (chunks p).flatten = p ∧
    ∀ i, i < k → ∃ q, (chunks p)[i]? = some q ∧ q.length = 64 ∧ ∀ j, j < 64 → q[j]? = p[64 * i + j]?

/-- `SEND` in `BUSY` (R142, R143, R218), for every configuration: queued unexamined, or refused where the queue is
full; the transmission in progress is not touched. -/
def Obligations.SendWhenBusyQueues : Prop :=
  (∀ (t : Byte) (p : Bytes) (s : State), exec (.send t p) s = sendStep Config.impl t p s) ∧
  ∀ (c : Config) (t : Byte) (p : Bytes) (s : State), p.length ≤ 65535 → s.txState = .busy →
    sendStep c t p s = .next (if c.txqDepth = some s.txq.length then { s with result := .refused .queueFull }
      else { s with txq := s.txq ++ [⟨t, p⟩], result := .queued })

/-- `TX_COMPLETE`, and `DRAIN` in `READY` (R144, R145, R146), for every configuration: the requests that cannot be sent
are dropped with a report each, in order, up to the first that can, which is sent; the rest wait. -/
def Obligations.TransmitCompleteDrainsInOrder : Prop :=
  (∀ s : State, exec .txComplete s = txCompleteStep Config.impl s ∧ exec .drain s = drainStep Config.impl s) ∧
  ∀ (c : Config) (s : State), ∃ t : State, txCompleteStep c s = .next t ∧
    (s.txState = .ready → drainStep c s = .next t) ∧ t.result = .none ∧ sameRx s t ∧ sameRest s t ∧
    (match queueOutcome c s.txq with
      | (es, none) => t.txState = .ready ∧ t.txq = [] ∧ t.txlen = (if s.txq = [] then s.txlen else 0) ∧
          t.trace = s.trace ++ es.map (fun e => Effect.diag (.txDropped e))
      | (es, some (W, rest)) => t.txState = .busy ∧ t.txq = rest ∧ t.txlen = W.length ∧
          Memory.load t.txbuf 0 t.txlen = some W ∧
          t.trace = s.trace ++ es.map (fun e => Effect.diag (.txDropped e)) ++ [.uartTx W]) ∧
    (∀ i, c.txBufCap ≤ i → Memory.read t.txbuf i = Memory.read s.txbuf i)

/-- With an empty queue `TX_COMPLETE` only makes the transmitter `READY`, a spurious one changes nothing (R147), and
`DRAIN` does nothing with an empty queue or in `BUSY` (R145). -/
def Obligations.NothingToDrain : Prop :=
  (∀ s : State, s.txq = [] → exec .txComplete s = .next { s with txState := .ready, result := .none }) ∧
  (∀ s : State, Inv Config.impl s → s.txState = .ready → exec .txComplete s = .next { s with result := .none }) ∧
  (∀ s : State, s.txState = .busy ∨ s.txq = [] → exec .drain s = .next { s with result := .none })

/-- `txbuf` is never written while `tx_state = BUSY` (R255): only the completion of the transmission, or a reset, ends
that. -/
def Obligations.BusyProtectsTheTransmitBuffer : Prop :=
  ∀ (i : Instr) (s t : State), s.txState = .busy → i ≠ .txComplete → i ≠ .reset → exec i s = .next t →
    t.txbuf = s.txbuf ∧ t.txlen = s.txlen ∧ t.txState = .busy

/-- At most one transmission is outstanding (R149 (a), (b), R150): an operation submits at most one, none while one is in
progress, only on the transmit side, and the transmitter is then `BUSY`. -/
def Obligations.OneTransmissionAtATime : Prop :=
  ∀ (i : Instr) (s t : State), exec i s = .next t → i ≠ .reset →
    ∃ new : List Effect, t.trace = s.trace ++ new ∧ new.countP Effect.isUartTx ≤ 1 ∧
      (s.txState = .busy → i ≠ .txComplete → new.countP Effect.isUartTx = 0 ∧ t.txState = .busy) ∧
      (s.txState = .ready ∨ i = .txComplete → (t.txState = .busy ↔ new.countP Effect.isUartTx = 1)) ∧
      (isTransmitSide i = false → new.countP Effect.isUartTx = 0)

/-- Every transmission is one or more complete wire frames of the encoder (R137, R149 (c)), for every configuration:
whatever a `SEND`, a `TX_COMPLETE` or a `DRAIN` submits, from any state. -/
def Obligations.EveryTransmissionIsWholeFrames : Prop :=
  (∀ (t : Byte) (p : Bytes) (s : State), exec (.send t p) s = sendStep Config.impl t p s ∧
    exec .txComplete s = txCompleteStep Config.impl s ∧ exec .drain s = drainStep Config.impl s ∧
    exec (.typeControl (.transmit p)) s = sendStep Config.impl (Config.impl.typeByte .control) p s ∧
    exec (.typeBleData (.transmit p)) s = sendStep Config.impl (Config.impl.typeByte .bleData) p s) ∧
  ∀ (c : Config) (s t : State) (new : List Effect) (W : Bytes),
    (txCompleteStep c s = .next t ∨ drainStep c s = .next t ∨ ∃ ty p, sendStep c ty p s = .next t) →
    t.trace = s.trace ++ new → Effect.uartTx W ∈ new →
    ∃ frames : List (Byte × Bytes), frames ≠ [] ∧ W = frames.flatMap (fun x => wireOf c x.1 x.2)

/-- The two sides share no state (R28): no operation of the receive side touches the transmit side, and the other way
round, and neither touches the phase. -/
def Obligations.TheTwoSidesShareNothing : Prop :=
  ∀ (i : Instr) (s t : State), exec i s = .next t →
    (isReceiveSide i = true → sameTx s t ∧ sameRest s t) ∧ (isTransmitSide i = true → sameRx s t ∧ sameRest s t)

/-! ### The type-byte rows (R66) -/

/-- A packet of each type received (R66, R170, R171, R173, R174). That a received type-byte row starts behind the decoder,
so that a packet whose body is longer than `RX_FRAME_CAP` is routed too (which R70 and R105 never deliver), is the
model's choice (assumption 9). -/
def Obligations.EachTypeReceived : Prop :=
  ∀ (p : Bytes) (conn : Bool) (t : Byte) (s : State), p.length ≤ 65535 →
    exec (.typeAck (.receive p conn)) s = .next { s with result := .none } ∧
    exec (.typeNak (.receive p conn)) s = .next { s with result := .none } ∧
    exec (.typePing (.receive p conn)) s = .next { s with result := .none } ∧
    exec (.typeBleData (.receive p conn)) s = .next { s with
      result := .none,
      trace := s.trace ++
        (if conn then [.bleDeliver Config.impl.connIdx Config.impl.attrHandle p] else []) } ∧
    exec (.typeControl (.receive p conn)) s =
      .next { s with result := .none, trace := s.trace ++ [.ctrlDeliver p] } ∧
    ((∀ ty, t ≠ Config.impl.typeByte ty) →
      exec (.typeOther t (.receive p conn)) s = .next { s with result := .none })

/-- A request of each type (R66, R135): in every state the row is a `SEND` of its type byte. So, for the types that are
not transmitted: in `READY` it is refused (R136); in `BUSY` it is queued unexamined like any other, or refused where the
queue is full (R142, R143). -/
def Obligations.EachTypeTransmitted : Prop :=
  (∀ (p : Bytes) (t : Byte) (s : State),
    exec (.typeAck (.transmit p)) s = exec (.send (Config.impl.typeByte .ack) p) s ∧
    exec (.typeNak (.transmit p)) s = exec (.send (Config.impl.typeByte .nak) p) s ∧
    exec (.typeBleData (.transmit p)) s = exec (.send (Config.impl.typeByte .bleData) p) s ∧
    exec (.typeControl (.transmit p)) s = exec (.send (Config.impl.typeByte .control) p) s ∧
    exec (.typePing (.transmit p)) s = exec (.send (Config.impl.typeByte .ping) p) s ∧
    exec (.typeOther t (.transmit p)) s = exec (.send t p) s) ∧
  ∀ (i : Instr) (p : Bytes) (t : Byte) (s : State), p.length ≤ 65535 →
    (i = .typeAck (.transmit p) ∧ t = Config.impl.typeByte .ack ∨
      i = .typeNak (.transmit p) ∧ t = Config.impl.typeByte .nak ∨
      i = .typePing (.transmit p) ∧ t = Config.impl.typeByte .ping ∨
      i = .typeOther t (.transmit p) ∧ ∀ ty, t ≠ Config.impl.typeByte ty) →
    exec i s = .next (match s.txState with
      | .ready => { s with txlen := 0, result := .refused .invalidType }
      | .busy => if Config.impl.txqDepth = some s.txq.length then { s with result := .refused .queueFull }
          else { s with txq := s.txq ++ [⟨t, p⟩], result := .queued })

/-! ### The control commands (45_control_dispatch.md) -/

/-- A control command received (R171, R190, R202), for each of the fourteen opcode rows, which `commandInstr` names by
their opcode: its whole payload is delivered to the dispatcher, and no register and no buffer of the block changes. That
the dispatcher's action is the result, and is recorded with the occasion counted, is the model's (assumption 11), and so
is that the row starts behind the decoder, so that a packet whose body is longer than `RX_FRAME_CAP` is delivered too
(which R70 and R105 never deliver; assumption 9). -/
def Obligations.ControlCommandDelivered : Prop :=
  ∀ (o : CtrlOp) (args : Bytes) (st : BleStatus) (s : State), args.length + 1 ≤ 65535 →
    ∃ (a : DispatchAction) (script : List Code), exec (commandInstr o args st) s =
      .next { s with trace := s.trace ++ [.ctrlDeliver (Config.impl.ctrlOpcode o :: args)],
                     result := .dispatched a, script := script, actions := s.actions ++ [a],
                     occasion := s.occasion + 1 }

/-- The dispatcher's action for each opcode (R192 to R199), and what of it comes back to the block: a `RESET` as the next
operation after CHIP_RESET (R194), a CONTROL request somewhere behind the next operations after GET_BLE_STATUS (R191,
R196), nothing else (R202). The model's, by assumptions 11 and 12: the failing cases, that the action happens in the same
step, the form and the place of the reply. The model's, by assumption 14 (DEDUCED): the place of the level and of the
argument byte, that the name's length bound counts the whole payload, how the scan-response data is cut, and which status
counts as connected. -/
def Obligations.DispatcherActions : Prop :=
  ∀ (o : CtrlOp) (args : Bytes) (st : BleStatus) (s t : State), exec (commandInstr o args st) s = .next t →
    (match o with
      | .deviceName => t.result = .dispatched (if args.length + 1 ≤ Config.impl.nameBound then
          .updateDeviceName args (args.take Config.impl.advNameCap) else .noOp) ∧ t.script = s.script
      | .productString => t.result = .dispatched (if st = .advertising then .noOp else .indicateProductString) ∧
          t.script = s.script
      | .chipReset => t.result = .dispatched .chipReset ∧ t.script = .line .RESET :: s.script
      | .tkConfirm => t.result = .dispatched (if args.length = Config.impl.keyLen + 1 then .forwardTkConfirm args
          else .noOp) ∧ t.script = s.script
      | .bleStatus =>
          if args = [] then
            ∃ (reply : Bytes) (before behind : List Code), t.result = .dispatched (.replyStatus reply) ∧
              reply.length ≤ 65535 ∧ s.script = before ++ behind ∧
              t.script = before ++ .reply reply :: behind ∧
              decode Config.impl (.reply reply) = .ok (.send (Config.impl.typeByte .control) reply)
          else t.result = .dispatched .noOp ∧ t.script = s.script
      | .bleEnabled => t.result = .dispatched (if args = [0] then .beginShutdown (decide (st ≠ .advertising))
          else .noOp) ∧ t.script = s.script
      | .txPower => t.script = s.script ∧
          (∀ l rest, args = l :: rest → t.result = .dispatched
            (if 1 ≤ l.toNat ∧ l.toNat ≤ 12 then .applyTxPower l else .noOp)) ∧
          (args = [] → t.result = .dispatched .noOp)
      | .bondDbGet => t.result = .dispatched .noOp ∧ t.script = s.script
      | .bondDbSet => t.result = .dispatched .noOp ∧ t.script = s.script
      | .pairingCode => t.result = .dispatched .noOp ∧ t.script = s.script
      | .irk => t.result = .dispatched .noOp ∧ t.script = s.script
      | .identityAddress => t.result = .dispatched .noOp ∧ t.script = s.script
      | .pairingSuccessful => t.result = .dispatched .noOp ∧ t.script = s.script
      | .debugString => t.result = .dispatched .noOp ∧ t.script = s.script)

/-! ### Reset, boot and the blocking exchange (70_reset_and_hazards.md) -/

/-- `RESET` (R240, R243): every register at its reset value, an empty queue, no effect emitted. What the dispatcher still
had to send is not sent any more (R242). That the trace, the rest of the script and the dispatcher's record stay, and
that the exchange ends, is the model's (assumption 7). -/
def Obligations.ResetInstallsTheResetValues : Prop :=
  ∀ s : State, ∃ t : State, exec .reset s = .next t ∧ t.decMode = .wait ∧ t.flen = 0 ∧ t.txState = .ready ∧
    t.txlen = 0 ∧ t.txq = [] ∧ t.rxIrqEn = true ∧ t.rxTimerArmed = false ∧ t.phase = .boot ∧ t.trace = s.trace ∧
    (∀ p, Code.reply p ∉ t.script) ∧ t.script.Sublist s.script ∧
    ((∀ p, Code.reply p ∉ s.script) → t.script = s.script) ∧
    t.script = s.script.filter (fun code => !code.isReply) ∧ t.exchange = none ∧ t.actions = s.actions ∧ t.occasion = s.occasion

/-- The machine right after reset (R10, R240) holds the table's values, and the invariants of R15, R18, R20 and R23. -/
def Obligations.ResetStateMeetsTheInvariants : Prop :=
  Inv Config.impl State.reset ∧ State.reset.decMode = .wait ∧ State.reset.flen = 0 ∧ State.reset.txState = .ready ∧
    State.reset.txlen = 0 ∧ State.reset.txq = [] ∧ State.reset.rxIrqEn = true ∧ State.reset.rxTimerArmed = false ∧
    State.reset.phase = .boot ∧ State.reset.trace = []

/-- `START` (R245): the phase, and nothing else. -/
def Obligations.StartEntersSteadyState : Prop :=
  ∀ s : State, exec .start s = .next { s with phase := .run, result := .none }

/-- `SYNC_XCHG` outside phase `BOOT` or during a transmission (R246, R237), no exchange being in progress: refused, and
nothing written. -/
def Obligations.ExchangeNotAdmitted : Prop :=
  ∀ (req : Bytes) (expect : Byte) (reads : List Bytes) (s : State), req.length ≤ 65535 →
    (∀ r ∈ reads, r.length ≤ Config.impl.rxScratchCap) → s.exchange = none →
    (s.phase ≠ .boot ∨ s.txState ≠ .ready) →
    exec (.syncXchg req expect reads) s = .next { s with result := .refused .notAdmitted }

/-- `SYNC_XCHG` admitted, before any read has brought a byte (R247, R249), for every configuration: the request is
written with the blocking form and the transmitter stays `READY`; or it does not fit and is refused. That an exchange which
is still polling is held in State is the model's (assumption 10). -/
def Obligations.ExchangeWritesTheRequest : Prop :=
  (∀ (req : Bytes) (expect : Byte) (reads : List Bytes) (s : State),
    exec (.syncXchg req expect reads) s = syncXchgStep Config.impl req expect reads s) ∧
  ∀ (c : Config) (req : Bytes) (expect : Byte) (s : State), req.length ≤ 65535 → s.exchange = none →
    s.phase = .boot → s.txState = .ready →
    let W := wireOf c (c.typeByte .control) req
    ∃ m : Memory, (∀ i, c.txBufCap ≤ i → Memory.read m i = Memory.read s.txbuf i) ∧
      (W.length ≤ c.txBufCap → ∀ i, Memory.read m i = if i < W.length then W[i]? else Memory.read s.txbuf i) ∧
      syncXchgStep c req expect [] s = .next (if W.length ≤ c.txBufCap then
        { s with txbuf := m, txlen := W.length, trace := s.trace ++ [.uartTxBlocking W],
                 exchange := some ⟨req, expect⟩, result := .noReply }
        else { s with txbuf := m, txlen := 0, result := .refused .capacityExceeded })

/-- An exchange that is still polling goes on with more reads as if they had followed at once (R249; that it is held in
State is assumption 10); one that has its reply looks at no further read (R247). For every configuration. -/
def Obligations.ExchangeGoesOnWithMoreReads : Prop :=
  (∀ (req : Bytes) (expect : Byte) (reads : List Bytes) (s : State),
    exec (.syncXchg req expect reads) s = syncXchgStep Config.impl req expect reads s) ∧
  ∀ (c : Config) (req : Bytes) (expect : Byte) (first more : List Bytes) (s t : State),
    (∀ r ∈ more, r.length ≤ c.rxScratchCap) → syncXchgStep c req expect first s = .next t →
    (t.result = .noReply → t.exchange = some ⟨req, expect⟩ ∧
      syncXchgStep c req expect (first ++ more) s = syncXchgStep c req expect more t) ∧
    (∀ p, t.result = .reply p → t.exchange = none ∧ syncXchgStep c req expect (first ++ more) s = .next t)

/-- The reply of an exchange (R247), for every configuration: from mode `WAIT`, any wire frames that are not the reply
are dropped, a CRC failure among them reported; the first CONTROL frame whose payload begins with the expected opcode
is the reply, with its whole payload; the bytes behind it in its read are discarded. However the bytes are cut into
reads. The exchange is one that is held in State as still polling, which is the model's (assumption 10); how a fresh one
comes to that is ExchangeWritesTheRequest. -/
def Obligations.ExchangeReturnsTheReply : Prop :=
  (∀ (req : Bytes) (expect : Byte) (reads : List Bytes) (s : State),
    exec (.syncXchg req expect reads) s = syncXchgStep Config.impl req expect reads s) ∧
  ∀ (c : Config) (req : Bytes) (expect : Byte) (rest : Bytes) (others : List Bytes) (first : List Bytes)
    (last behind : Bytes) (s : State), RxInv c s → s.exchange = some ⟨req, expect⟩ →
    s.decMode = .wait → req.length ≤ 65535 → rest.length + 1 ≤ 65535 → rest.length + 6 ≤ c.rxFrameCap →
    (∀ F ∈ others, 3 ≤ F.length ∧ F.length ≤ c.rxFrameCap ∧
      ∀ t q, parseBody c F ≠ .ok t (expect :: q) .control) →
    last ≠ [] → first.flatten ++ last =
      others.flatMap wireOfBody ++ wireOf c (c.typeByte .control) (expect :: rest) →
    (∀ r ∈ first ++ [last ++ behind], r.length ≤ c.rxScratchCap) →
    ∃ u : State, syncXchgStep c req expect (first ++ [last ++ behind]) s = .next u ∧
      u.result = .reply (expect :: rest) ∧ u.exchange = none ∧ u.decMode = .wait ∧ u.flen = 0 ∧
      u.trace = s.trace ++ others.flatMap (fun F =>
        match parseBody c F with | .crcFail _ _ => [Effect.diag .crcError] | .garbage => [] | .ok _ _ _ => []) ∧
      sameTx s u ∧ u.phase = s.phase ∧ u.script = s.script ∧ u.rxIrqEn = s.rxIrqEn ∧
      u.rxTimerArmed = s.rxTimerArmed ∧ u.actions = s.actions ∧ u.occasion = s.occasion

/-- While an exchange is still polling no other operation happens (R249, R251): the model's step stops by name, unless
the next operation is more reads of the same exchange or a reset (assumption 10). -/
def Obligations.ExchangeBlocksOtherOperations : Prop :=
  ∀ (s : State) (code : Code) (rest : List Code) (i : Instr) (x : Exchange), s.script = code :: rest →
    s.exchange = some x → decode Config.impl code = .ok i → i ≠ .reset →
    (∀ reads, i ≠ .syncXchg x.req x.expect reads) → step s = .fault .exchangeInProgress

/-! ### The machine's step -/

/-- A step runs the decoded instruction: the script's next item leaves the script and the instruction it decodes to is
executed (R2, R222), no exchange being in progress, or, in one, more of the same exchange (R249). What the step adds is
the dispatcher's observation: nothing for an operation that delivers no CONTROL payload (EveryDeliveryReachesTheDispatcher
has the rest). An item that is no row's pattern is what it stands for: its bytes, each its own token, or its body or
payload (R60, R70). The word placed for the next fetch is what the next step runs. The model's: the script and the placed
word (assumption 3), the wait with an empty script (assumption 4), how items are read (assumption 5), that a reset is let
through in an exchange (assumption 10). -/
def Obligations.StepRunsTheDecodedInstruction : Prop :=
  (∀ (s : State) (code : Code) (rest : List Code) (i : Instr), s.script = code :: rest →
    decode Config.impl code = .ok i →
    (s.exchange = none ∨ i = .reset ∨ ∃ x reads, s.exchange = some x ∧ i = .syncXchg x.req x.expect reads) →
    step s = afterwards Config.impl i { s with script := rest } (exec i { s with script := rest })) ∧
  (∀ (i : Instr) (s t : State) (new : List Effect), exec i s = .next t → t.trace = s.trace ++ new →
    (∀ p, Effect.ctrlDeliver p ∉ new) → afterwards Config.impl i s (exec i s) = .next t) ∧
  (∀ (i : Instr) (s : State), (∀ t, exec i s ≠ .next t) → afterwards Config.impl i s (exec i s) = exec i s) ∧
  (∀ s : State, s.script = [] → step s = .next s) ∧
  (∀ (s : State) (code : Code) (rest : List Code) (e : DecodeError), s.script = code :: rest →
    decode Config.impl code = .error e →
    step s = step { s with script := (standsFor Config.impl code).map (encode Config.impl) ++ rest }) ∧
  (∀ (s : State) (nbits w : Nat) (i : Instr), decodeTableWord nbits w = some i →
    step (s.withFetchWord nbits w) =
      afterwards Config.impl i { s with exchange := none } (exec i { s with exchange := none }))

/-- What lies outside an operand's range is refused by name and changes nothing: a payload of more than 65535 bytes, of
`SEND`, `ENCODE`, `SYNC_XCHG`, a type-byte row in either use and a control row (R93, R135, R64; U18); a UART read of more
than `RX_SCRATCH_CAP` bytes, of `RX_READY` and of `SYNC_XCHG` (R165, R246); a caller's buffer that holds more than its
capacity (R42). The refusals are the model's (assumption 8). -/
def Obligations.OperandsOutOfRangeAreRefused : Prop :=
  (∀ (t : Byte) (p : Bytes) (s : State), 65535 < p.length → exec (.send t p) s = .refused .payloadTooLong ∧
    (∀ d, exec (.encode d t p) s = .refused .payloadTooLong) ∧
    (∀ expect reads, exec (.syncXchg p expect reads) s = .refused .payloadTooLong) ∧
    (∀ u, (u = .transmit p ∨ ∃ conn, u = .receive p conn) →
      exec (.typeAck u) s = .refused .payloadTooLong ∧ exec (.typeNak u) s = .refused .payloadTooLong ∧
      exec (.typeBleData u) s = .refused .payloadTooLong ∧ exec (.typeControl u) s = .refused .payloadTooLong ∧
      exec (.typePing u) s = .refused .payloadTooLong ∧ exec (.typeOther t u) s = .refused .payloadTooLong)) ∧
  (∀ (o : CtrlOp) (args : Bytes) (st : BleStatus) (s : State), 65535 < args.length + 1 →
    exec (commandInstr o args st) s = .refused .payloadTooLong) ∧
  (∀ (bs : Bytes) (used max : Nat) (conn : Bool) (s : State), Config.impl.rxScratchCap < bs.length →
    exec (.rxReady bs used max conn) s = .refused .readTooLong) ∧
  (∀ (req : Bytes) (expect : Byte) (reads : List Bytes) (r : Bytes) (s : State), req.length ≤ 65535 → r ∈ reads →
    Config.impl.rxScratchCap < r.length → exec (.syncXchg req expect reads) s = .refused .readTooLong) ∧
  (∀ (content : Bytes) (cap : Nat) (t : Byte) (p : Bytes) (s : State), p.length ≤ 65535 → cap < content.length →
    exec (.encode (.given content cap) t p) s = .refused .destinationOverfull)

/-- Every step keeps the invariants that hold between operations (R15, R18, R20, R23, R29): lengths within capacities,
the valid bytes of the buffers written and their form canonical, `WAIT` with nothing accumulated, `READY` with an empty
queue, the valve and its timer in step; whether an operation succeeds or is refused. -/
def Obligations.EveryStepKeepsTheInvariants : Prop :=
  ∀ s t : State, Inv Config.impl s → step s = .next t → Inv Config.impl t

/-- No rule reads a byte that nothing has written (R14, R17, R42): from a state that meets the invariants the defensive
fault is never raised. -/
def Obligations.NoUnwrittenByteIsRead : Prop :=
  ∀ (s : State) (sp : Space), Inv Config.impl s → step s ≠ .fault (.unwrittenByte sp)

/-- Every well-formed instruction completes from every state that meets the invariants: an error of the block is a result
and never a trap (R219, R220). Two clauses are the model's choices. That a `SYNC_XCHG` whose reads run out without a reply
completes, with the model-only outcome `NoReply`, is assumption 10: in R249 the operation then never returns. That
`ENCODE` invoked by itself into a transmit buffer in use is left out is assumption 8: the model refuses it by name,
because R255 has nothing written there. -/
def Obligations.WellFormedInstructionsComplete : Prop :=
  ∀ (i : Instr) (s : State), Inv Config.impl s → i.wellFormed Config.impl = true →
    (∀ t p, i = .encode .txbuf t p → s.txState = .ready) → ∃ t, exec i s = .next t

/-- Every payload that an operation delivers reaches the dispatcher (R190), in whatever operation the frame came: only
the rows through which a frame reaches the router deliver one, and the fourteen control rows, which have their action as
their result (DispatcherActions). What the dispatcher makes of it touches no state of the block (R202); an unassigned
opcode and an empty payload are no-ops (R199; U9), and after CHIP_RESET the next operation is `RESET` (R194). The
model's: that it acts at the end of the same step, records its action, and handles nothing more after CHIP_RESET
(assumption 11). -/
def Obligations.EveryDeliveryReachesTheDispatcher : Prop :=
  (∀ (i : Instr) (s t : State) (new : List Effect) (p : Bytes), exec i s = .next t → t.trace = s.trace ++ new →
    Effect.ctrlDeliver p ∈ new →
    (∃ conn, deliversUnder i = some conn) ∨ ∃ o args st, i = commandInstr o args st) ∧
  (∀ (i : Instr) (conn : Bool) (s t : State) (new : List Effect), deliversUnder i = some conn → exec i s = .next t →
    t.trace = s.trace ++ new →
    afterwards Config.impl i s (exec i s) =
      .next (handOverAll Config.impl conn (new.filterMap Effect.delivery) t)) ∧
  (∀ (c : Config) (conn : Bool) (ps : List Bytes) (t : State), ∃ (script : List Code) (done : List DispatchAction),
    done.length ≤ ps.length ∧ (DispatchAction.chipReset ∉ done → done.length = ps.length) ∧
    handOverAll c conn ps t =
      { t with script := script, actions := t.actions ++ done, occasion := t.occasion + done.length }) ∧
  (∀ (c : Config) (conn : Bool) (p : Bytes) (ps : List Bytes) (t : State),
    (∀ b args, p = b :: args → ∀ o, b ≠ c.ctrlOpcode o) →
    handOverAll c conn (p :: ps) t =
      handOverAll c conn ps { t with actions := t.actions ++ [.noOp], occasion := t.occasion + 1 }) ∧
  (∀ (c : Config) (conn : Bool) (args : Bytes) (ps : List Bytes) (t : State),
    handOverAll c conn ((c.ctrlOpcode .chipReset :: args) :: ps) t =
      { t with script := .line .RESET :: t.script, actions := t.actions ++ [.chipReset],
               occasion := t.occasion + 1 })
end

