-- ==== Sys2Proof/Laws/State.lean ====
section
/-! SUPPORT. What each update of a state record leaves in each field: one lemma per field per update, true by
definition, so that no later proof unfolds an update. -/

namespace Sys2Proof.Machine

variable (s : State)

/-! ### `State.emit` -/

@[simp] theorem State.emit_decMode (e : Effect) : (s.emit e).decMode = s.decMode := rfl
@[simp] theorem State.emit_fbuf (e : Effect) : (s.emit e).fbuf = s.fbuf := rfl
@[simp] theorem State.emit_flen (e : Effect) : (s.emit e).flen = s.flen := rfl
@[simp] theorem State.emit_txState (e : Effect) : (s.emit e).txState = s.txState := rfl
@[simp] theorem State.emit_txbuf (e : Effect) : (s.emit e).txbuf = s.txbuf := rfl
@[simp] theorem State.emit_txlen (e : Effect) : (s.emit e).txlen = s.txlen := rfl
@[simp] theorem State.emit_txq (e : Effect) : (s.emit e).txq = s.txq := rfl
@[simp] theorem State.emit_scratch (e : Effect) : (s.emit e).scratch = s.scratch := rfl
@[simp] theorem State.emit_rxIrqEn (e : Effect) : (s.emit e).rxIrqEn = s.rxIrqEn := rfl
@[simp] theorem State.emit_rxTimerArmed (e : Effect) : (s.emit e).rxTimerArmed = s.rxTimerArmed := rfl
@[simp] theorem State.emit_phase (e : Effect) : (s.emit e).phase = s.phase := rfl
@[simp] theorem State.emit_trace (e : Effect) : (s.emit e).trace = s.trace ++ [e] := rfl
@[simp] theorem State.emit_result (e : Effect) : (s.emit e).result = s.result := rfl
@[simp] theorem State.emit_script (e : Effect) : (s.emit e).script = s.script := rfl
@[simp] theorem State.emit_exchange (e : Effect) : (s.emit e).exchange = s.exchange := rfl
@[simp] theorem State.emit_actions (e : Effect) : (s.emit e).actions = s.actions := rfl
@[simp] theorem State.emit_occasion (e : Effect) : (s.emit e).occasion = s.occasion := rfl

/-! ### `State.withResult` -/

@[simp] theorem State.withResult_decMode (r : OpResult) : (s.withResult r).decMode = s.decMode := rfl
@[simp] theorem State.withResult_fbuf (r : OpResult) : (s.withResult r).fbuf = s.fbuf := rfl
@[simp] theorem State.withResult_flen (r : OpResult) : (s.withResult r).flen = s.flen := rfl
@[simp] theorem State.withResult_txState (r : OpResult) : (s.withResult r).txState = s.txState := rfl
@[simp] theorem State.withResult_txbuf (r : OpResult) : (s.withResult r).txbuf = s.txbuf := rfl
@[simp] theorem State.withResult_txlen (r : OpResult) : (s.withResult r).txlen = s.txlen := rfl
@[simp] theorem State.withResult_txq (r : OpResult) : (s.withResult r).txq = s.txq := rfl
@[simp] theorem State.withResult_scratch (r : OpResult) : (s.withResult r).scratch = s.scratch := rfl
@[simp] theorem State.withResult_rxIrqEn (r : OpResult) : (s.withResult r).rxIrqEn = s.rxIrqEn := rfl
@[simp] theorem State.withResult_rxTimerArmed (r : OpResult) : (s.withResult r).rxTimerArmed = s.rxTimerArmed := rfl
@[simp] theorem State.withResult_phase (r : OpResult) : (s.withResult r).phase = s.phase := rfl
@[simp] theorem State.withResult_trace (r : OpResult) : (s.withResult r).trace = s.trace := rfl
@[simp] theorem State.withResult_result (r : OpResult) : (s.withResult r).result = r := rfl
@[simp] theorem State.withResult_script (r : OpResult) : (s.withResult r).script = s.script := rfl
@[simp] theorem State.withResult_exchange (r : OpResult) : (s.withResult r).exchange = s.exchange := rfl
@[simp] theorem State.withResult_actions (r : OpResult) : (s.withResult r).actions = s.actions := rfl
@[simp] theorem State.withResult_occasion (r : OpResult) : (s.withResult r).occasion = s.occasion := rfl

/-! ### `State.push` -/

@[simp] theorem State.push_decMode (x : PendingSend) : (s.push x).decMode = s.decMode := rfl
@[simp] theorem State.push_fbuf (x : PendingSend) : (s.push x).fbuf = s.fbuf := rfl
@[simp] theorem State.push_flen (x : PendingSend) : (s.push x).flen = s.flen := rfl
@[simp] theorem State.push_txState (x : PendingSend) : (s.push x).txState = s.txState := rfl
@[simp] theorem State.push_txbuf (x : PendingSend) : (s.push x).txbuf = s.txbuf := rfl
@[simp] theorem State.push_txlen (x : PendingSend) : (s.push x).txlen = s.txlen := rfl
@[simp] theorem State.push_txq (x : PendingSend) : (s.push x).txq = s.txq ++ [x] := rfl
@[simp] theorem State.push_scratch (x : PendingSend) : (s.push x).scratch = s.scratch := rfl
@[simp] theorem State.push_rxIrqEn (x : PendingSend) : (s.push x).rxIrqEn = s.rxIrqEn := rfl
@[simp] theorem State.push_rxTimerArmed (x : PendingSend) : (s.push x).rxTimerArmed = s.rxTimerArmed := rfl
@[simp] theorem State.push_phase (x : PendingSend) : (s.push x).phase = s.phase := rfl
@[simp] theorem State.push_trace (x : PendingSend) : (s.push x).trace = s.trace := rfl
@[simp] theorem State.push_result (x : PendingSend) : (s.push x).result = s.result := rfl
@[simp] theorem State.push_script (x : PendingSend) : (s.push x).script = s.script := rfl
@[simp] theorem State.push_exchange (x : PendingSend) : (s.push x).exchange = s.exchange := rfl
@[simp] theorem State.push_actions (x : PendingSend) : (s.push x).actions = s.actions := rfl
@[simp] theorem State.push_occasion (x : PendingSend) : (s.push x).occasion = s.occasion := rfl

/-! ### `State.refuse` -/

@[simp] theorem State.refuse_decMode (e : ErrorOutcome) : (s.refuse e).decMode = s.decMode := rfl
@[simp] theorem State.refuse_fbuf (e : ErrorOutcome) : (s.refuse e).fbuf = s.fbuf := rfl
@[simp] theorem State.refuse_flen (e : ErrorOutcome) : (s.refuse e).flen = s.flen := rfl
@[simp] theorem State.refuse_txState (e : ErrorOutcome) : (s.refuse e).txState = s.txState := rfl
@[simp] theorem State.refuse_txbuf (e : ErrorOutcome) : (s.refuse e).txbuf = s.txbuf := rfl
@[simp] theorem State.refuse_txlen (e : ErrorOutcome) : (s.refuse e).txlen = s.txlen := rfl
@[simp] theorem State.refuse_txq (e : ErrorOutcome) : (s.refuse e).txq = s.txq := rfl
@[simp] theorem State.refuse_scratch (e : ErrorOutcome) : (s.refuse e).scratch = s.scratch := rfl
@[simp] theorem State.refuse_rxIrqEn (e : ErrorOutcome) : (s.refuse e).rxIrqEn = s.rxIrqEn := rfl
@[simp] theorem State.refuse_rxTimerArmed (e : ErrorOutcome) : (s.refuse e).rxTimerArmed = s.rxTimerArmed := rfl
@[simp] theorem State.refuse_phase (e : ErrorOutcome) : (s.refuse e).phase = s.phase := rfl
@[simp] theorem State.refuse_trace (e : ErrorOutcome) : (s.refuse e).trace = s.trace := rfl
@[simp] theorem State.refuse_result (e : ErrorOutcome) : (s.refuse e).result = .refused e := rfl
@[simp] theorem State.refuse_script (e : ErrorOutcome) : (s.refuse e).script = s.script := rfl
@[simp] theorem State.refuse_exchange (e : ErrorOutcome) : (s.refuse e).exchange = s.exchange := rfl
@[simp] theorem State.refuse_actions (e : ErrorOutcome) : (s.refuse e).actions = s.actions := rfl
@[simp] theorem State.refuse_occasion (e : ErrorOutcome) : (s.refuse e).occasion = s.occasion := rfl

/-! ### `State.setTxBuffer` -/

@[simp] theorem State.setTxBuffer_decMode (B : Buffer) : (s.setTxBuffer B).decMode = s.decMode := rfl
@[simp] theorem State.setTxBuffer_fbuf (B : Buffer) : (s.setTxBuffer B).fbuf = s.fbuf := rfl
@[simp] theorem State.setTxBuffer_flen (B : Buffer) : (s.setTxBuffer B).flen = s.flen := rfl
@[simp] theorem State.setTxBuffer_txState (B : Buffer) : (s.setTxBuffer B).txState = s.txState := rfl
@[simp] theorem State.setTxBuffer_txbuf (B : Buffer) : (s.setTxBuffer B).txbuf = B.cells := rfl
@[simp] theorem State.setTxBuffer_txlen (B : Buffer) : (s.setTxBuffer B).txlen = B.len := rfl
@[simp] theorem State.setTxBuffer_txq (B : Buffer) : (s.setTxBuffer B).txq = s.txq := rfl
@[simp] theorem State.setTxBuffer_scratch (B : Buffer) : (s.setTxBuffer B).scratch = s.scratch := rfl
@[simp] theorem State.setTxBuffer_rxIrqEn (B : Buffer) : (s.setTxBuffer B).rxIrqEn = s.rxIrqEn := rfl
@[simp] theorem State.setTxBuffer_rxTimerArmed (B : Buffer) : (s.setTxBuffer B).rxTimerArmed = s.rxTimerArmed := rfl
@[simp] theorem State.setTxBuffer_phase (B : Buffer) : (s.setTxBuffer B).phase = s.phase := rfl
@[simp] theorem State.setTxBuffer_trace (B : Buffer) : (s.setTxBuffer B).trace = s.trace := rfl
@[simp] theorem State.setTxBuffer_result (B : Buffer) : (s.setTxBuffer B).result = s.result := rfl
@[simp] theorem State.setTxBuffer_script (B : Buffer) : (s.setTxBuffer B).script = s.script := rfl
@[simp] theorem State.setTxBuffer_exchange (B : Buffer) : (s.setTxBuffer B).exchange = s.exchange := rfl
@[simp] theorem State.setTxBuffer_actions (B : Buffer) : (s.setTxBuffer B).actions = s.actions := rfl
@[simp] theorem State.setTxBuffer_occasion (B : Buffer) : (s.setTxBuffer B).occasion = s.occasion := rfl

/-! ### `State.fillScratch` -/

@[simp] theorem State.fillScratch_decMode (bs : Bytes) : (s.fillScratch bs).decMode = s.decMode := rfl
@[simp] theorem State.fillScratch_fbuf (bs : Bytes) : (s.fillScratch bs).fbuf = s.fbuf := rfl
@[simp] theorem State.fillScratch_flen (bs : Bytes) : (s.fillScratch bs).flen = s.flen := rfl
@[simp] theorem State.fillScratch_txState (bs : Bytes) : (s.fillScratch bs).txState = s.txState := rfl
@[simp] theorem State.fillScratch_txbuf (bs : Bytes) : (s.fillScratch bs).txbuf = s.txbuf := rfl
@[simp] theorem State.fillScratch_txlen (bs : Bytes) : (s.fillScratch bs).txlen = s.txlen := rfl
@[simp] theorem State.fillScratch_txq (bs : Bytes) : (s.fillScratch bs).txq = s.txq := rfl
@[simp] theorem State.fillScratch_scratch (bs : Bytes) : (s.fillScratch bs).scratch = Memory.store s.scratch 0 bs := rfl
@[simp] theorem State.fillScratch_rxIrqEn (bs : Bytes) : (s.fillScratch bs).rxIrqEn = s.rxIrqEn := rfl
@[simp] theorem State.fillScratch_rxTimerArmed (bs : Bytes) : (s.fillScratch bs).rxTimerArmed = s.rxTimerArmed := rfl
@[simp] theorem State.fillScratch_phase (bs : Bytes) : (s.fillScratch bs).phase = s.phase := rfl
@[simp] theorem State.fillScratch_trace (bs : Bytes) : (s.fillScratch bs).trace = s.trace := rfl
@[simp] theorem State.fillScratch_result (bs : Bytes) : (s.fillScratch bs).result = s.result := rfl
@[simp] theorem State.fillScratch_script (bs : Bytes) : (s.fillScratch bs).script = s.script := rfl
@[simp] theorem State.fillScratch_exchange (bs : Bytes) : (s.fillScratch bs).exchange = s.exchange := rfl
@[simp] theorem State.fillScratch_actions (bs : Bytes) : (s.fillScratch bs).actions = s.actions := rfl
@[simp] theorem State.fillScratch_occasion (bs : Bytes) : (s.fillScratch bs).occasion = s.occasion := rfl

/-! ### `State.dropScratch` -/

@[simp] theorem State.dropScratch_decMode : (s.dropScratch).decMode = s.decMode := rfl
@[simp] theorem State.dropScratch_fbuf : (s.dropScratch).fbuf = s.fbuf := rfl
@[simp] theorem State.dropScratch_flen : (s.dropScratch).flen = s.flen := rfl
@[simp] theorem State.dropScratch_txState : (s.dropScratch).txState = s.txState := rfl
@[simp] theorem State.dropScratch_txbuf : (s.dropScratch).txbuf = s.txbuf := rfl
@[simp] theorem State.dropScratch_txlen : (s.dropScratch).txlen = s.txlen := rfl
@[simp] theorem State.dropScratch_txq : (s.dropScratch).txq = s.txq := rfl
@[simp] theorem State.dropScratch_scratch : (s.dropScratch).scratch = [] := rfl
@[simp] theorem State.dropScratch_rxIrqEn : (s.dropScratch).rxIrqEn = s.rxIrqEn := rfl
@[simp] theorem State.dropScratch_rxTimerArmed : (s.dropScratch).rxTimerArmed = s.rxTimerArmed := rfl
@[simp] theorem State.dropScratch_phase : (s.dropScratch).phase = s.phase := rfl
@[simp] theorem State.dropScratch_trace : (s.dropScratch).trace = s.trace := rfl
@[simp] theorem State.dropScratch_result : (s.dropScratch).result = s.result := rfl
@[simp] theorem State.dropScratch_script : (s.dropScratch).script = s.script := rfl
@[simp] theorem State.dropScratch_exchange : (s.dropScratch).exchange = s.exchange := rfl
@[simp] theorem State.dropScratch_actions : (s.dropScratch).actions = s.actions := rfl
@[simp] theorem State.dropScratch_occasion : (s.dropScratch).occasion = s.occasion := rfl

/-! ### `resetBlock` -/

@[simp] theorem resetBlock_decMode : (resetBlock s).decMode = .wait := rfl
@[simp] theorem resetBlock_fbuf : (resetBlock s).fbuf = [] := rfl
@[simp] theorem resetBlock_flen : (resetBlock s).flen = 0 := rfl
@[simp] theorem resetBlock_txState : (resetBlock s).txState = .ready := rfl
@[simp] theorem resetBlock_txbuf : (resetBlock s).txbuf = [] := rfl
@[simp] theorem resetBlock_txlen : (resetBlock s).txlen = 0 := rfl
@[simp] theorem resetBlock_txq : (resetBlock s).txq = [] := rfl
@[simp] theorem resetBlock_scratch : (resetBlock s).scratch = [] := rfl
@[simp] theorem resetBlock_rxIrqEn : (resetBlock s).rxIrqEn = true := rfl
@[simp] theorem resetBlock_rxTimerArmed : (resetBlock s).rxTimerArmed = false := rfl
@[simp] theorem resetBlock_phase : (resetBlock s).phase = .boot := rfl
@[simp] theorem resetBlock_trace : (resetBlock s).trace = s.trace := rfl
@[simp] theorem resetBlock_result : (resetBlock s).result = .none := rfl
@[simp] theorem resetBlock_script : (resetBlock s).script = s.script.filter (fun code => !code.isReply) := rfl
@[simp] theorem resetBlock_exchange : (resetBlock s).exchange = none := rfl
@[simp] theorem resetBlock_actions : (resetBlock s).actions = s.actions := rfl
@[simp] theorem resetBlock_occasion : (resetBlock s).occasion = s.occasion := rfl

/-! ### The two views of a buffer -/

@[simp] theorem State.txBuffer_cells (c : Config) : (s.txBuffer c).cells = s.txbuf := rfl
@[simp] theorem State.txBuffer_len (c : Config) : (s.txBuffer c).len = s.txlen := rfl
@[simp] theorem State.txBuffer_cap (c : Config) : (s.txBuffer c).cap = c.txBufCap := rfl
@[simp] theorem State.frameBuffer_cells (c : Config) : (s.frameBuffer c).cells = s.fbuf := rfl
@[simp] theorem State.frameBuffer_len (c : Config) : (s.frameBuffer c).len = s.flen := rfl
@[simp] theorem State.frameBuffer_cap (c : Config) : (s.frameBuffer c).cap = c.rxFrameCap := rfl

/-! ### `State.takeError`: a report, or nothing -/

@[simp] theorem State.takeError_needMore : s.takeError .needMore = s := rfl
@[simp] theorem State.takeError_garbage : s.takeError .garbage = s := rfl
@[simp] theorem State.takeError_crcFail : s.takeError .crcFail = s.emit (.diag .crcError) := rfl
@[simp] theorem State.takeError_overflow : s.takeError .overflow = s.emit (.diag .rxOverflow) := rfl
@[simp] theorem State.takeError_capacityExceeded :
    s.takeError .capacityExceeded = s.emit (.diag (.txDropped .capacityExceeded)) := rfl
@[simp] theorem State.takeError_invalidType : s.takeError .invalidType = s.emit (.diag (.txDropped .invalidType)) := rfl
@[simp] theorem State.takeError_badLength : s.takeError .badLength = s.emit (.diag (.txDropped .badLength)) := rfl

/-- Everything that taking an error can do: append to the trace. -/
theorem State.takeError_eq (e : ErrorOutcome) :
    s.takeError e = { s with trace := s.trace ++ ((diagOf e).map Effect.diag).toList } := by
  cases e <;> simp [State.takeError, diagOf, State.emit]

end Sys2Proof.Machine
end

