-- ==== Sys2Proof/Laws/Memory.lean ====
section
/-! SUPPORT. The laws of a buffer: a read after a write, and the canonical form, which every operation keeps. -/

namespace Sys2Proof.Machine

theorem Memory.read_write_same (m : Memory) (i : Nat) (v : Byte) : Memory.read (Memory.write m i v) i = some v := by
  induction m with
  | nil => simp [Memory.write, Memory.read]
  | cons x m ih =>
    obtain ⟨a, w⟩ := x
    simp only [Memory.write]
    split
    · simp [Memory.read]
    · split
      · simp [Memory.read]
      · rename_i h
        simp [Memory.read, Ne.symm h, ih]

theorem Memory.read_write_ne (m : Memory) {i j : Nat} (v : Byte) (h : j ≠ i) :
    Memory.read (Memory.write m i v) j = Memory.read m j := by
  induction m with
  | nil => simp [Memory.write, Memory.read, Ne.symm h]
  | cons x m ih =>
    obtain ⟨a, w⟩ := x
    simp only [Memory.write]
    split
    · simp [Memory.read, Ne.symm h]
    · split
      · rename_i h1; subst h1; simp [Memory.read, Ne.symm h]
      · simp [Memory.read, ih]

theorem Memory.read_write (m : Memory) (i j : Nat) (v : Byte) :
    Memory.read (Memory.write m i v) j = if j = i then some v else Memory.read m j := by
  split
  · rename_i h; subst h; exact Memory.read_write_same m j v
  · rename_i h; exact Memory.read_write_ne m v h

theorem Memory.mem_write {m : Memory} {i : Nat} {v : Byte} {a : Nat} (h : a ∈ (Memory.write m i v).map Prod.fst) :
    a = i ∨ a ∈ m.map Prod.fst := by
  induction m with
  | nil => simpa [Memory.write] using h
  | cons x m ih =>
    obtain ⟨b, w⟩ := x
    simp only [Memory.write] at h
    split at h
    · simpa using h
    · split at h
      · rename_i h1; subst h1; simp at h ⊢; tauto
      · simp only [List.map_cons, List.mem_cons] at h ⊢
        rcases h with h | h
        · tauto
        · rcases ih h with h | h <;> tauto

/-- A write keeps the canonical form. -/
theorem Memory.write_wf {m : Memory} (h : Memory.wf m) (i : Nat) (v : Byte) : Memory.wf (Memory.write m i v) := by
  induction m with
  | nil => simp [Memory.write, Memory.wf]
  | cons x m ih =>
    obtain ⟨b, w⟩ := x
    simp only [Memory.wf, List.map_cons, List.pairwise_cons] at h
    simp only [Memory.write]
    split
    · rename_i hi
      simp only [Memory.wf, List.map_cons, List.pairwise_cons, List.mem_cons]
      exact ⟨fun a ha => ha.elim (fun e => e ▸ hi) (fun ha => lt_trans hi (h.1 a ha)), h⟩
    · split
      · rename_i h1; subst h1; exact List.pairwise_cons.mpr h
      · rename_i h1 h2
        refine List.pairwise_cons.mpr ⟨fun a ha => ?_, ih h.2⟩
        rcases Memory.mem_write ha with rfl | ha
        · omega
        · exact h.1 a ha

/-- Storing consecutive bytes keeps the canonical form. -/
theorem Memory.store_wf {m : Memory} (h : Memory.wf m) (i : Nat) (bs : Bytes) : Memory.wf (Memory.store m i bs) := by
  induction bs generalizing m i with
  | nil => exact h
  | cons v vs ih => exact ih (Memory.write_wf h i v) _

/-- The buffers right after reset are in canonical form. -/
theorem reset_wf : Memory.wf State.reset.fbuf ∧ Memory.wf State.reset.txbuf ∧ Memory.wf State.reset.scratch := by
  decide

/-- What storing consecutive bytes does to each index. -/
theorem Memory.read_store (m : Memory) (i j : Nat) (bs : Bytes) :
    Memory.read (Memory.store m i bs) j = if i ≤ j ∧ j < i + bs.length then bs[j - i]? else Memory.read m j := by
  induction bs generalizing m i with
  | nil => simp [Memory.store]
  | cons v vs ih =>
    simp only [Memory.store, ih, Memory.read_write, List.length_cons]
    by_cases h1 : j = i
    · subst h1; simp
    · by_cases h2 : i + 1 ≤ j ∧ j < i + 1 + vs.length
      · rw [if_pos h2, if_pos (by omega), show j - i = (j - (i + 1)) + 1 by omega, List.getElem?_cons_succ]
      · rw [if_neg h2, if_neg h1, if_neg (by omega)]

/-- What loading consecutive bytes answers. -/
theorem Memory.load_eq_some {m : Memory} {i n : Nat} {F : Bytes} :
    Memory.load m i n = some F ↔ F.length = n ∧ ∀ k, k < n → Memory.read m (i + k) = F[k]? := by
  induction n generalizing i F with
  | zero => cases F <;> simp [Memory.load]
  | succ n ih =>
    simp only [Memory.load]
    cases hr : Memory.read m i with
    | none =>
      simp only [reduceCtorEq, false_iff, not_and]
      intro hl hk
      have h0 := hk 0 (by omega)
      cases F with
      | nil => simp at hl
      | cons w G => simp [hr] at h0
    | some v =>
      simp only [Option.map_eq_some_iff]
      constructor
      · rintro ⟨G, hG, rfl⟩
        obtain ⟨hl, hk⟩ := ih.mp hG
        refine ⟨by simp [hl], fun k hkn => ?_⟩
        cases k with
        | zero => simpa using hr
        | succ k => have := hk k (by omega); simpa [Nat.add_assoc, Nat.add_comm 1 k] using this
      · rintro ⟨hl, hk⟩
        cases F with
        | nil => simp at hl
        | cons w G =>
          have h0 := hk 0 (by omega)
          simp [hr] at h0
          refine ⟨G, ih.mpr ⟨by simpa using hl, fun k hkn => ?_⟩, by simp [h0]⟩
          have := hk (k + 1) (by omega)
          simpa [Nat.add_assoc, Nat.add_comm 1 k] using this

theorem Memory.load_isSome {m : Memory} {i n : Nat} (h : ∀ k, k < n → (Memory.read m (i + k)).isSome) :
    ∃ F, Memory.load m i n = some F ∧ F.length = n := by
  induction n generalizing i with
  | zero => exact ⟨[], rfl, rfl⟩
  | succ n ih =>
    obtain ⟨v, hv⟩ := Option.isSome_iff_exists.mp (h 0 (by omega))
    obtain ⟨F, hF, hl⟩ := @ih (i + 1) (fun k hk => by
      have := h (k + 1) (by omega); rwa [show i + 1 + k = i + (k + 1) by omega])
    exact ⟨v :: F, by simp only [Nat.add_zero] at hv; simp [Memory.load, hv, hF], by simp [hl]⟩

/-- What has just been stored is read back. -/
theorem Memory.load_store (m : Memory) (i : Nat) (bs : Bytes) :
    Memory.load (Memory.store m i bs) i bs.length = some bs :=
  Memory.load_eq_some.mpr ⟨rfl, fun k hk => by
    rw [Memory.read_store, if_pos (by omega)]; simp⟩

theorem Memory.store_append (m : Memory) (i : Nat) (xs ys : Bytes) :
    Memory.store m i (xs ++ ys) = Memory.store (Memory.store m i xs) (i + xs.length) ys := by
  induction xs generalizing m i with
  | nil => rfl
  | cons x xs ih =>
    simp only [List.cons_append, Memory.store, ih, List.length_cons]
    rw [show i + 1 + xs.length = i + (xs.length + 1) by omega]

theorem Memory.writtenBelow_store {m : Memory} {n : Nat} (h : Memory.writtenBelow m n) (bs : Bytes) :
    Memory.writtenBelow (Memory.store m n bs) (n + bs.length) := by
  intro j hj
  rw [Memory.read_store]
  split
  · rename_i hb; simp; omega
  · exact h j (by omega)

theorem Memory.within_store {m : Memory} {n cap : Nat} (h : Memory.within m cap) {bs : Bytes}
    (hb : n + bs.length ≤ cap) : Memory.within (Memory.store m n bs) cap := by
  intro j hj
  rw [Memory.read_store, if_neg (by omega)]
  exact h j hj

theorem Memory.writtenBelow_zero (m : Memory) : Memory.writtenBelow m 0 := fun _ h => absurd h (Nat.not_lt_zero _)

theorem Memory.writtenBelow_mono {m : Memory} {n k : Nat} (h : Memory.writtenBelow m n) (hk : k ≤ n) :
    Memory.writtenBelow m k := fun i hi => h i (lt_of_lt_of_le hi hk)

end Sys2Proof.Machine
end

