-- ==== Sys2Proof/Laws/Buffer.lean ====
section
/-! SUPPORT. What the bounded append, the emission of bytes and `ENCODE` can do (R51, R91, R92, R93). -/

namespace Sys2Proof.Machine

/-- Emitting bytes that fit stores them all. -/
theorem Buffer.emit_fits (B : Buffer) (bs : Bytes) (h : B.len + bs.length ≤ B.cap) :
    Buffer.emit B bs = (true, { cells := Memory.store B.cells B.len bs, len := B.len + bs.length, cap := B.cap }) := by
  induction bs generalizing B with
  | nil => rfl
  | cons v vs ih =>
    simp only [List.length_cons] at h
    have hne : B.len ≠ B.cap := by omega
    simp only [Buffer.emit, Buffer.append, if_neg hne]
    rw [ih _ (by simp only; omega)]
    simp only [Memory.store, List.length_cons, Prod.mk.injEq, true_and]
    congr 1; omega

/-- Emitting bytes that do not fit stores those that do and stops at the capacity. -/
theorem Buffer.emit_full (B : Buffer) (bs : Bytes) (hB : B.len ≤ B.cap) (h : B.cap < B.len + bs.length) :
    Buffer.emit B bs =
      (false, { cells := Memory.store B.cells B.len (bs.take (B.cap - B.len)), len := B.cap, cap := B.cap }) := by
  induction bs generalizing B with
  | nil => simp at h; omega
  | cons v vs ih =>
    simp only [List.length_cons] at h
    by_cases he : B.len = B.cap
    · obtain ⟨cells, len, cap⟩ := B
      simp only at he; subst he
      simp [Buffer.emit, Buffer.append, Memory.store]
    · simp only [Buffer.emit, Buffer.append, if_neg he]
      rw [ih _ (by simp only; omega) (by simp only; omega)]
      have : B.cap - B.len = (B.cap - (B.len + 1)) + 1 := by omega
      simp [this, Memory.store]

/-- `ENCODE` of a frame that fits (R93): the wire frame stands behind what the buffer held. -/
theorem encodeInto_done (c : Config) (B : Buffer) (t : Byte) (p : Bytes)
    (h : B.len + (wireOf c t p).length ≤ B.cap) :
    encodeInto c B t p =
      (.done, { cells := Memory.store B.cells B.len (wireOf c t p), len := B.len + (wireOf c t p).length, cap := B.cap }) := by
  simp [encodeInto, Buffer.emit_fits B _ h]

/-- `ENCODE` of a frame that does not fit (R92): the length is what it was, and only indices from there up to the
capacity have been written. -/
theorem encodeInto_full (c : Config) (B : Buffer) (t : Byte) (p : Bytes) (hB : B.len ≤ B.cap)
    (h : B.cap < B.len + (wireOf c t p).length) :
    encodeInto c B t p =
      (.capacityExceeded,
        { cells := Memory.store B.cells B.len ((wireOf c t p).take (B.cap - B.len)), len := B.len, cap := B.cap }) := by
  simp [encodeInto, Buffer.emit_full B _ hB h]

/-- The frames of a request that fit together (R139). -/
theorem encodeEach_done (c : Config) (t : Byte) (ps : List Bytes) (B : Buffer)
    (h : B.len + (ps.flatMap (wireOf c t)).length ≤ B.cap) :
    encodeEach c t ps B =
      (.done, { cells := Memory.store B.cells B.len (ps.flatMap (wireOf c t)),
                len := B.len + (ps.flatMap (wireOf c t)).length, cap := B.cap }) := by
  induction ps generalizing B with
  | nil => simp [encodeEach, Memory.store]
  | cons p ps ih =>
    simp only [List.flatMap_cons, List.length_append] at h
    simp only [encodeEach, encodeInto_done c B t p (by omega)]
    rw [ih _ (by simp only; omega)]
    simp only [List.flatMap_cons, List.length_append, Memory.store_append, Nat.add_assoc]

/-- The frames of a request that do not fit together (R141): everything up to the capacity may have been written. -/
theorem encodeEach_full (c : Config) (t : Byte) (ps : List Bytes) (B : Buffer) (hB : B.len ≤ B.cap)
    (h : B.cap < B.len + (ps.flatMap (wireOf c t)).length) :
    ∃ len, encodeEach c t ps B =
      (.capacityExceeded,
        { cells := Memory.store B.cells B.len ((ps.flatMap (wireOf c t)).take (B.cap - B.len)), len := len, cap := B.cap }) := by
  induction ps generalizing B with
  | nil => simp at h; omega
  | cons p ps ih =>
    simp only [List.flatMap_cons, List.length_append] at h
    by_cases hp : B.len + (wireOf c t p).length ≤ B.cap
    · simp only [encodeEach, encodeInto_done c B t p hp]
      obtain ⟨len, hl⟩ := ih { cells := Memory.store B.cells B.len (wireOf c t p),
                               len := B.len + (wireOf c t p).length, cap := B.cap } hp (by simp only; omega)
      refine ⟨len, ?_⟩
      rw [hl]
      simp only [List.flatMap_cons, List.take_append, Memory.store_append, Prod.mk.injEq, true_and, Buffer.mk.injEq, and_true]
      have h1 : (wireOf c t p).take (B.cap - B.len) = wireOf c t p := List.take_of_length_le (by omega)
      rw [h1]
      congr 2; omega
    · refine ⟨B.len, ?_⟩
      simp only [encodeEach, encodeInto_full c B t p hB (by omega)]
      simp only [List.flatMap_cons, Prod.mk.injEq, true_and, Buffer.mk.injEq, and_true]
      rw [List.take_append_of_le_length (by omega)]

end Sys2Proof.Machine
end

