-- ==== Sys2Proof/Laws/Decoder.lean ====
section
/-! SUPPORT. What `DECODE_BYTE` can do, and that the loops which drive `DECODE` handle one byte after the other. -/

namespace Sys2Proof.Machine

/-- `s` with ParserState, and nothing else, taken from `d` (R31). -/
def State.withParser (s d : State) : State := { s with decMode := d.decMode, fbuf := d.fbuf, flen := d.flen }

@[simp] theorem State.withParser_self (s : State) : s.withParser s = s := rfl

/-- The append step on a full frame buffer (R105). -/
theorem appendBody_full {c : Config} {s : State} (v : Byte) (h : s.flen = c.rxFrameCap) :
    appendBody c v s = (.overflow, { s with flen := 0, decMode := .wait }) := by
  have : Buffer.append (s.frameBuffer c) v = none := if_pos h
  simp [appendBody, this]

/-- The append step with room in the frame buffer (R105). -/
theorem appendBody_room {c : Config} {s : State} (v : Byte) (h : s.flen ≠ c.rxFrameCap) :
    appendBody c v s = (.more, { s with fbuf := Memory.write s.fbuf s.flen v, flen := s.flen + 1 }) := by
  have : Buffer.append (s.frameBuffer c) v =
      some { s.frameBuffer c with cells := Memory.write s.fbuf s.flen v, len := s.flen + 1 } := if_neg h
  simp [appendBody, this]

theorem appendBody_withParser (c : Config) (v : Byte) (s d : State) :
    appendBody c v (s.withParser d) = ((appendBody c v d).1, s.withParser (appendBody c v d).2) := by
  by_cases h : d.flen = c.rxFrameCap
  · rw [appendBody_full v h, appendBody_full (s := s.withParser d) v h]; rfl
  · rw [appendBody_room v h, appendBody_room (s := s.withParser d) v h]; rfl

/-- `DECODE_BYTE` reads and writes ParserState only. -/
theorem decodeByte_withParser (c : Config) (b : Byte) (s d : State) :
    decodeByte c b (s.withParser d) = (decodeByte c b d).map (fun x => (x.1, s.withParser x.2)) := by
  unfold decodeByte
  have hm : (s.withParser d).decMode = d.decMode := rfl
  rw [hm]
  cases d.decMode with
  | wait => simp only [decodeWait, Except.map]; split <;> rfl
  | inFrame =>
    simp only [decodeInFrame]
    split
    · simp only [decodeDelim]
      have hl : (s.withParser d).flen = d.flen := rfl
      have hf : (s.withParser d).fbuf = d.fbuf := rfl
      rw [hl, hf]
      split
      · split <;> rfl
      · rfl
    · split
      · rfl
      · rw [appendBody_withParser]; rfl
  | escaped =>
    simp only [decodeEscaped]
    exact congrArg Except.ok (appendBody_withParser c _ s { d with decMode := .inFrame })

/-- What a byte leaves outside ParserState: everything. -/
theorem decodeByte_frame {c : Config} {b : Byte} {s t : State} {r : ByteResult} (h : decodeByte c b s = .ok (r, t)) :
    t = s.withParser t := by
  have := decodeByte_withParser c b s s
  rw [State.withParser_self, h] at this
  simp only [Except.map, Except.ok.injEq, Prod.mk.injEq, true_and] at this
  exact this

/-- Appending a body byte keeps the decoder's invariants. -/
theorem appendBody_inv {c : Config} {v : Byte} {s : State} (h : RxInv c s) (hm : s.decMode ≠ .wait) :
    RxInv c (appendBody c v s).2 := by
  obtain ⟨hwf, hwi, hwr, hle, -⟩ := h
  by_cases hc : s.flen = c.rxFrameCap
  · rw [appendBody_full v hc]
    exact ⟨hwf, hwi, Memory.writtenBelow_zero _, Nat.zero_le _, fun _ => rfl⟩
  · rw [appendBody_room v hc]
    refine ⟨Memory.write_wf hwf _ _, ?_, ?_, by simp only; omega, fun h => absurd h hm⟩
    · exact Memory.within_store (bs := [v]) hwi (by simp only [List.length_singleton]; omega)
    · exact Memory.writtenBelow_store hwr [v]

/-- In a state that meets the decoder's invariants every byte is decoded, and the invariants hold again (R109). -/
theorem decodeByte_ok {c : Config} (b : Byte) {s : State} (h : RxInv c s) :
    ∃ r t, decodeByte c b s = .ok (r, t) ∧ RxInv c t := by
  unfold decodeByte
  cases hm : s.decMode with
  | wait =>
    refine ⟨_, (decodeWait b s).2, rfl, ?_⟩
    unfold decodeWait
    by_cases hb : b = delimByte
    · rw [if_pos hb]
      exact ⟨h.1, h.2, h.3, h.4, fun e => by cases e⟩
    · rw [if_neg hb]
      exact h
  | inFrame =>
    simp only [decodeInFrame]
    split
    · simp only [decodeDelim]
      split
      · obtain ⟨F, hF, -⟩ := Memory.load_isSome (m := s.fbuf) (i := 0) (n := s.flen)
          (fun k hk => by simpa using h.fbuf_written k hk)
        rw [hF]
        exact ⟨_, _, rfl, h.1, h.2, Memory.writtenBelow_zero _, Nat.zero_le _, fun _ => rfl⟩
      · exact ⟨_, _, rfl, h.1, h.2, Memory.writtenBelow_zero _, Nat.zero_le _, fun e => rfl⟩
    · split
      · exact ⟨_, _, rfl, h.1, h.2, h.3, h.4, fun e => by cases e⟩
      · exact ⟨_, _, rfl, appendBody_inv h (by simp [hm])⟩
  | escaped =>
    refine ⟨_, _, rfl, appendBody_inv (s := { s with decMode := .inFrame }) ⟨h.1, h.2, h.3, h.4, fun e => by cases e⟩ ?_⟩
    simp

/-! ### The loops, byte by byte -/

/-- The answer of `DECODE` that a completed or overflowing byte gives. -/
def ByteResult.answers : ByteResult → List DecodeResult
  | .more => []
  | .frame F => [.frame F]
  | .overflow => [.overflow]

/-- One byte through the decoder, and what the router does with the answer. -/
def feedByte (c : Config) (connected : Bool) (b : Byte) (s : State) : Except Fault State :=
  match decodeByte c b s with
  | .error f => .error f
  | .ok (r, s') => .ok (r.answers.foldl (fun s a => onDecoded c connected a s) s')

/-- A byte sequence, one byte after the other. -/
def feedAll (c : Config) (connected : Bool) : Bytes → State → Except Fault State
  | [], s => .ok s
  | b :: rest, s =>
    match feedByte c connected b s with
    | .error f => .error f
    | .ok s' => feedAll c connected rest s'

theorem parseLoop_nil (c : Config) (conn : Bool) (fuel : Nat) (s : State) : parseLoop c conn fuel [] s = .ok s := by
  cases fuel <;> rfl

theorem parseLoop_step (c : Config) (conn : Bool) (fuel : Nat) (bs : Bytes) (s : State) (h : bs.length ≤ fuel + 1) :
    (match decodeBytes c bs s with
      | .error f => .error f
      | .ok (r, n, s') => parseLoop c conn fuel (bs.drop n) (onDecoded c conn r s')) = feedAll c conn bs s := by
  induction bs generalizing fuel s with
  | nil => simp [decodeBytes, feedAll, parseLoop_nil, onDecoded]
  | cons b rest ih =>
    simp only [List.length_cons] at h
    have hrest : ∀ X, parseLoop c conn fuel rest X = feedAll c conn rest X := by
      intro X
      cases rest with
      | nil => simp [parseLoop_nil, feedAll]
      | cons b' rest' =>
        obtain ⟨k, rfl⟩ : ∃ k, fuel = k + 1 := ⟨fuel - 1, by simp at h; omega⟩
        exact ih k X (by simpa using h)
    simp only [decodeBytes, feedAll, feedByte]
    cases hb : decodeByte c b s with
    | error f => rfl
    | ok x =>
      obtain ⟨r, s'⟩ := x
      cases r with
      | frame F => simpa [ByteResult.answers] using hrest _
      | overflow => simpa [ByteResult.answers] using hrest _
      | more =>
        simp only [ByteResult.answers, List.foldl_nil]
        rw [← ih fuel s' (by omega)]
        cases decodeBytes c rest s' with
        | error f => rfl
        | ok y => rfl

/-- The parse loop of R160 handles its bytes one after the other (R167). -/
theorem parseLoop_eq (c : Config) (conn : Bool) {fuel : Nat} {bs : Bytes} (h : bs.length ≤ fuel) (s : State) :
    parseLoop c conn fuel bs s = feedAll c conn bs s := by
  cases bs with
  | nil => simp [parseLoop_nil, feedAll]
  | cons b rest =>
    obtain ⟨k, rfl⟩ : ∃ k, fuel = k + 1 := ⟨fuel - 1, by simp at h; omega⟩
    exact parseLoop_step c conn k (b :: rest) s h

/-- The decoder over a byte sequence, one byte after the other, with its answers. -/
def driveAll (c : Config) : Bytes → State → Except Fault (List DecodeResult × State)
  | [], s => .ok ([], s)
  | b :: rest, s =>
    match decodeByte c b s with
    | .error f => .error f
    | .ok (r, s') =>
      match driveAll c rest s' with
      | .error f => .error f
      | .ok (rs, t) => .ok (r.answers ++ rs, t)

theorem drivePiece_nil (c : Config) (fuel : Nat) (s : State) : drivePiece c fuel [] s = .ok ([], s) := by
  cases fuel <;> rfl

theorem drivePiece_step (c : Config) (fuel : Nat) (bs : Bytes) (s : State) (h : bs.length ≤ fuel + 1) :
    (match decodeBytes c bs s with
      | .error f => .error f
      | .ok (r, n, s') =>
        match drivePiece c fuel (bs.drop n) s' with
        | .error f => .error f
        | .ok (rs, t) => .ok (if r = .needMore then rs else r :: rs, t)) = driveAll c bs s := by
  induction bs generalizing fuel s with
  | nil => simp [decodeBytes, driveAll, drivePiece_nil]
  | cons b rest ih =>
    simp only [List.length_cons] at h
    have hrest : ∀ X, drivePiece c fuel rest X = driveAll c rest X := by
      intro X
      cases rest with
      | nil => simp [drivePiece_nil, driveAll]
      | cons b' rest' =>
        obtain ⟨k, rfl⟩ : ∃ k, fuel = k + 1 := ⟨fuel - 1, by simp at h; omega⟩
        exact ih k X (by simpa using h)
    simp only [decodeBytes, driveAll]
    cases hb : decodeByte c b s with
    | error f => rfl
    | ok x =>
      obtain ⟨r, s'⟩ := x
      cases r with
      | frame F =>
        simp only [List.drop_succ_cons, List.drop_zero, hrest]
        cases driveAll c rest s' <;> simp [ByteResult.answers]
      | overflow =>
        simp only [List.drop_succ_cons, List.drop_zero, hrest]
        cases driveAll c rest s' <;> simp [ByteResult.answers]
      | more =>
        simp only
        rw [← ih fuel s' (by omega)]
        cases decodeBytes c rest s' with
        | error f => rfl
        | ok y =>
          obtain ⟨r, n, s''⟩ := y
          simp only [List.drop_succ_cons]
          cases drivePiece c fuel (rest.drop n) s'' <;> simp [ByteResult.answers]

theorem drivePiece_eq (c : Config) {fuel : Nat} {bs : Bytes} (h : bs.length ≤ fuel) (s : State) :
    drivePiece c fuel bs s = driveAll c bs s := by
  cases bs with
  | nil => simp [drivePiece_nil, driveAll]
  | cons b rest =>
    obtain ⟨k, rfl⟩ : ∃ k, fuel = k + 1 := ⟨fuel - 1, by simp at h; omega⟩
    exact drivePiece_step c k (b :: rest) s h

end Sys2Proof.Machine
end

