-- ==== Sys2Proof/Laws/Wire.lean ====
section
/-! SUPPORT. The laws of the wire format: byte order (R43), escaping (R61, R90), the layout of a frame body (R63), and
what the parser reads from a laid-out body (R121). -/

namespace Sys2Proof.Machine

/-! ### Byte order -/

@[simp] theorem assemble16_lo8_hi8 (v : Word16) : assemble16 (lo8 v) (hi8 v) = v := by
  apply BitVec.eq_of_getLsbD_eq
  intro i hi
  simp only [assemble16, lo8, hi8, BitVec.getLsbD_or, BitVec.truncate_eq_setWidth, BitVec.getLsbD_setWidth,
    BitVec.getLsbD_extractLsb', BitVec.getLsbD_shiftLeft]
  by_cases h : i < 8
  · simp [h, hi]
  · simp [h, hi, show i - 8 < 8 by omega, show 8 + (i - 8) = i by omega]; omega

@[simp] theorem lo8_assemble16 (a b : Byte) : lo8 (assemble16 a b) = a := by
  apply BitVec.eq_of_getLsbD_eq
  intro i hi
  simp only [assemble16, lo8, BitVec.getLsbD_or, BitVec.truncate_eq_setWidth, BitVec.getLsbD_setWidth,
    BitVec.getLsbD_extractLsb', BitVec.getLsbD_shiftLeft]
  simp [hi]
  omega

@[simp] theorem hi8_assemble16 (a b : Byte) : hi8 (assemble16 a b) = b := by
  apply BitVec.eq_of_getLsbD_eq
  intro i hi
  simp only [assemble16, hi8, BitVec.getLsbD_or, BitVec.truncate_eq_setWidth, BitVec.getLsbD_setWidth,
    BitVec.getLsbD_extractLsb', BitVec.getLsbD_shiftLeft]
  have h1 : ¬ (8 + i < 8) := by omega
  have h2 : 8 + i < 16 := by omega
  simp [hi, h1, h2]
  omega

theorem lengthField_toNat {p : Bytes} (h : p.length ≤ maxPayload) : (lengthField p).toNat = p.length := by
  simp only [maxPayload] at h
  simp only [lengthField, BitVec.toNat_ofNat]
  exact Nat.mod_eq_of_lt (by omega)

/-! ### Escaping -/

/-- The three bytes that the encoder escapes (R67). -/
def inEscapeSet (b : Byte) : Prop := b = delimByte ∨ b = escByte ∨ b = stxByte

theorem escapeByte_escaped {b : Byte} (h : inEscapeSet b) : escapeByte b = [escByte, b ^^^ xorMask] := if_pos h

theorem escapeByte_literal {b : Byte} (h : ¬ inEscapeSet b) : escapeByte b = [b] := if_neg h

theorem literal_ne {b : Byte} (h : ¬ inEscapeSet b) : b ≠ delimByte ∧ b ≠ escByte :=
  ⟨fun e => h (Or.inl e), fun e => h (Or.inr (Or.inl e))⟩

theorem xorMask_twice (b : Byte) : b ^^^ xorMask ^^^ xorMask = b := by
  rw [BitVec.xor_assoc, BitVec.xor_self, BitVec.xor_zero]

/-- A byte that is neither delimiter nor escape marker stands for itself (R61). -/
theorem unescape_literal {b : Byte} (h : b ≠ delimByte ∧ b ≠ escByte) (rest : Bytes) :
    unescape (b :: rest) = (unescape rest).map (b :: ·) := by
  cases rest <;> simp [unescape, h.1, h.2]

theorem unescape_pair (x : Byte) (rest : Bytes) :
    unescape (escByte :: x :: rest) = (unescape rest).map ((x ^^^ xorMask) :: ·) := by
  rw [unescape, if_neg (by decide), if_pos rfl]

/-- Undoing the escapes of one body byte, whatever follows (R61, R90). -/
theorem unescape_escapeByte (b : Byte) (rest : Bytes) :
    unescape (escapeByte b ++ rest) = (unescape rest).map (b :: ·) := by
  by_cases h : inEscapeSet b
  · rw [escapeByte_escaped h]
    simp only [List.cons_append, List.nil_append, unescape_pair, xorMask_twice]
  · rw [escapeByte_literal h]
    exact unescape_literal (literal_ne h) rest

/-- Undoing the escapes of a whole body gives the body (R94's last clause). -/
theorem unescape_escapeAll (F : Bytes) : unescape (escapeAll F) = some F := by
  induction F with
  | nil => rfl
  | cons b F ih =>
    simp only [escapeAll, List.flatMap_cons] at ih ⊢
    rw [unescape_escapeByte, ih]; rfl

/-! ### The layout of a frame body -/

section Layout
variable (t : Byte) (len : Word16) (p : Bytes) (crc : Word16)

@[simp] theorem layoutBody_length : (layoutBody t len p crc).length = p.length + overhead := by
  simp [layoutBody, frameHeader, overhead]

@[simp] theorem layoutBody_type : byteAt (layoutBody t len p crc) 0 = t := rfl

@[simp] theorem layoutBody_declaredLength : declaredLength (layoutBody t len p crc) = len.toNat := by
  simp [declaredLength, layoutBody, frameHeader, byteAt]

variable (h : p.length = len.toNat)
include h

theorem layoutBody_payload : bodyPayload (layoutBody t len p crc) len.toNat = p := by
  simp [bodyPayload, slice, layoutBody, frameHeader, ← h]

theorem layoutBody_crcCovers : crcCovers (layoutBody t len p crc) len.toNat = frameHeader t len ++ p := by
  simp only [crcCovers, slice, layoutBody, List.drop_zero, Nat.sub_zero]
  rw [List.take_append_of_le_length (by simp [frameHeader]; omega), List.take_of_length_le]
  simp [frameHeader]; omega

theorem layoutBody_receivedCrc : receivedCrc (layoutBody t len p crc) len.toNat = crc := by
  have hl : (frameHeader t len ++ p).length = 3 + len.toNat := by simp [frameHeader]; omega
  have h0 : byteAt (layoutBody t len p crc) (3 + len.toNat) = lo8 crc := by
    simp only [byteAt, layoutBody, List.getD_eq_getElem?_getD]
    rw [List.getElem?_append_right (by omega), hl]
    simp
  have h1 : byteAt (layoutBody t len p crc) (4 + len.toNat) = hi8 crc := by
    simp only [byteAt, layoutBody, List.getD_eq_getElem?_getD]
    rw [List.getElem?_append_right (by omega), hl, show 4 + len.toNat - (3 + len.toNat) = 1 by omega]
    simp
  rw [receivedCrc, h0, h1, assemble16_lo8_hi8]

theorem layoutBody_lengthOk : lengthOk (layoutBody t len p crc) = true := by
  simp [lengthOk, h]

/-- What the parser makes of a body whose declared length is right (R121, R123). -/
theorem parseBody_layout (c : Config) :
    parseBody c (layoutBody t len p crc) =
      if c.crc16 (frameHeader t len ++ p) = crc then .ok t p (classifyByte c t) else .crcFail t p := by
  simp only [parseBody, layoutBody_lengthOk t len p crc h, crcOk, layoutBody_declaredLength,
    layoutBody_crcCovers t len p crc h, layoutBody_receivedCrc t len p crc h, layoutBody_payload t len p crc h,
    layoutBody_type, if_true, decide_eq_true_eq]

end Layout

/-- The parser accepts what the encoder lays out (R95). -/
theorem parseBody_bodyOf (c : Config) (t : Byte) {p : Bytes} (h : p.length ≤ maxPayload) :
    parseBody c (bodyOf c t p) = .ok t p (classifyByte c t) := by
  rw [bodyOf, parseBody_layout _ _ _ _ (lengthField_toNat h).symm, if_pos rfl]

/-- Every body that passes the length check is laid out as R63 says. -/
theorem lengthOk_layout {F : Bytes} (h : lengthOk F = true) :
    ∃ t len p crc, F = layoutBody t len p crc ∧ p.length = len.toNat := by
  simp only [lengthOk, Bool.and_eq_true, decide_eq_true_eq] at h
  obtain ⟨h5, hL⟩ := h
  match F, h5 with
  | t :: lo :: hi :: rest, h5 =>
    have hd : declaredLength (t :: lo :: hi :: rest) = (assemble16 lo hi).toNat := rfl
    rw [hd] at hL
    simp only [List.length_cons, overhead] at hL h5
    set L := (assemble16 lo hi).toNat with hLdef
    have hr : rest = rest.take L ++ rest.drop L := (List.take_append_drop L rest).symm
    have hdl : (rest.drop L).length = 2 := by simp; omega
    match hx : rest.drop L, hdl with
    | [a, b], _ =>
      refine ⟨t, assemble16 lo hi, rest.take L, assemble16 a b, ?_, ?_⟩
      · simp only [layoutBody, frameHeader, lo8_assemble16, hi8_assemble16]
        conv_lhs => rw [hr, hx]
        simp
      · simp; omega

/-- A body that fails the length check is garbage (R122). -/
theorem parseBody_garbage {c : Config} {F : Bytes} (h : lengthOk F = false) : parseBody c F = .garbage := by
  simp [parseBody, h]

/-! ### The decoder on what the encoder writes -/

/-- In mode `IN_FRAME` the escaped form of one body byte is appended as that byte (R105, R106). -/
theorem driveAll_escapeByte {c : Config} {s : State} (hm : s.decMode = .inFrame) (hr : s.flen < c.rxFrameCap)
    (b : Byte) (rest : Bytes) :
    driveAll c (escapeByte b ++ rest) s =
      driveAll c rest { s with fbuf := Memory.write s.fbuf s.flen b, flen := s.flen + 1 } := by
  by_cases h : inEscapeSet b
  · rw [escapeByte_escaped h]
    have h1 : decodeByte c escByte s = .ok (.more, { s with decMode := .escaped }) := by
      simp only [decodeByte, hm, decodeInFrame]; rw [if_neg (by decide), if_pos trivial]
    have h2 : decodeByte c (b ^^^ xorMask) { s with decMode := .escaped } =
        .ok (.more, { s with fbuf := Memory.write s.fbuf s.flen b, flen := s.flen + 1 }) := by
      simp only [decodeByte, decodeEscaped, xorMask_twice]
      rw [appendBody_room b (by simp only; omega)]
      obtain ⟨⟩ := s; simp only at hm; subst hm; rfl
    simp only [List.cons_append, List.nil_append, driveAll, h1, h2, ByteResult.answers]
    cases driveAll c rest { s with fbuf := Memory.write s.fbuf s.flen b, flen := s.flen + 1 } <;> rfl
  · rw [escapeByte_literal h]
    have hb := literal_ne h
    have h1 : decodeByte c b s = .ok (.more, { s with fbuf := Memory.write s.fbuf s.flen b, flen := s.flen + 1 }) := by
      simp only [decodeByte, hm, decodeInFrame, if_neg hb.1, if_neg hb.2]
      rw [appendBody_room b (by omega), hm]
    simp only [List.cons_append, List.nil_append, driveAll, h1, ByteResult.answers]
    cases driveAll c rest { s with fbuf := Memory.write s.fbuf s.flen b, flen := s.flen + 1 } <;> rfl

/-- In mode `IN_FRAME` the escaped form of a body that fits is appended as that body. -/
theorem driveAll_escapeAll {c : Config} {s : State} (hm : s.decMode = .inFrame) (F : Bytes)
    (hr : s.flen + F.length ≤ c.rxFrameCap) (rest : Bytes) :
    driveAll c (escapeAll F ++ rest) s =
      driveAll c rest { s with fbuf := Memory.store s.fbuf s.flen F, flen := s.flen + F.length } := by
  induction F generalizing s with
  | nil => rfl
  | cons b F ih =>
    simp only [List.length_cons] at hr
    simp only [escapeAll, List.flatMap_cons, List.append_assoc]
    rw [driveAll_escapeByte hm (by omega)]
    have := @ih { s with fbuf := Memory.write s.fbuf s.flen b, flen := s.flen + 1 } hm (by simp only; omega)
    simp only [escapeAll] at this
    rw [this]
    simp only [Memory.store, List.length_cons, Nat.add_assoc, Nat.add_comm 1]

/-- A whole wire frame, from mode `WAIT`: exactly one frame, its body, and the decoder back in `WAIT` (R103). -/
theorem driveAll_wireOfBody {c : Config} {s : State} (hm : s.decMode = .wait) (h0 : s.flen = 0) (F : Bytes)
    (h3 : minComplete ≤ F.length) (hr : F.length ≤ c.rxFrameCap) (rest : Bytes) :
    driveAll c (wireOfBody F ++ rest) s =
      (driveAll c rest { s with fbuf := Memory.store s.fbuf 0 F }).map (fun x => (.frame F :: x.1, x.2)) := by
  obtain ⟨dm, fb, fl, _⟩ := s
  simp only at hm h0
  subst hm h0
  simp only [wireOfBody, List.cons_append, List.append_assoc, List.nil_append]
  simp only [driveAll, decodeByte, decodeWait, if_true, ByteResult.answers, List.nil_append]
  rw [driveAll_escapeAll rfl F (by simpa using hr)]
  simp only [driveAll, decodeByte, decodeInFrame, if_true, decodeDelim, Nat.zero_add]
  rw [if_pos h3, Memory.load_store]
  simp only [ByteResult.answers, List.cons_append, List.nil_append]
  cases driveAll c rest _ <;> rfl

end Sys2Proof.Machine
end

