-- ==== Sys2Proof/Laws/Rx.lean ====
section
/-! SUPPORT. What the receive path can do: it changes ParserState and appends to the trace, and reads nothing else
(R28, R161). -/

namespace Sys2Proof.Machine

/-- `s` with ParserState and the trace taken from `d`: what the receive path reads and writes. -/
def State.withReceived (s d : State) : State :=
  { s with decMode := d.decMode, fbuf := d.fbuf, flen := d.flen, trace := d.trace }

@[simp] theorem State.withReceived_self (s : State) : s.withReceived s = s := rfl

/-- Everything that routing a packet can do: append those effects (R169: "No case changes any state of the block"). -/
theorem route_eq (c : Config) (pkt : Packet) (conn : Bool) (s : State) :
    route c pkt conn s = { s with trace := s.trace ++ routeEffects c conn pkt } := by
  cases pkt with
  | garbage => simp [route, routeEffects]
  | crcFail t p => simp [route, routeEffects, State.emit]
  | ok t p k => cases k <;> cases conn <;> simp [route, routeEffects, State.emit]

/-- The effects of one answer of `DECODE` in the parse loop. -/
def answerEffects (c : Config) (connected : Bool) : DecodeResult → List Effect
  | .frame F => routeEffects c connected (parseBody c F)
  | .overflow => [.diag .rxOverflow]
  | .needMore => []

theorem onDecoded_eq (c : Config) (conn : Bool) (r : DecodeResult) (s : State) :
    onDecoded c conn r s = { s with trace := s.trace ++ answerEffects c conn r } := by
  cases r <;> simp [onDecoded, answerEffects, route_eq, State.emit]

/-- No effect of the receive path is a transmission or arms the timer. -/
theorem answerEffects_quiet (c : Config) (conn : Bool) (r : DecodeResult) :
    ∀ e ∈ answerEffects c conn r, e.isUartTx = false ∧ e.isTimerArm = false := by
  intro e he
  cases r with
  | needMore => simp [answerEffects] at he
  | overflow => simp [answerEffects] at he; subst he; exact ⟨rfl, rfl⟩
  | frame F =>
    simp only [answerEffects] at he
    generalize parseBody c F = pkt at he
    cases pkt with
    | garbage => simp [routeEffects] at he
    | crcFail t p => simp [routeEffects] at he; subst he; exact ⟨rfl, rfl⟩
    | ok t p k =>
      cases k <;> cases conn <;> simp [routeEffects] at he <;> (subst he; exact ⟨rfl, rfl⟩)

/-- The effects of the answers that one byte gives. -/
def byteEffects (c : Config) (connected : Bool) (r : ByteResult) : List Effect :=
  r.answers.flatMap (answerEffects c connected)

/-- One byte of the receive path: through the decoder, and the effects of its answer. -/
theorem feedByte_eq (c : Config) (conn : Bool) (b : Byte) (s : State) :
    feedByte c conn b s =
      (decodeByte c b s).map (fun x => { x.2 with trace := x.2.trace ++ byteEffects c conn x.1 }) := by
  unfold feedByte
  cases decodeByte c b s with
  | error f => rfl
  | ok x =>
    obtain ⟨r, t⟩ := x
    cases r <;> simp [ByteResult.answers, byteEffects, onDecoded_eq, Except.map]

theorem feedByte_withReceived (c : Config) (conn : Bool) (b : Byte) (s d : State) :
    feedByte c conn b (s.withReceived d) = (feedByte c conn b d).map s.withReceived := by
  have h : s.withReceived d = ({ s with trace := d.trace } : State).withParser d := rfl
  rw [feedByte_eq, feedByte_eq, h, decodeByte_withParser]
  cases hd : decodeByte c b d with
  | error f => rfl
  | ok x =>
    obtain ⟨r, t⟩ := x
    have ht := decodeByte_frame hd
    simp only [Except.map, Except.ok.injEq]
    rw [ht]; rfl

/-- The receive path reads and writes ParserState and the trace only. -/
theorem feedAll_withReceived (c : Config) (conn : Bool) (bs : Bytes) (s d : State) :
    feedAll c conn bs (s.withReceived d) = (feedAll c conn bs d).map s.withReceived := by
  induction bs generalizing d with
  | nil => rfl
  | cons b bs ih =>
    simp only [feedAll, feedByte_withReceived]
    cases feedByte c conn b d with
    | error f => rfl
    | ok t => exact ih t

theorem feedAll_frame {c : Config} {conn : Bool} {bs : Bytes} {s t : State} (h : feedAll c conn bs s = .ok t) :
    t = s.withReceived t := by
  have := feedAll_withReceived c conn bs s s
  rw [State.withReceived_self, h] at this
  simpa [Except.map] using this

theorem feedAll_append (c : Config) (conn : Bool) (xs ys : Bytes) (s : State) :
    feedAll c conn (xs ++ ys) s = (feedAll c conn xs s).bind (feedAll c conn ys) := by
  induction xs generalizing s with
  | nil => rfl
  | cons x xs ih =>
    simp only [List.cons_append, feedAll]
    cases feedByte c conn x s with
    | error f => rfl
    | ok t => exact ih t

/-- In a state that meets the decoder's invariants the receive path goes through, keeps them, and only adds effects
that neither transmit nor arm the timer. -/
theorem feedAll_ok {c : Config} (conn : Bool) (bs : Bytes) {s : State} (h : RxInv c s) :
    ∃ t, feedAll c conn bs s = .ok t ∧ RxInv c t ∧
      ∃ new, t.trace = s.trace ++ new ∧ ∀ e ∈ new, e.isUartTx = false ∧ e.isTimerArm = false := by
  induction bs generalizing s with
  | nil => exact ⟨s, rfl, h, [], by simp, by simp⟩
  | cons b bs ih =>
    obtain ⟨r, u, hu, hi⟩ := decodeByte_ok b h
    have hb : feedByte c conn b s = .ok { u with trace := u.trace ++ byteEffects c conn r } := by
      rw [feedByte_eq, hu]; rfl
    obtain ⟨t, ht, hti, new, hn, hq⟩ := @ih { u with trace := u.trace ++ byteEffects c conn r } ⟨hi.1, hi.2, hi.3, hi.4, hi.5⟩
    refine ⟨t, by simp only [feedAll, hb, ht], hti, byteEffects c conn r ++ new, ?_, ?_⟩
    · have hs : u.trace = s.trace := by rw [decodeByte_frame hu]; rfl
      rw [hn, hs, List.append_assoc]
    · intro e he
      rcases List.mem_append.mp he with he | he
      · simp only [byteEffects, List.mem_flatMap] at he
        obtain ⟨a, -, ha⟩ := he
        exact answerEffects_quiet c conn a e ha
      · exact hq e he

/-- An over-threshold notification: the bytes are lost, the valve is closed (R163, R164). -/
theorem receive_over {c : Config} {used max : Nat} (ho : overThreshold used max = true) (bs : Bytes) (conn : Bool)
    (s : State) : receive c bs used max conn s = .ok { closeValve c s with scratch := [] } := by
  simp only [receive, bpCheck, ho, if_true]
  cases hr : s.rxTimerArmed <;> simp [closeValve, hr, State.fillScratch, State.dropScratch, State.emit]

/-- An under-threshold notification: the bytes go through the receive path, one after the other (R160, R167). -/
theorem receive_under {c : Config} {used max : Nat} (ho : overThreshold used max = false) (bs : Bytes) (conn : Bool)
    (s : State) :
    receive c bs used max conn s = (feedAll c conn bs s).map State.dropScratch := by
  simp only [receive, bpCheck, ho]
  have hl : Memory.load (s.fillScratch bs).scratch 0 bs.length = some bs := Memory.load_store s.scratch 0 bs
  simp only [Bool.false_eq_true, if_false, hl, parseLoop_eq c conn (le_refl bs.length)]
  have h := feedAll_withReceived c conn bs (s.fillScratch bs) s
  have h2 : (s.fillScratch bs).withReceived s = s.fillScratch bs := rfl
  rw [h2] at h
  rw [h]
  cases hf : feedAll c conn bs s with
  | error f => rfl
  | ok t =>
    simp only [Except.map, Except.ok.injEq]
    rw [feedAll_frame hf]; rfl

/-- Bytes received one notification each (R79's `FEED1`) go through the receive path like one burst (R111). -/
theorem receiveEach_eq (c : Config) (conn : Bool) (bs : Bytes) {s : State} (hs : s.scratch = []) :
    receiveEach c conn bs s = feedAll c conn bs s := by
  induction bs generalizing s with
  | nil => rfl
  | cons b bs ih =>
    have hb : receive c [b] 0 1 conn s = feedByte c conn b s := by
      rw [receive_under (by decide)]
      simp only [feedAll]
      cases hf : feedByte c conn b s with
      | error f => rfl
      | ok t =>
        have ht : t.scratch = [] := by
          have : feedAll c conn [b] s = .ok t := by simp [feedAll, hf]
          rw [feedAll_frame this]; exact hs
        simp only [Except.map, Except.ok.injEq, State.dropScratch]
        rw [← ht]
    simp only [receiveEach, hb, feedAll]
    cases hf : feedByte c conn b s with
    | error f => rfl
    | ok t =>
      have ht : t.scratch = [] := by
        have : feedAll c conn [b] s = .ok t := by simp [feedAll, hf]
        rw [feedAll_frame this]; exact hs
      exact ih ht

end Sys2Proof.Machine
end

