-- ==== Sys2Proof/Laws/Tx.lean ====
section
/-! SUPPORT. What `SendNow` can do: it sends the whole request, or refuses it and leaves an empty transmit buffer
(R137, R141). -/

namespace Sys2Proof.Machine

theorem framePayloads_control (c : Config) (p : Bytes) : framePayloads c (c.typeByte .control) p = [p] := if_pos rfl

theorem framePayloads_bleData (c : Config) (p : Bytes) : framePayloads c (c.typeByte .bleData) p = chunks p :=
  if_neg (fun h => by simpa using c.typeByte_injective h)

/-- A request that has wire bytes has no defect, and those bytes are its frames' (R138, R139). -/
theorem requestWire_ok {c : Config} {t : Byte} {p W : Bytes} (h : requestWire c t p = .ok W) :
    sendDefect c t p = none ∧ (framePayloads c t p).flatMap (wireOf c t) = W ∧ W.length ≤ c.txBufCap := by
  unfold requestWire at h
  by_cases hc : t = c.typeByte .control
  · subst hc
    rw [if_pos rfl] at h
    split at h
    · rename_i hl
      cases h
      refine ⟨by simp [sendDefect, typeTransmits], by simp [framePayloads_control], hl⟩
    · cases h
  · rw [if_neg hc] at h
    split at h
    · rename_i hb
      subst hb
      split at h
      · cases h
      · rename_i hl
        simp only at h
        split at h
        · rename_i hW
          cases h
          push Not at hl
          exact ⟨by simp [sendDefect, typeTransmits, hc, bleLengthOk, hl.1, hl.2], by rw [framePayloads_bleData], hW⟩
        · cases h
    · cases h

/-- A request with a defect found before encoding. -/
theorem requestWire_error {c : Config} {t : Byte} {p : Bytes} {e : ErrorOutcome} (h : requestWire c t p = .error e) :
    sendDefect c t p = some e ∨
      (sendDefect c t p = none ∧ e = .capacityExceeded ∧
        c.txBufCap < ((framePayloads c t p).flatMap (wireOf c t)).length) := by
  unfold requestWire at h
  by_cases hc : t = c.typeByte .control
  · subst hc
    rw [if_pos rfl] at h
    split at h
    · cases h
    · rename_i hl
      cases h
      right
      refine ⟨by simp [sendDefect, typeTransmits], rfl, by simpa [framePayloads_control] using hl⟩
  · rw [if_neg hc] at h
    split at h
    · rename_i hb
      subst hb
      split at h
      · rename_i hl
        cases h
        left
        simp only [sendDefect, typeTransmits, hc, decide_false, decide_true, Bool.false_or, if_true, if_false, bleLengthOk]
        rcases hl with hl | hl <;> simp [hl]
      · rename_i hl
        simp only at h
        split at h
        · cases h
        · rename_i hW
          cases h
          push Not at hl
          right
          exact ⟨by simp [sendDefect, typeTransmits, hc, bleLengthOk, hl.1, hl.2], rfl, by
            rw [framePayloads_bleData]; omega⟩
    · rename_i hb
      cases h
      left
      simp [sendDefect, typeTransmits, hc, hb]

/-- A request that has wire bytes is sent (R137). -/
theorem sendNow_sent {c : Config} {t : Byte} {p W : Bytes} (h : requestWire c t p = .ok W) (s : State) :
    sendNow c t p s =
      .ok (none, { s with txbuf := Memory.store s.txbuf 0 W, txlen := W.length, trace := s.trace ++ [.uartTx W],
                          txState := .busy }) := by
  obtain ⟨hd, hW, hl⟩ := requestWire_ok h
  have he := encodeEach_done c t (framePayloads c t p) ({ s with txlen := 0 }.txBuffer c) (by simpa [hW] using hl)
  simp only [hW, State.txBuffer_len, State.txBuffer_cells, Nat.zero_add] at he
  simp only [sendNow, hd, he, submit, State.setTxBuffer, Memory.load_store]
  rfl

/-- A request that is an error is refused with it; the transmit buffer is empty then, whatever has been written into it
(R141). -/
theorem sendNow_refused {c : Config} {t : Byte} {p : Bytes} {e : ErrorOutcome} (h : requestWire c t p = .error e)
    (s : State) :
    ∃ junk : Bytes, junk.length ≤ c.txBufCap ∧
      sendNow c t p s = .ok (some e, { s with txbuf := Memory.store s.txbuf 0 junk, txlen := 0 }) := by
  rcases requestWire_error h with hd | ⟨hd, rfl, hl⟩
  · exact ⟨[], Nat.zero_le _, by simp only [sendNow, hd]; rfl⟩
  · obtain ⟨len, he⟩ := encodeEach_full c t (framePayloads c t p) ({ s with txlen := 0 }.txBuffer c)
      (Nat.zero_le _) (by simpa using hl)
    simp only [State.txBuffer_cells, State.txBuffer_len, State.txBuffer_cap, Nat.sub_zero] at he
    exact ⟨((framePayloads c t p).flatMap (wireOf c t)).take c.txBufCap, List.length_take_le _ _, by
      simp only [sendNow, hd, he]; rfl⟩

/-- Storing into an empty transmit buffer keeps the transmitter's invariants but for the two that name the queue. -/
theorem txbuf_store_inv {c : Config} {s : State} (h : TxInv c s) {bs : Bytes} (hb : bs.length ≤ c.txBufCap) :
    Memory.wf (Memory.store s.txbuf 0 bs) ∧ Memory.within (Memory.store s.txbuf 0 bs) c.txBufCap ∧
      Memory.writtenBelow (Memory.store s.txbuf 0 bs) bs.length :=
  ⟨Memory.store_wf h.txbuf_wf _ _, Memory.within_store h.txbuf_within (by omega), by
    simpa using Memory.writtenBelow_store (Memory.writtenBelow_zero s.txbuf) bs⟩

end Sys2Proof.Machine
end

