-- ==== Sys2Proof/Laws/Boot.lean ====
section
/-! SUPPORT. What the polling of a blocking exchange can do (R247). -/

namespace Sys2Proof.Machine

/-- The effects of one answer of `DECODE` that is not the reply (R247 point (f)). -/
def polledEffects (c : Config) : DecodeResult → List Effect
  | .frame F =>
    match parseBody c F with
    | .crcFail _ _ => [.diag .crcError]
    | .garbage => []
    | .ok _ _ _ => []
  | .overflow => [.diag .rxOverflow]
  | .needMore => []

theorem onPolled_eq (c : Config) (r : DecodeResult) (s : State) :
    onPolled c r s = { s with trace := s.trace ++ polledEffects c r } := by
  cases r with
  | frame F =>
    simp only [onPolled, polledEffects]
    cases parseBody c F <;> simp [State.emit]
  | overflow => simp [onPolled, polledEffects, State.emit]
  | needMore => simp [onPolled, polledEffects]

/-- The polling of a byte sequence, one byte after the other. -/
def pollAll (c : Config) (expect : Byte) : Bytes → State → Except Fault (Option Bytes × State)
  | [], s => .ok (none, s)
  | b :: rest, s =>
    match decodeByte c b s with
    | .error f => .error f
    | .ok (r, s') =>
      match r.answers with
      | [] => pollAll c expect rest s'
      | a :: _ =>
        match replyIn c expect a with
        | some p => .ok (some p, s')
        | none => pollAll c expect rest (onPolled c a s')

theorem pollLoop_nil (c : Config) (e : Byte) (fuel : Nat) (s : State) : pollLoop c e fuel [] s = .ok (none, s) := by
  cases fuel <;> rfl

theorem pollLoop_step (c : Config) (e : Byte) (fuel : Nat) (bs : Bytes) (s : State) (h : bs.length ≤ fuel + 1) :
    (match decodeBytes c bs s with
      | .error f => .error f
      | .ok (r, n, s') =>
        match replyIn c e r with
        | some p => .ok (some p, s')
        | none => pollLoop c e fuel (bs.drop n) (onPolled c r s')) = pollAll c e bs s := by
  induction bs generalizing fuel s with
  | nil => simp [decodeBytes, pollAll, pollLoop_nil, replyIn, onPolled]
  | cons b rest ih =>
    simp only [List.length_cons] at h
    have hrest : ∀ X, pollLoop c e fuel rest X = pollAll c e rest X := by
      intro X
      cases rest with
      | nil => simp [pollLoop_nil, pollAll]
      | cons b' rest' =>
        obtain ⟨k, rfl⟩ : ∃ k, fuel = k + 1 := ⟨fuel - 1, by simp at h; omega⟩
        exact ih k X (by simpa using h)
    simp only [decodeBytes, pollAll]
    cases hb : decodeByte c b s with
    | error f => rfl
    | ok x =>
      obtain ⟨r, s'⟩ := x
      cases r with
      | frame F => simp only [ByteResult.answers, List.drop_succ_cons, List.drop_zero, hrest]
      | overflow => simp only [ByteResult.answers, List.drop_succ_cons, List.drop_zero, hrest]
      | more =>
        simp only [ByteResult.answers]
        rw [← ih fuel s' (by omega)]
        cases decodeBytes c rest s' with
        | error f => rfl
        | ok y => rfl

/-- A polling iteration handles its bytes one after the other. -/
theorem pollLoop_eq (c : Config) (e : Byte) {fuel : Nat} {bs : Bytes} (h : bs.length ≤ fuel) (s : State) :
    pollLoop c e fuel bs s = pollAll c e bs s := by
  cases bs with
  | nil => simp [pollLoop_nil, pollAll]
  | cons b rest =>
    obtain ⟨k, rfl⟩ : ∃ k, fuel = k + 1 := ⟨fuel - 1, by simp at h; omega⟩
    exact pollLoop_step c e k (b :: rest) s h

/-- The polling reads and writes ParserState and the trace only. -/
theorem pollAll_withReceived (c : Config) (e : Byte) (bs : Bytes) (s d : State) :
    pollAll c e bs (s.withReceived d) = (pollAll c e bs d).map (fun x => (x.1, s.withReceived x.2)) := by
  induction bs generalizing d with
  | nil => rfl
  | cons b bs ih =>
    have h : s.withReceived d = ({ s with trace := d.trace } : State).withParser d := rfl
    simp only [pollAll]
    rw [h, decodeByte_withParser]
    cases hd : decodeByte c b d with
    | error f => rfl
    | ok x =>
      obtain ⟨r, t⟩ := x
      have ht := decodeByte_frame hd
      have h2 : ({ s with trace := d.trace } : State).withParser t = s.withReceived t := by rw [ht]; rfl
      simp only [Except.map, h2]
      cases hr : r.answers with
      | nil => exact ih t
      | cons a l =>
        simp only
        cases replyIn c e a with
        | some p => rfl
        | none =>
          have h3 : onPolled c a (s.withReceived t) = s.withReceived (onPolled c a t) := by
            rw [onPolled_eq, onPolled_eq]; rfl
          simp only [h3]
          exact ih _

theorem pollAll_frame {c : Config} {e : Byte} {bs : Bytes} {s t : State} {p : Option Bytes}
    (h : pollAll c e bs s = .ok (p, t)) : t = s.withReceived t := by
  have := pollAll_withReceived c e bs s s
  rw [State.withReceived_self, h] at this
  simpa [Except.map] using this

/-- One read of the busy-poll. -/
theorem pollRead_eq (c : Config) (e : Byte) (bs : Bytes) (s : State) :
    pollRead c e bs s = (pollAll c e bs s).map (fun x => (x.1, x.2.dropScratch)) := by
  simp only [pollRead]
  have hl : Memory.load (s.fillScratch bs).scratch 0 bs.length = some bs := Memory.load_store s.scratch 0 bs
  rw [hl]
  simp only [pollLoop_eq c e (le_refl bs.length)]
  have h := pollAll_withReceived c e bs (s.fillScratch bs) s
  have h2 : (s.fillScratch bs).withReceived s = s.fillScratch bs := rfl
  rw [h2] at h
  rw [h]
  cases hf : pollAll c e bs s with
  | error f => rfl
  | ok x =>
    obtain ⟨p, t⟩ := x
    simp only [Except.map, Except.ok.injEq, Prod.mk.injEq, true_and]
    rw [pollAll_frame hf]; rfl

/-- In a state that meets the decoder's invariants the polling goes through and keeps them, and only adds effects that
neither transmit nor arm the timer. -/
theorem pollAll_ok {c : Config} (e : Byte) (bs : Bytes) {s : State} (h : RxInv c s) :
    ∃ p t, pollAll c e bs s = .ok (p, t) ∧ RxInv c t ∧
      ∃ new, t.trace = s.trace ++ new ∧ ∀ e ∈ new, e.isUartTx = false ∧ e.isTimerArm = false := by
  induction bs generalizing s with
  | nil => exact ⟨none, s, rfl, h, [], by simp, by simp⟩
  | cons b bs ih =>
    obtain ⟨r, u, hu, hi⟩ := decodeByte_ok b h
    have hs : u.trace = s.trace := by rw [decodeByte_frame hu]; rfl
    simp only [pollAll, hu]
    cases hr : r.answers with
    | nil =>
      obtain ⟨p, t, ht, hti, new, hn, hq⟩ := ih hi
      exact ⟨p, t, ht, hti, new, by rw [hn, hs], hq⟩
    | cons a l =>
      simp only
      cases hp : replyIn c e a with
      | some p => exact ⟨some p, u, rfl, hi, [], by simp [hs], by simp⟩
      | none =>
        rw [onPolled_eq]
        obtain ⟨p, t, ht, hti, new, hn, hq⟩ := @ih { u with trace := u.trace ++ polledEffects c a } ⟨hi.1, hi.2, hi.3, hi.4, hi.5⟩
        refine ⟨p, t, ht, hti, polledEffects c a ++ new, by rw [hn, hs, List.append_assoc], ?_⟩
        intro x hx
        rcases List.mem_append.mp hx with hx | hx
        · cases a with
          | needMore => simp [polledEffects] at hx
          | overflow => simp [polledEffects] at hx; subst hx; exact ⟨rfl, rfl⟩
          | frame F =>
            simp only [polledEffects] at hx
            cases hF : parseBody c F <;> rw [hF] at hx <;> simp at hx
            subst hx; exact ⟨rfl, rfl⟩
        · exact hq x hx

end Sys2Proof.Machine
end

