-- ==== Sys2Proof/Laws/PerInstr.lean ====
section
/-! SUPPORT. A family of statements about every instruction as syntax: its code has the row format that
spec/opcode_table.json gives it (R76, R77), whatever the configuration. -/

namespace Sys2Proof.Laws

/-- The row formats of the opcode table (R76). -/
inductive RowFormat where
  | wireByte | wirePair | frameBody | wireFrame | typeByte | operation | ctrlOpcode
deriving DecidableEq, Repr

/-- The row format that a code has, if it has one. -/
def codeFormat : Code → Option RowFormat
  | .bits n _ _ => if n = 8 then some .wireByte else if n = 16 then some .wirePair else none
  | .body _ _ => some .frameBody
  | .frame _ _ => some .wireFrame
  | .typed _ _ => some .typeByte
  | .command _ _ => some .ctrlOpcode
  | .line _ => some .operation
  | .reply _ => some .operation

/-- The row format of each instruction, as the table has it. -/
def rowFormat : Instr → RowFormat
  | .delim _ => .wireByte
  | .esc _ => .wireByte
  | .lit _ _ => .wireByte
  | .escPair7E _ => .wirePair
  | .escPair7D _ => .wirePair
  | .escPair02 _ => .wirePair
  | .escPairAny _ _ => .wirePair
  | .frameBody _ _ _ _ _ => .frameBody
  | .wireFrame _ _ => .wireFrame
  | .typeAck _ => .typeByte
  | .typeNak _ => .typeByte
  | .typeBleData _ => .typeByte
  | .typeControl _ => .typeByte
  | .typePing _ => .typeByte
  | .typeOther _ _ => .typeByte
  | .reset => .operation
  | .start => .operation
  | .send _ _ => .operation
  | .txComplete => .operation
  | .rxReady _ _ _ _ => .operation
  | .timerFire => .operation
  | .syncXchg _ _ _ => .operation
  | .escape _ => .operation
  | .encode _ _ _ => .operation
  | .crc16 _ => .operation
  | .decodeByte _ => .operation
  | .decode _ => .operation
  | .parse _ => .operation
  | .classify _ => .operation
  | .bpCheck _ _ => .operation
  | .route _ _ => .operation
  | .drain => .operation
  | .ctrlDeviceName _ _ => .ctrlOpcode
  | .ctrlBondDbGet _ _ => .ctrlOpcode
  | .ctrlBondDbSet _ _ => .ctrlOpcode
  | .ctrlPairingCode _ _ => .ctrlOpcode
  | .ctrlBleStatus _ _ => .ctrlOpcode
  | .ctrlIrk _ _ => .ctrlOpcode
  | .ctrlProductString _ _ => .ctrlOpcode
  | .ctrlChipReset _ _ => .ctrlOpcode
  | .ctrlIdentityAddress _ _ => .ctrlOpcode
  | .ctrlPairingSuccessful _ _ => .ctrlOpcode
  | .ctrlTkConfirm _ _ => .ctrlOpcode
  | .ctrlBleEnabled _ _ => .ctrlOpcode
  | .ctrlTxPower _ _ => .ctrlOpcode
  | .ctrlDebugString _ _ => .ctrlOpcode

namespace CodeFormat

/-- The code of an instruction has the row format that the table gives the instruction. -/
def Statement (i : Instr) : Prop := ∀ c : Config, codeFormat (encode c i) = some (rowFormat i)

theorem delim (connected : Bool) : Statement (.delim connected) := fun _ => rfl
theorem esc (connected : Bool) : Statement (.esc connected) := fun _ => rfl
theorem lit (b : Byte) (connected : Bool) : Statement (.lit b connected) := fun _ => rfl
theorem escPair7E (connected : Bool) : Statement (.escPair7E connected) := fun _ => rfl
theorem escPair7D (connected : Bool) : Statement (.escPair7D connected) := fun _ => rfl
theorem escPair02 (connected : Bool) : Statement (.escPair02 connected) := fun _ => rfl
theorem escPairAny (x : Byte) (connected : Bool) : Statement (.escPairAny x connected) := fun _ => rfl
theorem frameBody (type : Byte) (length : Word16) (payload : Bytes) (crc : Word16) (connected : Bool) : Statement (.frameBody type length payload crc connected) := fun _ => rfl
theorem wireFrame (body : Bytes) (connected : Bool) : Statement (.wireFrame body connected) := fun _ => rfl
theorem typeAck (use : TypeUse) : Statement (.typeAck use) := fun _ => rfl
theorem typeNak (use : TypeUse) : Statement (.typeNak use) := fun _ => rfl
theorem typeBleData (use : TypeUse) : Statement (.typeBleData use) := fun _ => rfl
theorem typeControl (use : TypeUse) : Statement (.typeControl use) := fun _ => rfl
theorem typePing (use : TypeUse) : Statement (.typePing use) := fun _ => rfl
theorem typeOther (type : Byte) (use : TypeUse) : Statement (.typeOther type use) := fun _ => rfl
theorem reset : Statement (.reset) := fun _ => rfl
theorem start : Statement (.start) := fun _ => rfl
theorem send (type : Byte) (payload : Bytes) : Statement (.send type payload) := fun _ => rfl
theorem txComplete : Statement (.txComplete) := fun _ => rfl
theorem rxReady (bytes : Bytes) (memUsed : Nat) (memMax : Nat) (connected : Bool) : Statement (.rxReady bytes memUsed memMax connected) := fun _ => rfl
theorem timerFire : Statement (.timerFire) := fun _ => rfl
theorem syncXchg (req : Bytes) (expect : Byte) (reads : List Bytes) : Statement (.syncXchg req expect reads) := fun _ => rfl
theorem escape (b : Byte) : Statement (.escape b) := fun _ => rfl
theorem encode (dest : EncodeDest) (type : Byte) (payload : Bytes) : Statement (.encode dest type payload) := fun _ => rfl
theorem crc16 (bytes : Bytes) : Statement (.crc16 bytes) := fun _ => rfl
theorem decodeByte (b : Byte) : Statement (.decodeByte b) := fun _ => rfl
theorem decode (input : Bytes) : Statement (.decode input) := fun _ => rfl
theorem parse (body : Bytes) : Statement (.parse body) := fun _ => rfl
theorem classify (type : Byte) : Statement (.classify type) := fun _ => rfl
theorem bpCheck (memUsed : Nat) (memMax : Nat) : Statement (.bpCheck memUsed memMax) := fun _ => rfl
theorem route (packet : Packet) (connected : Bool) : Statement (.route packet connected) := fun _ => rfl
theorem drain : Statement (.drain) := fun _ => rfl
theorem ctrlDeviceName (args : Bytes) (status : BleStatus) : Statement (.ctrlDeviceName args status) := fun _ => rfl
theorem ctrlBondDbGet (args : Bytes) (status : BleStatus) : Statement (.ctrlBondDbGet args status) := fun _ => rfl
theorem ctrlBondDbSet (args : Bytes) (status : BleStatus) : Statement (.ctrlBondDbSet args status) := fun _ => rfl
theorem ctrlPairingCode (args : Bytes) (status : BleStatus) : Statement (.ctrlPairingCode args status) := fun _ => rfl
theorem ctrlBleStatus (args : Bytes) (status : BleStatus) : Statement (.ctrlBleStatus args status) := fun _ => rfl
theorem ctrlIrk (args : Bytes) (status : BleStatus) : Statement (.ctrlIrk args status) := fun _ => rfl
theorem ctrlProductString (args : Bytes) (status : BleStatus) : Statement (.ctrlProductString args status) := fun _ => rfl
theorem ctrlChipReset (args : Bytes) (status : BleStatus) : Statement (.ctrlChipReset args status) := fun _ => rfl
theorem ctrlIdentityAddress (args : Bytes) (status : BleStatus) : Statement (.ctrlIdentityAddress args status) := fun _ => rfl
theorem ctrlPairingSuccessful (args : Bytes) (status : BleStatus) : Statement (.ctrlPairingSuccessful args status) := fun _ => rfl
theorem ctrlTkConfirm (args : Bytes) (status : BleStatus) : Statement (.ctrlTkConfirm args status) := fun _ => rfl
theorem ctrlBleEnabled (args : Bytes) (status : BleStatus) : Statement (.ctrlBleEnabled args status) := fun _ => rfl
theorem ctrlTxPower (args : Bytes) (status : BleStatus) : Statement (.ctrlTxPower args status) := fun _ => rfl
theorem ctrlDebugString (args : Bytes) (status : BleStatus) : Statement (.ctrlDebugString args status) := fun _ => rfl

end CodeFormat

end Sys2Proof.Laws
end

