-- ==== Sys2Proof/Laws/Step.lean ====
section
/-! SUPPORT. What the dispatcher's observation and the fetch can do (R190, R194, R199, R202): the observation changes the
script and the dispatcher's record, and nothing of the block. -/

namespace Sys2Proof.Machine

/-! ### What an action sends back -/

/-- An element put into a list stands somewhere in it, with the rest as it was. -/
theorem insertBehind_eq (k : Nat) (x : Code) (l : List Code) :
    ∃ before behind, l = before ++ behind ∧ insertBehind k x l = before ++ x :: behind :=
  ⟨l.take k, l.drop k, (List.take_append_drop k l).symm, rfl⟩

/-- Everything that the consequence of an action can do: put something into the script (R202). -/
theorem State.afterAction_eq (c : Config) (s : State) (a : DispatchAction) :
    ∃ script, s.afterAction c a = { s with script := script } := by
  cases a <;> exact ⟨_, rfl⟩

/-- Everything that handing a payload over can do (R190, R202). -/
theorem State.handOver_eq (c : Config) (s : State) (status : BleStatus) (p : Bytes) :
    ∃ script, s.handOver c status p =
      { s with script := script, actions := s.actions ++ [dispatch c status p], occasion := s.occasion + 1 } := by
  obtain ⟨script, h⟩ := s.afterAction_eq c (dispatch c status p)
  exact ⟨script, by simp only [State.handOver, h]⟩

@[simp] theorem handOverAll_nil (c : Config) (conn : Bool) (s : State) : handOverAll c conn [] s = s := rfl

/-- Everything that handing over the payloads of an operation can do (R202). -/
theorem handOverAll_frame (c : Config) (conn : Bool) (ps : List Bytes) (s : State) :
    ∃ script actions occasion,
      handOverAll c conn ps s = { s with script := script, actions := actions, occasion := occasion } := by
  induction ps generalizing s with
  | nil => exact ⟨_, _, _, rfl⟩
  | cons p ps ih =>
    obtain ⟨script, h⟩ := s.handOver_eq c (statusAt c conn s.occasion) p
    simp only [handOverAll, h]
    split
    · exact ⟨_, _, _, rfl⟩
    · obtain ⟨script', actions, occasion, h'⟩ := ih _
      exact ⟨script', actions, occasion, h'⟩

/-- The observation changes the script and the dispatcher's record, and nothing of the block (R202). -/
theorem observed_frame (c : Config) (i : Instr) (s t : State) :
    ∃ script actions occasion,
      observed c i s t = { t with script := script, actions := actions, occasion := occasion } := by
  simp only [observed]
  split
  · exact handOverAll_frame c _ _ t
  · exact ⟨_, _, _, rfl⟩

/-- An operation with no new effect has nothing observed. -/
theorem observed_quiet (c : Config) (i : Instr) {s t : State} (h : t.trace = s.trace) : observed c i s t = t := by
  simp only [observed, h, List.drop_length, List.filterMap_nil, handOverAll_nil]
  split <;> rfl

/-! ### The next operation of the script -/

/-- A code that decodes is one operation. -/
theorem instructionsOf_ok {c : Config} {code : Code} {i : Instr} (h : decode c code = .ok i) :
    instructionsOf c code = [i] := by
  simp only [instructionsOf, h]

/-- A code that does not decode is what it stands for. -/
theorem instructionsOf_error {c : Config} {code : Code} {e : DecodeError} (h : decode c code = .error e) :
    instructionsOf c code = standsFor c code := by
  simp only [instructionsOf, h]

/-- With a code that decodes first in the script, the next operation is its instruction, and the rest stays. -/
theorem fetch_ok {c : Config} {s : State} {code : Code} {rest : List Code} {i : Instr} (hs : s.script = code :: rest)
    (h : decode c code = .ok i) : fetch c s = some (i, { s with script := rest }) := by
  simp only [fetch, hs, nextOperation, instructionsOf_ok h, List.map_nil, List.nil_append, Option.map_some]

end Sys2Proof.Machine
end

