-- ==== Sys2Proof/Machine/ReferenceP0.lean ====
section
/-! DEFINITION. The reference instantiation P0 of the parameters (92_eei_decisions.md section 2), with which the spec's
vectors are computed. No meaning refers to it; the tests do. -/

namespace Sys2Proof.Machine

/-- One step of the division by the polynomial `0x1021` (R128). -/
def crcShift (v : Word16) : Word16 := if v.getLsbD 15 then (v <<< 1) ^^^ 0x1021 else v <<< 1

/-- One byte absorbed, most significant bit first (R128). -/
def crcByte (v : Word16) (b : Byte) : Word16 := Nat.repeat crcShift 8 (v ^^^ (b.zeroExtend 16 <<< 8))

/-- `crc16_P0`, CRC-16/CCITT-FALSE (R128). -/
def crc16P0 (bs : Bytes) : Word16 := bs.foldl crcByte 0xFFFF

/-- P0's type bytes (U14). -/
def typeByteP0 : PacketType → Byte
  | .ack => 0x2D | .nak => 0x5A | .bleData => 0x3C | .control => 0xB4 | .ping => 0x4B

theorem typeByteP0_injective : Function.Injective typeByteP0 := by
  intro a b; cases a <;> cases b <;> simp [typeByteP0]

/-- P0 with the capacities that single vectors vary (95_test_vectors.md); the parameters that P0 leaves uninterpreted,
and the dispatcher's, have the defaults of `Config`. -/
def configP0 (rxCap : Nat := 517) (txCap : Nat := 700) (depth : Option Nat := none)
    (hr : 5 ≤ rxCap := by decide) (ht : 7 ≤ txCap := by decide) : Config where
  crc16 := crc16P0
  typeByte := typeByteP0
  typeByte_injective := typeByteP0_injective
  rxFrameCap := rxCap
  rxFrameCap_ge := hr
  txBufCap := txCap
  txBufCap_ge := ht
  rxScratchCap := 64
  rxScratchCap_ge := by decide
  txqDepth := depth

end Sys2Proof.Machine
end

