-- ==== Sys2Proof/Tests/Slice0.lean ====
section
/-! SUPPORT. The tests: ill-formed terms that `wellFormed` refuses; codes written out from 30_encoding.md and what they
decode to; the spec's vectors (95_test_vectors.md), computed under P0 (the numbers V.. name them); and, for each
statement that has hypotheses, a state and operands that meet them, at the edges of each clause. -/

namespace Sys2Proof.Machine

/-! ### Well-formedness: each check refuses an ill-formed term -/

theorem test_wf_lit_refuses_delim : (Instr.lit 0x7E true).wellFormed configP0 = false := by decide
theorem test_wf_lit_refuses_esc : (Instr.lit 0x7D true).wellFormed configP0 = false := by decide
theorem test_wf_pair_refuses_own_rows : (Instr.escPairAny 0x5E true).wellFormed configP0 = false ∧
    (Instr.escPairAny 0x5D true).wellFormed configP0 = false ∧
    (Instr.escPairAny 0x22 true).wellFormed configP0 = false := by decide
theorem test_wf_frameBody_refuses_wrong_length :
    (Instr.frameBody 0xB4 2 [0x05] 0 true).wellFormed configP0 = false := by decide
theorem test_wf_wireFrame_refuses_short_body :
    (Instr.wireFrame [0xB4, 0, 0, 0xA3] true).wellFormed configP0 = false := by decide
theorem test_wf_typeOther_refuses_assigned :
    (Instr.typeOther 0x2D (.transmit [])).wellFormed configP0 = false ∧
    (Instr.typeOther 0x4B (.receive [] true)).wellFormed configP0 = false := by decide
theorem test_wf_payload_too_long : payloadFits (List.replicate 65536 0) = false := by
  unfold payloadFits; rw [List.length_replicate]; decide
theorem test_wf_args_too_long : argsFit (List.replicate 65535 0) = false := by
  unfold argsFit; rw [List.length_replicate]; decide
theorem test_wf_read_too_long :
    (Instr.rxReady (List.replicate 65 0) 0 1 true).wellFormed configP0 = false ∧
    (Instr.syncXchg [] 0 [List.replicate 65 0]).wellFormed configP0 = false := by decide
theorem test_wf_encode_overfull : (Instr.encode (.given [1, 2] 1) 0 []).wellFormed configP0 = false := by decide

/-! ### Codes written out, row by row, and the instructions they stand for -/

/-- The wire-byte rows (R60) and the wire-pair rows (R61): the bits of the opcode table. -/
theorem test_decode_bit_rows :
    decodeTableWord 8 0b01111110 = some (.delim true) ∧ decodeTableWord 8 0b01111101 = some (.esc true) ∧
    decodeTableWord 8 0b01000001 = some (.lit 0x41 true) ∧ decodeTableWord 8 0b11111111 = some (.lit 0xFF true) ∧
    decodeTableWord 16 0b0111110101011110 = some (.escPair7E true) ∧
    decodeTableWord 16 0b0111110101011101 = some (.escPair7D true) ∧
    decodeTableWord 16 0b0111110100100010 = some (.escPair02 true) ∧
    decodeTableWord 16 0b0111110100000000 = some (.escPairAny 0x00 true) ∧
    decodeTableWord 16 0b0111110101111110 = some (.escPairAny 0x7E true) := by decide

/-- What no row has: another width, and a pair whose first byte is not the marker. -/
theorem test_decode_refuses_other_bits : decodeTableWord 0 0 = none ∧ decodeTableWord 24 0x7E7D5E = none ∧
    decodeTableWord 16 0x7E5E = none ∧ decodeTableWord 16 0x5E7D = none := by decide

/-- A frame body (R63, V40-1) and what its length check refuses. -/
theorem test_decode_frame_body :
    decode configP0 (.body [0xB4, 0x01, 0x00, 0x05, 0x75, 0xD8] false) =
      .ok (.frameBody 0xB4 0x0001 [0x05] 0xD875 false) ∧
    decode configP0 (.body [0xB4, 0x02, 0x00, 0x05, 0x75, 0xD8] false) = .error .bodyLengthMismatch ∧
    decode configP0 (.body [0xB4, 0x00, 0x00, 0xA3] false) = .error .bodyTooShort := ⟨rfl, rfl, rfl⟩

/-- A wire frame (R62, V40-7) and what is none. -/
theorem test_decode_wire_frame :
    decode configP0 (.frame [0x7E, 0x3C, 0x7D, 0x22, 0x00, 0xAA, 0xBB, 0xA4, 0x9F, 0x7E] true) =
      .ok (.wireFrame [0x3C, 0x02, 0x00, 0xAA, 0xBB, 0xA4, 0x9F] true) ∧
    decode configP0 (.frame [0x3C, 0x7E] true) = .error .missingDelimiter ∧
    decode configP0 (.frame [0x7E] true) = .error .missingDelimiter ∧
    decode configP0 (.frame [0x7E, 0x7D, 0x7E] true) = .error .badEscaping ∧
    decode configP0 (.frame [0x7E, 0x41, 0x7E, 0x7E] true) = .error .badEscaping ∧
    decode configP0 (.frame [0x7E, 0x02, 0x41, 0x7E] true) = .error .notTheEncodersEscaping ∧
    decode configP0 (.frame [0x7E, 0x7D, 0x41, 0x7E] true) = .error .notTheEncodersEscaping :=
  ⟨rfl, rfl, rfl, rfl, rfl, rfl, rfl⟩

/-- What is no row is the bytes it holds, as they are (R60, R70), or goes the way of any body and packet (R122, R199). -/
theorem test_stands_for :
    instructionsOf configP0 (.bits 16 0x417E true) = [.lit 0x41 true, .delim true] ∧
    instructionsOf configP0 (.bits 24 0x7D027E false) = [.esc false, .lit 0x02 false, .delim false] ∧
    instructionsOf configP0 (.frame [0x7E, 0x02, 0x7E] true) = [.delim true, .lit 0x02 true, .delim true] ∧
    instructionsOf configP0 (.frame [] true) = [] ∧
    instructionsOf configP0 (.body [0xB4, 0x00, 0x00] true) = [.parse [0xB4, 0x00, 0x00]] ∧
    instructionsOf configP0 (.command [] .connected) = [.typeControl (.receive [] true)] ∧
    instructionsOf configP0 (.command [15] .advertising) = [.typeControl (.receive [15] false)] := by decide

/-- The type-byte rows (R66), P0's values. -/
theorem test_decode_type_rows :
    decode configP0 (.typed 0x2D (.transmit [])) = .ok (.typeAck (.transmit [])) ∧
    decode configP0 (.typed 0x5A (.receive [] true)) = .ok (.typeNak (.receive [] true)) ∧
    decode configP0 (.typed 0x3C (.transmit [1])) = .ok (.typeBleData (.transmit [1])) ∧
    decode configP0 (.typed 0xB4 (.transmit [5])) = .ok (.typeControl (.transmit [5])) ∧
    decode configP0 (.typed 0x4B (.transmit [])) = .ok (.typePing (.transmit [])) ∧
    decode configP0 (.typed 0xB5 (.transmit [])) = .ok (.typeOther 0xB5 (.transmit [])) :=
  ⟨rfl, rfl, rfl, rfl, rfl, rfl⟩

/-- The lines of the script notation for the external operations (R78). -/
theorem test_decode_external_lines :
    decode configP0 (.line .RESET) = .ok .reset ∧ decode configP0 (.line .START) = .ok .start ∧
    decode configP0 (.line (.SEND (.name .control) [0x05])) = .ok (.send 0xB4 [0x05]) ∧
    decode configP0 (.line (.SEND (.byte 0x00) [0x01])) = .ok (.send 0x00 [0x01]) ∧
    decode configP0 (.line .TXDONE) = .ok .txComplete ∧
    decode configP0 (.line (.RXRDY [0x7E] 95 100 true)) = .ok (.rxReady [0x7E] 95 100 true) ∧
    decode configP0 (.line .TFIRE) = .ok .timerFire ∧
    decode configP0 (.line (.SYNC [0x02] 0x03 [[], [0x7E]])) = .ok (.syncXchg [0x02] 0x03 [[], [0x7E]]) :=
  ⟨rfl, rfl, rfl, rfl, rfl, rfl, rfl, rfl⟩

/-- The lines for the internal operations (assumption 5). -/
theorem test_decode_internal_lines :
    decode configP0 (.line (.ESCAPE 0x7E)) = .ok (.escape 0x7E) ∧
    decode configP0 (.line (.ENCODE .txbuf 0xB4 [])) = .ok (.encode .txbuf 0xB4 []) ∧
    decode configP0 (.line (.CRC16 [1])) = .ok (.crc16 [1]) ∧
    decode configP0 (.line (.DECODE_BYTE 1)) = .ok (.decodeByte 1) ∧
    decode configP0 (.line (.DECODE [1, 2])) = .ok (.decode [1, 2]) ∧
    decode configP0 (.line (.PARSE [1])) = .ok (.parse [1]) ∧
    decode configP0 (.line (.CLASSIFY 1)) = .ok (.classify 1) ∧
    decode configP0 (.line (.BP_CHECK 1 2)) = .ok (.bpCheck 1 2) ∧
    decode configP0 (.line (.ROUTE .garbage true)) = .ok (.route .garbage true) ∧
    decode configP0 (.line .DRAIN) = .ok .drain := ⟨rfl, rfl, rfl, rfl, rfl, rfl, rfl, rfl, rfl, rfl⟩

/-- The control opcodes of `configP0`, 1 to 14 in the source's order (R200), and what is none. -/
theorem test_decode_command_rows :
    decode configP0 (.command [1, 0x41] .connected) = .ok (.ctrlDeviceName [0x41] .connected) ∧
    decode configP0 (.command [2] .connected) = .ok (.ctrlBondDbGet [] .connected) ∧
    decode configP0 (.command [3] .connected) = .ok (.ctrlBondDbSet [] .connected) ∧
    decode configP0 (.command [4] .connected) = .ok (.ctrlPairingCode [] .connected) ∧
    decode configP0 (.command [5] .advertising) = .ok (.ctrlBleStatus [] .advertising) ∧
    decode configP0 (.command [6] .connected) = .ok (.ctrlIrk [] .connected) ∧
    decode configP0 (.command [7] .connected) = .ok (.ctrlProductString [] .connected) ∧
    decode configP0 (.command [8] .connected) = .ok (.ctrlChipReset [] .connected) ∧
    decode configP0 (.command [9] .connected) = .ok (.ctrlIdentityAddress [] .connected) ∧
    decode configP0 (.command [10] .connected) = .ok (.ctrlPairingSuccessful [] .connected) ∧
    decode configP0 (.command [11, 1] .connected) = .ok (.ctrlTkConfirm [1] .connected) ∧
    decode configP0 (.command [12, 0] .connected) = .ok (.ctrlBleEnabled [0] .connected) ∧
    decode configP0 (.command [13, 7] .connected) = .ok (.ctrlTxPower [7] .connected) ∧
    decode configP0 (.command [14] .connectedSecure) = .ok (.ctrlDebugString [] .connectedSecure) ∧
    decode configP0 (.command [15] .connected) = .error .unknownOpcode ∧
    decode configP0 (.command [] .connected) = .error .noOpcode :=
  ⟨rfl, rfl, rfl, rfl, rfl, rfl, rfl, rfl, rfl, rfl, rfl, rfl, rfl, rfl, rfl, rfl⟩

/-- The byte lists of the script notation (R79). -/
theorem test_expand_items :
    expandItems configP0 [.byte 0x41, .repeated 0xAA 3, .run 0x00 0x03, .wire 0xB4 [0x05]] =
      [0x41, 0xAA, 0xAA, 0xAA, 0, 1, 2, 3, 0x7E, 0xB4, 0x01, 0x00, 0x05, 0x75, 0xD8, 0x7E] := by decide +kernel

/-! ### Vectors: the CRC, ESCAPE and ENCODE -/

/-- V42-1 to V42-5. -/
theorem test_crc16_vectors :
    crc16P0 [0x31, 0x32, 0x33, 0x34, 0x35, 0x36, 0x37, 0x38, 0x39] = 0x29B1 ∧ crc16P0 [] = 0xFFFF ∧
    crc16P0 [0xB4, 0x01, 0x00, 0x05] = 0xD875 ∧ crc16P0 [0xB4, 0x00, 0x00] = 0xEEA3 ∧
    crc16P0 [0x4B, 0x00, 0x00] = 0x21C0 := by decide +kernel

/-- The three bytes that are escaped, and neighbours that are not (section 3). -/
theorem test_escape_vectors :
    [0x7E, 0x7D, 0x02, 0x5E, 0x20, 0x7C, 0x7F, 0x03].map escapeByte =
      [[0x7D, 0x5E], [0x7D, 0x5D], [0x7D, 0x22], [0x5E], [0x20], [0x7C], [0x7F], [0x03]] := by decide +kernel

/-- V40-8: all three escapes. -/
theorem test_encode_v40_8 :
    wireOf configP0 0xB4 [0x7E, 0x7D, 0x02, 0x5E, 0x5D, 0x22, 0x20] =
      [0x7E, 0xB4, 0x07, 0x00, 0x7D, 0x5E, 0x7D, 0x5D, 0x7D, 0x22, 0x5E, 0x5D, 0x22, 0x20, 0xA5, 0xC2, 0x7E] := by decide +kernel

/-- V40-11: the type, the payload and a CRC byte in the escape set. -/
theorem test_encode_v40_11 :
    wireOf configP0 0x02 [0x02] =
      [0x7E, 0x7D, 0x22, 0x01, 0x00, 0x7D, 0x22, 0xDA, 0x7D, 0x5E, 0x7E] := by decide +kernel

/-- V40-20 and V40-21: an exact fit, and one byte short; the length is restored, the bytes stored stay. -/
theorem test_encode_capacity_edge :
    (encodeInto configP0 (givenBuffer [] 8) 0xB4 [0x05]).1 = .done ∧
    (encodeInto configP0 (givenBuffer [] 8) 0xB4 [0x05]).2.len = 8 ∧
    (encodeInto configP0 (givenBuffer [] 7) 0xB4 [0x05]).1 = .capacityExceeded ∧
    (encodeInto configP0 (givenBuffer [] 7) 0xB4 [0x05]).2.len = 0 ∧
    Memory.load (encodeInto configP0 (givenBuffer [] 7) 0xB4 [0x05]).2.cells 0 7 =
      some [0x7E, 0xB4, 0x01, 0x00, 0x05, 0x75, 0xD8] := by decide +kernel

/-- V40-24: the check is made between the two bytes of an escaped pair. -/
theorem test_encode_splits_pair :
    (encodeInto configP0 (givenBuffer [] 5) 0xB4 [0x7E]).2.cells =
      [(0, 0x7E), (1, 0xB4), (2, 0x01), (3, 0x00), (4, 0x7D)] := by decide +kernel

/-! ### Vectors: DECODE_BYTE and DECODE -/

/-- What a decoder test looks at. -/
def decodeView (r : Except Fault (DecodeResult × Nat × State)) : Option (DecodeResult × Nat × DecMode × Nat) :=
  match r with
  | .ok (d, n, s) => some (d, n, s.decMode, s.flen)
  | .error _ => none

/-- V41-1 and V41-3: a frame; leading garbage and stray delimiters. -/
theorem test_decode_v41_1_3 :
    decodeView (decodeBytes configP0 [0x7E, 0xB4, 0x01, 0x00, 0x05, 0x75, 0xD8, 0x7E] State.reset) =
      some (.frame [0xB4, 0x01, 0x00, 0x05, 0x75, 0xD8], 8, .wait, 0) ∧
    decodeView (decodeBytes configP0
      [0x41, 0x7D, 0x02, 0x7E, 0x7E, 0x7E, 0xB4, 0x00, 0x00, 0xA3, 0xEE, 0x7E] State.reset) =
      some (.frame [0xB4, 0x00, 0x00, 0xA3, 0xEE], 12, .wait, 0) := by decide +kernel

/-- V41-6 and V41-7: the least frame; an escape followed by anything. -/
theorem test_decode_v41_6_7 :
    decodeView (decodeBytes configP0 [0x7E, 0xB4, 0x00, 0x00, 0x7E] State.reset) =
      some (.frame [0xB4, 0x00, 0x00], 5, .wait, 0) ∧
    decodeView (decodeBytes configP0 [0x7E, 0x7D, 0x7E, 0x7D, 0x7D, 0x7D, 0x41, 0x02, 0x7E] State.reset) =
      some (.frame [0x5E, 0x5D, 0x61, 0x02], 9, .wait, 0) := by decide +kernel

/-- V41-7b, first call: the pair is split after its marker. -/
theorem test_decode_v41_7b :
    decodeView (decodeBytes configP0 [0x7E, 0xB4, 0x7D] State.reset) = some (.needMore, 3, .escaped, 1) := by decide +kernel

/-- V41-8, V41-8b and V41-8c, `RX_FRAME_CAP = 8`. -/
theorem test_decode_v41_8 :
    decodeView (decodeBytes (configP0 (rxCap := 8)) [0x7E, 1, 2, 3, 4, 5, 6, 7, 8, 9, 10] State.reset) =
      some (.overflow, 10, .wait, 0) ∧
    decodeView (decodeBytes (configP0 (rxCap := 8)) [0x7E, 1, 2, 3, 4, 5, 6, 7, 8, 0x7E] State.reset) =
      some (.frame [1, 2, 3, 4, 5, 6, 7, 8], 10, .wait, 0) ∧
    decodeView (decodeBytes (configP0 (rxCap := 8)) [0x7E, 1, 2, 3, 4, 5, 6, 7, 8, 0x7D, 0x5E] State.reset) =
      some (.overflow, 11, .wait, 0) := by decide +kernel

/-! ### Vectors: PARSE and CLASSIFY -/

/-- V42-10 to V42-14. -/
theorem test_parse_v42_10_14 :
    parseBody configP0 [0xB4, 0x01, 0x00, 0x05, 0x75, 0xD8] = .ok 0xB4 [0x05] .control ∧
    parseBody configP0 [0xB4, 0x02, 0x00, 0x05, 0x75, 0xD8] = .garbage ∧
    parseBody configP0 [0xB4, 0x01, 0x00, 0x04, 0x75, 0xD8] = .crcFail 0xB4 [0x04] ∧
    parseBody configP0 [0xB4, 0x01, 0x00, 0x05, 0x75, 0xD9] = .crcFail 0xB4 [0x05] ∧
    parseBody configP0 [0xB5, 0x01, 0x00, 0x05, 0x75, 0xD8] = .crcFail 0xB5 [0x05] := by decide +kernel

/-- V42-16 to V42-21. -/
theorem test_parse_v42_16_21 :
    parseBody configP0 [0xB4, 0x00, 0x00, 0xA3] = .garbage ∧
    parseBody configP0 [0xB4, 0xFF, 0xFF, 0x00, 0x00] = .garbage ∧
    parseBody configP0 [0xB4, 0x00, 0x00, 0xA3, 0xEE, 0x00] = .garbage ∧
    parseBody configP0 [0xB4, 0x00, 0x00, 0xA3, 0xEE] = .ok 0xB4 [] .control ∧
    parseBody configP0 [0x00, 0x03, 0x00, 0x01, 0x02, 0x03, 0xF3, 0x81] = .ok 0x00 [1, 2, 3] .none ∧
    parseBody configP0 [0x4B, 0x00, 0x00, 0xC0, 0x21] = .ok 0x4B [] .ping := by decide +kernel

/-- `CLASSIFY` under P0 (section 5). -/
theorem test_classify : [0x2D, 0x5A, 0x3C, 0xB4, 0x4B, 0x00, 0xB5, 0xFF].map (classifyByte configP0) =
    [.ack, .nak, .bleData, .control, .ping, .none, .none, .none] := by decide +kernel

/-! ### Vectors: the transmitter -/

/-- The next state of an outcome. -/
def nextOf : Host.Outcome State Fault Refusal → Option State
  | .next s => some s
  | .fault _ => none
  | .refused _ => none

/-- What a transmitter test looks at. -/
structure TxView where
  result : OpResult
  txState : TxState
  txlen : Nat
  queued : Nat
  trace : List Effect
deriving DecidableEq, Repr

def txView (o : Host.Outcome State Fault Refusal) : Option TxView :=
  (nextOf o).map (fun s => ⟨s.result, s.txState, s.txlen, s.txq.length, s.trace⟩)

/-- V43-1. -/
theorem test_send_v43_1 : txView (sendStep configP0 0xB4 [0x05] State.reset) =
    some ⟨.sent, .busy, 8, 0, [.uartTx [0x7E, 0xB4, 0x01, 0x00, 0x05, 0x75, 0xD8, 0x7E]]⟩ := by decide +kernel

/-- V43-2: two frames of 64 bytes each in one transmission of 145 bytes. -/
theorem test_send_v43_2 :
    ((nextOf (sendStep configP0 0x3C (expandItem configP0 (.run 0x00 0x7F)) State.reset)).map
      (fun s => (s.txlen, s.trace.length, Memory.load s.txbuf 69 7))) =
      some (145, 1, some [0x3C, 0x75, 0x7E, 0x7E, 0x3C, 0x40, 0x00]) := by decide +kernel

/-- V43-3. -/
theorem test_send_v43_3 :
    txView (sendStep configP0 0x4B [] State.reset) = some ⟨.refused .invalidType, .ready, 0, 0, []⟩ ∧
    txView (sendStep configP0 0x3C [] State.reset) = some ⟨.refused .badLength, .ready, 0, 0, []⟩ ∧
    txView (sendStep configP0 0x3C (List.replicate 65 0) State.reset) =
      some ⟨.refused .badLength, .ready, 0, 0, []⟩ := by decide +kernel

/-- V43-4, `TX_BUF_CAP = 7`. -/
theorem test_send_v43_4 :
    (txView (sendStep (configP0 (txCap := 7)) 0xB4 [] State.reset)).map (fun x => (x.result, x.txlen)) = some (.sent, 7) ∧
    txView (sendStep (configP0 (txCap := 7)) 0xB4 [0x05] State.reset) =
      some ⟨.refused .capacityExceeded, .ready, 0, 0, []⟩ := by decide +kernel

/-- V43-5 and V43-6: no validation in `BUSY`; a full queue. -/
theorem test_send_v43_5_6 :
    txView (sendStep configP0 0x4B [] { State.reset with txState := .busy }) = some ⟨.queued, .busy, 0, 1, []⟩ ∧
    txView (sendStep (configP0 (depth := some 1)) 0xB4 [3]
      { State.reset with txState := .busy, txq := [⟨0xB4, [2]⟩] }) =
      some ⟨.refused .queueFull, .busy, 0, 1, []⟩ := by decide +kernel

/-- P2's second `TXDONE`: a request refused at the drain, and the one behind it sent. -/
theorem test_txdone_p2 :
    txView (txCompleteStep configP0 { State.reset with txState := .busy, txq := [⟨0x4B, []⟩, ⟨0xB4, [0x05]⟩] }) =
      some ⟨.none, .busy, 8, 0,
        [.diag (.txDropped .invalidType), .uartTx [0x7E, 0xB4, 0x01, 0x00, 0x05, 0x75, 0xD8, 0x7E]]⟩ := by decide +kernel

/-! ### Vectors: the receiver -/

/-- What a receiver test looks at. -/
structure RxView where
  decMode : DecMode
  flen : Nat
  rxIrqEn : Bool
  rxTimerArmed : Bool
  trace : List Effect
deriving DecidableEq, Repr

def rxView (o : Host.Outcome State Fault Refusal) : Option RxView :=
  (nextOf o).map (fun s => ⟨s.decMode, s.flen, s.rxIrqEn, s.rxTimerArmed, s.trace⟩)

/-- P3's first notification: junk, three whole frames and the beginning of a fourth. -/
theorem test_rxrdy_p3 :
    rxView (rxReadyStep configP0 [0x41, 0x42, 0x7E, 0xB4, 0x01, 0x00, 0x05, 0x75, 0xD8, 0x7E, 0x7E, 0x3C, 0x7D, 0x22,
      0x00, 0xAA, 0xBB, 0xA4, 0x9F, 0x7E, 0x7E, 0xB4, 0x01, 0x00, 0x04, 0x75, 0xD8, 0x7E, 0x7E, 0x4B, 0x00]
      10 100 true State.reset) =
      some ⟨.inFrame, 2, true, false,
        [.ctrlDeliver [0x05], .bleDeliver 0 0 [0xAA, 0xBB], .diag .crcError]⟩ := by decide +kernel

/-- V44-3: no connection, no delivery; V44-9: over the threshold; already armed. -/
theorem test_rxrdy_v44_3_9 :
    rxView (rxReadyStep configP0 [0x7E, 0x3C, 0x7D, 0x22, 0x00, 0xAA, 0xBB, 0xA4, 0x9F, 0x7E] 0 1 false State.reset) =
      some ⟨.wait, 0, true, false, []⟩ ∧
    rxView (rxReadyStep configP0 [0x7E] 95 100 true State.reset) = some ⟨.wait, 0, false, true, [.timerArm 0]⟩ ∧
    rxView (rxReadyStep configP0 [0x7E] 95 100 true { State.reset with rxIrqEn := false, rxTimerArmed := true }) =
      some ⟨.wait, 0, false, true, []⟩ := by decide +kernel

/-- The threshold's table (section 8). -/
theorem test_threshold :
    [(89, 100), (90, 100), (9, 10), (8, 10), (13, 15), (14, 15), (0, 1), (0, 0), (5, 0)].map
      (fun x => overThreshold x.1 x.2) = [false, true, true, false, false, true, false, true, true] := by decide +kernel

/-- P4: overflow and resynchronisation, `RX_FRAME_CAP = 8`. -/
theorem test_rxrdy_p4 :
    rxView (rxReadyStep (configP0 (rxCap := 8)) [0x7E, 1, 2, 3, 4, 5, 6, 7, 8, 9, 10, 0x7E, 0x7E, 0xB4, 0x01, 0x00,
      0x05, 0x75, 0xD8, 0x7E] 0 1 true State.reset) =
      some ⟨.wait, 0, true, false, [.diag .rxOverflow, .ctrlDeliver [0x05]]⟩ := by decide +kernel

/-! ### Vectors: RESET, START and SYNC_XCHG -/

/-- V70-1 and V70-2. -/
theorem test_reset_start :
    exec .reset { State.reset with decMode := .inFrame, flen := 4, txState := .busy, txlen := 145, rxIrqEn := false,
                                   rxTimerArmed := true, phase := .run } = .next State.reset ∧
    exec .start State.reset = .next { State.reset with phase := .run } := ⟨rfl, rfl⟩

/-- P5's exchange: an empty read, another packet, the reply over two reads, what follows it discarded. -/
theorem test_sync_p5 :
    txView (syncXchgStep configP0 [0x02] 0x02
      [[], [0x7E, 0x4B, 0x00, 0x00, 0xC0, 0x21, 0x7E, 0x7E, 0xB4],
       [0x03, 0x00, 0x7D, 0x22, 0xAA, 0xBB, 0xAA, 0x97, 0x7E, 0x7E, 0xB4, 0x00]] State.reset) =
      some ⟨.reply [0x02, 0xAA, 0xBB], .ready, 9, 0,
        [.uartTxBlocking [0x7E, 0xB4, 0x01, 0x00, 0x7D, 0x22, 0x92, 0xA8, 0x7E]]⟩ := by decide +kernel

/-- V70-4: the request does not fit; V70-5: no reply, the exchange is still polling. -/
theorem test_sync_v70_4_5 :
    txView (syncXchgStep (configP0 (txCap := 8)) [0x02] 0x02 [] State.reset) =
      some ⟨.refused .capacityExceeded, .ready, 0, 0, []⟩ ∧
    (nextOf (syncXchgStep configP0 [0x06] 0x06 [[0x7E], []] State.reset)).map
      (fun s => (s.decMode, s.flen, s.exchange)) = some (.inFrame, 0, some ⟨[0x06], 0x06⟩) := by decide +kernel

/-! ### The dispatcher's commands (R192 to R199) -/

/-- CHIP_RESET makes `RESET` the next operation (R194); GET_BLE_STATUS has its reply sent (R191, R196). -/
theorem test_command_chip_reset_and_status :
    (nextOf (commandStep configP0 .chipReset [] .connected State.reset)).map
      (fun s => (s.result, s.script)) = some (.dispatched .chipReset, [.line .RESET]) ∧
    (nextOf (commandStep configP0 .bleStatus [] .connected State.reset)).map (fun s => (s.result, s.script)) =
      some (.dispatched (.replyStatus []), [.reply []]) := by decide +kernel

/-- SET_TX_POWER takes the levels 1 to 12 (R198). -/
theorem test_command_tx_power :
    [[0], [1], [12], [13], []].map (fun args => handle configP0 .connected .txPower (13 :: args)) =
      [.noOp, .applyTxPower 1, .applyTxPower 12, .noOp, .noOp] := by decide +kernel

/-- A reply that is still to come when the chip is reset is not sent (R242); what the environment does after it stays. -/
theorem test_reset_drops_replies :
    exec .reset { State.reset with script := [.line .START, .reply [5], .line .TXDONE] } =
      .next { State.reset with script := [.line .START, .line .TXDONE] } ∧
    decode configP0 (.reply [5]) = .ok (.send 0xB4 [5]) := ⟨rfl, rfl⟩

/-- The edges of the other conditions: the whole payload is what a length bound and `KEY_LEN + 2` count (R190, R192,
R195), and the argument 0 disables (R197). -/
theorem test_command_edges :
    let c : Config := { configP0 with nameBound := 3, advNameCap := 1, keyLen := 2 }
    [[0x41, 0x42], [0x41, 0x42, 0x43]].map (fun args => handle c .connected .deviceName (1 :: args)) =
      [.updateDeviceName [0x41, 0x42] [0x41], .noOp] ∧
    [[1, 2], [1, 2, 3], [1, 2, 3, 4]].map (fun args => handle c .connected .tkConfirm (11 :: args)) =
      [.noOp, .forwardTkConfirm [1, 2, 3], .noOp] ∧
    [[], [0], [1], [0, 0]].map (fun args => handle c .connected .bleEnabled (12 :: args)) =
      [.noOp, .beginShutdown true, .noOp, .noOp] := by decide

/-- A CHIP_RESET received in a burst of frames reaches the dispatcher, `RESET` is the next operation, and the command
behind it is delivered and not handled (R171, R190, R194); an unassigned opcode and an empty payload are no-ops (R199). -/
theorem test_delivered_commands :
    (nextOf (afterwards configP0 (.rxReady [] 0 1 true) State.reset (rxReadyStep configP0
      (wireOf configP0 0xB4 [15] ++ wireOf configP0 0xB4 [] ++ wireOf configP0 0xB4 [8] ++ wireOf configP0 0xB4 [5])
      0 1 true State.reset))).map (fun s => (s.actions, s.occasion, s.script, s.trace)) =
      some ([.noOp, .noOp, .chipReset], 3, [.line .RESET],
        [.ctrlDeliver [15], .ctrlDeliver [], .ctrlDeliver [8], .ctrlDeliver [5]]) := by decide +kernel

/-! ### What the hypotheses of the statements are met by

Each theorem below is named after the statement whose hypotheses it meets, clause by clause where there are several. The
statements about `exec` rest on `Config.impl`, of which only R3's constraints are known. -/

/-- A state that holds `n` accumulated bytes in a given mode. -/
def midFrame (m : DecMode) (n : Nat) : State :=
  { State.reset with decMode := m, fbuf := Memory.store [] 0 (List.replicate n 0x41), flen := n }

/-- It meets the invariants wherever the length admits it, up to a full buffer. -/
theorem midFrame_inv (c : Config) (m : DecMode) (n : Nat) (h : n ≤ c.rxFrameCap) (hm : m = .wait → n = 0) :
    Inv c (midFrame m n) where
  rx := {
    fbuf_wf := Memory.store_wf (by decide) 0 _
    fbuf_within := Memory.within_store (fun _ _ => rfl) (by simpa using h)
    fbuf_written := by
      have := Memory.writtenBelow_store (Memory.writtenBelow_zero []) (List.replicate n (0x41 : Byte))
      simpa [midFrame] using this
    flen_le := h
    wait_empty := hm }
  tx := {
    txbuf_wf := by simp [midFrame, State.reset, Memory.wf]
    txbuf_within := fun _ _ => rfl
    txbuf_written := Memory.writtenBelow_zero _
    txlen_le := Nat.zero_le _
    ready_empty := fun _ => rfl
    depth_le := fun _ _ => Nat.zero_le _
    payload_le := by simp [midFrame, State.reset] }
  valve := rfl
  exchange := by intro h; cases h
  scratch_dead := rfl

/-- The states that the decoder's statements speak of, at the edges of each clause: `WAIT`; in a frame with 0, 2 and 3
bytes and full; escaped, empty and full (DecodeByteTransitionTable, DecodeCompletes, DelimiterReceived,
EscapeMarkerReceived, LiteralReceived, EscapedPairReceived, UnderThresholdReceiveCompletes,
EveryStepKeepsTheInvariants, NoUnwrittenByteIsRead, WellFormedInstructionsComplete). -/
theorem witness_decoder_states (c : Config) :
    Inv c (midFrame .wait 0) ∧ Inv c (midFrame .inFrame 0) ∧ Inv c (midFrame .inFrame 2) ∧ Inv c (midFrame .inFrame 3) ∧
      Inv c (midFrame .inFrame c.rxFrameCap) ∧ Inv c (midFrame .escaped 0) ∧ Inv c (midFrame .escaped c.rxFrameCap) := by
  have h := c.rxFrameCap_ge
  refine ⟨?_, ?_, ?_, ?_, ?_, ?_, ?_⟩ <;> exact midFrame_inv c _ _ (by omega) (by simp)

theorem witness_reset_inv (c : Config) : Inv c State.reset :=
  midFrame_inv c .wait 0 (Nat.zero_le _) (fun _ => rfl)

/-- While a transmission is in progress. -/
def busyState : State := { State.reset with txState := .busy, txq := [⟨0, [1]⟩] }

/-- The constraints of the well-formedness of a literal, at its nearest values (LiteralReceived). -/
theorem witness_LiteralReceived : ((0x02 : Byte) ≠ 0x7E ∧ (0x02 : Byte) ≠ 0x7D) ∧ (0x7F : Byte) ≠ 0x7E ∧
    (0x7F : Byte) ≠ 0x7D := by decide

theorem witness_DecodeEncodeAgree (c : Config) :
    (Instr.lit 0x02 true).wellFormed c = true ∧ (Instr.escPairAny 0x7E true).wellFormed c = true ∧
    (Instr.frameBody 0x7E 2 [1, 2] 0xFFFF true).wellFormed c = true ∧
    (Instr.wireFrame [0x7E, 0x7D, 0x02, 0, 0] true).wellFormed c = true ∧
    (Instr.typeAck (.transmit [])).wellFormed c = true ∧ (Instr.send 0x7E [1]).wellFormed c = true ∧
    (Instr.rxReady [] 0 1 true).wellFormed c = true ∧ (Instr.encode (.given [1] 1) 0 []).wellFormed c = true ∧
    (Instr.ctrlTxPower [12] .connected).wellFormed c = true := by
  simp [Instr.wellFormed, TypeUse.fits, payloadFits, argsFit, EncodeDest.fits, maxPayload, overhead, delimByte, escByte]

/-- The edges of the two widths (EveryBitPatternHasOneReading). -/
theorem witness_EveryBitPatternHasOneReading :
    (0 < 256 ∧ 255 < 256 ∧ 256 < 65536) ∧ (0x7D00 < 65536 ∧ 0x7D00 / 256 = 0x7D) ∧ (0x7DFF / 256 = 0x7D) ∧
    (0x7CFF / 256 ≠ 0x7D) ∧ (0x7E00 < 65536 ∧ 0x7E00 / 256 ≠ 0x7D) := by decide

theorem witness_WireFrameSize : (List.replicate 64 (0x7E : Byte)).length = 64 := by decide

theorem witness_EscapeResult :
    exec (.escape 0x7E) State.reset = .next { State.reset with result := .bytes [0x7D, 0x5E] } ∧
    exec (.escape 0x7F) State.reset = .next { State.reset with result := .bytes [0x7F] } := ⟨rfl, rfl⟩

theorem witness_EncodeIntoCallersBuffer : ([] : Bytes).length ≤ 0 ∧ ([1, 2] : Bytes).length ≤ 2 ∧
    ([] : Bytes).length ≤ 65535 := by decide

theorem witness_EncodeIntoTransmitBuffer :
    busyState.txState = .busy ∧ TxInv (configP0 (txCap := 7)) State.reset ∧ State.reset.txState = .ready ∧
    (wireOf (configP0 (txCap := 7)) 0xB4 []).length = 7 ∧ (wireOf (configP0 (txCap := 7)) 0xB4 [0x05]).length = 8 :=
  ⟨rfl, (witness_reset_inv _).tx, rfl, by decide +kernel, by decide +kernel⟩

theorem escapeAll_length_le (F : Bytes) : (escapeAll F).length ≤ 2 * F.length := by
  induction F with
  | nil => exact Nat.le_refl _
  | cons b F ih =>
    have hb : (escapeByte b).length ≤ 2 := by unfold escapeByte; split <;> simp
    have : (escapeAll (b :: F)).length = (escapeByte b).length + (escapeAll F).length := by simp [escapeAll]
    simp only [List.length_cons]; omega

theorem witness_EncoderOutputShape : ∃ u out, exec (.encode (.given [] 12) 0x7E []) State.reset = .next u ∧
    u.result = .encoded .done out := by
  have hw : (wireOf Config.impl 0x7E []).length ≤ 12 := by
    have := escapeAll_length_le (bodyOf Config.impl 0x7E [])
    simp only [bodyOf, layoutBody_length, List.length_nil, overhead] at this
    simp only [wireOf, wireOfBody, List.length_cons, List.length_append, List.length_nil]
    simp only [bodyOf]; omega
  have he := encodeInto_done Config.impl (givenBuffer [] 12) 0x7E [] (by simpa [givenBuffer] using hw)
  have hl : Buffer.content ⟨Memory.store (givenBuffer [] 12).cells (givenBuffer [] 12).len (wireOf Config.impl 0x7E []),
      (givenBuffer [] 12).len + (wireOf Config.impl 0x7E []).length, (givenBuffer [] 12).cap⟩ =
      some (wireOf Config.impl 0x7E []) := by
    have := Memory.load_store [] 0 (wireOf Config.impl 0x7E [])
    simpa [Buffer.content, givenBuffer, Memory.store] using this
  refine ⟨State.reset.withResult (.encoded .done (wireOf Config.impl 0x7E [])), _, ?_, rfl⟩
  show encodeStep Config.impl (.given [] 12) 0x7E [] State.reset = _
  simp only [encodeStep, payloadFits, List.length_nil, Nat.zero_le, decide_true, if_true, he, encodeResult, hl]

theorem witness_EncodedFrameRoundTrip :
    ([0x05] : Bytes).length ≤ 65535 ∧ ([0x05] : Bytes).length + 5 ≤ (configP0 (rxCap := 6)).rxFrameCap ∧
    State.reset.decMode = .wait ∧ State.reset.flen = 0 ∧
    wireOf configP0 0xB4 [0x05] = [[0x7E, 0xB4], [], [0x01, 0x00, 0x05, 0x75, 0xD8]].flatten ++ 0x7E :: [] ∧
    [[0x7E, 0xB4], [0x01, 0x00, 0x05, 0x75, 0xD8, 0x7E]].flatten = wireOf configP0 0xB4 [0x05] := by
  decide +kernel

/-- A frame, an overflow, and a byte that is neither. -/
theorem witness_DecodeFoldsDecodeByte :
    (∃ t, exec (.decodeByte 0x7E) (midFrame .inFrame 3) = .next t ∧ t.result = .byteStep (.frame [0x41, 0x41, 0x41])) ∧
    (∃ t, exec (.decodeByte 0x41) (midFrame .inFrame Config.impl.rxFrameCap) = .next t ∧
      t.result = .byteStep .overflow) ∧
    (∃ t u r n, exec (.decodeByte 0x7E) State.reset = .next t ∧ t.result = .byteStep .more ∧
      exec (.decode []) t = .next u ∧ u.result = .decoded r n) := by
  have h := appendBody_full (c := Config.impl) (s := midFrame .inFrame Config.impl.rxFrameCap) 0x41 rfl
  have hd : decodeByte Config.impl 0x41 (midFrame .inFrame Config.impl.rxFrameCap) =
      .ok (appendBody Config.impl 0x41 (midFrame .inFrame Config.impl.rxFrameCap)) := rfl
  have he : exec (.decodeByte 0x41) (midFrame .inFrame Config.impl.rxFrameCap) =
      .next ({ midFrame .inFrame Config.impl.rxFrameCap with flen := 0, decMode := .wait }.withResult
        (.byteStep .overflow)) := by
    show decodeByteStep Config.impl 0x41 (midFrame .inFrame Config.impl.rxFrameCap) = _
    rw [decodeByteStep, hd, h]
  exact ⟨⟨_, rfl, rfl⟩, ⟨_, he, rfl⟩, ⟨_, _, _, _, rfl, rfl, rfl, rfl⟩⟩

/-- The four rows, and the first byte of a pair received. -/
theorem witness_EscapedPairReceived :
    Inv Config.impl (midFrame .inFrame 0) ∧ (midFrame .inFrame 0).decMode = .inFrame ∧
    (∃ x : Byte, Instr.escPairAny 0x41 true = .escPairAny x true ∧ (0x61 : Byte) = x ^^^ 0x20) ∧
    (∃ t, exec (.esc true) State.reset = .next t) ∧ ∃ t, exec (.esc true) (midFrame .inFrame 0) = .next t :=
  ⟨(witness_decoder_states _).2.1, rfl, ⟨0x41, rfl, by decide⟩, ⟨_, rfl⟩, ⟨_, rfl⟩⟩

theorem witness_WireFrameReceived : Inv Config.impl State.reset ∧ State.reset.decMode = .wait ∧
    3 ≤ ([1, 2, 3] : Bytes).length ∧ ([1, 2, 3] : Bytes).length ≤ Config.impl.rxFrameCap ∧
    3 ≤ (List.replicate Config.impl.rxFrameCap (0x7E : Byte)).length ∧
    (List.replicate Config.impl.rxFrameCap (0x7E : Byte)).length ≤ Config.impl.rxFrameCap := by
  have h := Config.impl.rxFrameCap_ge
  simp only [List.length_replicate, List.length_cons, List.length_nil]
  exact ⟨witness_reset_inv _, rfl, by omega, by omega, by omega, by omega⟩

theorem witness_OversizedFrameThenResynchronised :
    Inv Config.impl State.reset ∧ State.reset.decMode = .wait ∧
    Config.impl.rxFrameCap < (List.replicate (Config.impl.rxFrameCap + 1) (0x7E : Byte)).length ∧
    3 ≤ ([1, 2, 3] : Bytes).length ∧ ([1, 2, 3] : Bytes).length ≤ Config.impl.rxFrameCap := by
  have h := Config.impl.rxFrameCap_ge
  simp only [List.length_replicate, List.length_cons, List.length_nil]
  exact ⟨witness_reset_inv _, rfl, by omega, by omega, by omega⟩

/-- Both hypotheses on the length field: none, and all of 16 bits (ParseOfALaidOutBody, FrameBodyParsedAndRouted). -/
theorem witness_ParseOfALaidOutBody : ([] : Bytes).length = (0 : Word16).toNat ∧
    (List.replicate 65535 (0 : Byte)).length = (0xFFFF : Word16).toNat := by
  rw [List.length_replicate]; decide

/-- Some byte is none of the five types, whatever they are (CrcAndClassify, EachTypeReceived, EachTypeTransmitted). -/
theorem witness_CrcAndClassify : ∃ t : Byte, ∀ ty, t ≠ Config.impl.typeByte ty := by
  by_contra hn
  push Not at hn
  choose g hg using hn
  have hi : Function.Injective g := fun a b h => by rw [hg a, hg b, h]
  have hnd : (([0, 1, 2, 3, 4, 5] : List Byte).map g).Nodup := List.Nodup.map hi (by decide)
  have hs : (([0, 1, 2, 3, 4, 5] : List Byte).map g) ⊆ [.ack, .nak, .bleData, .control, .ping] := by
    intro x _; cases x <;> simp
  have := (List.Nodup.subperm hnd hs).length_le
  simp at this

/-- A type byte of the header, the two bytes of the length, the first and the last byte of the CRC; under P0 the CRC
detects the change of the type. -/
theorem witness_SingleBitFlipIsDetected :
    (0 < ([] : Bytes).length + 5 ∧ 4 < ([] : Bytes).length + 5 ∧ 7 < 8) ∧
    crc16P0 (flipBit (frameHeader 0xB4 (lengthField []) ++ []) 0 0) ≠ crc16P0 (frameHeader 0xB4 (lengthField []) ++ []) ∧
    parseBody configP0 (flipBit (bodyOf configP0 0xB4 []) 1 7) = .garbage ∧
    parseBody configP0 (flipBit (bodyOf configP0 0xB4 []) 4 0) = .crcFail 0xB4 [] := by decide +kernel

theorem witness_TimerArmedAtMostOnce :
    Instr.timerFire ∉ [Instr.bpCheck 9 10, .bpCheck 10 10] ∧ Instr.reset ∉ [Instr.bpCheck 9 10, .bpCheck 10 10] ∧
    (∃ t, execAll [.bpCheck 9 10, .bpCheck 10 10] State.reset = .next t) ∧
    (∃ t, exec (.bpCheck 9 10) State.reset = .next t ∧ t.rxTimerArmed = true) ∧
    (∃ t, exec .timerFire { State.reset with rxIrqEn := false, rxTimerArmed := true } = .next t ∧
      t.rxTimerArmed = false) ∧
    ∃ t, execAll [.bpCheck 9 10] { State.reset with rxIrqEn := false, rxTimerArmed := true } = .next t :=
  ⟨by decide, by decide, ⟨_, rfl⟩, ⟨_, rfl, rfl⟩, ⟨_, rfl, rfl⟩, ⟨_, rfl⟩⟩

/-- Exactly at the threshold. -/
theorem witness_OverThresholdBytesAreLost : ([0x7E] : Bytes).length ≤ Config.impl.rxScratchCap ∧ 10 * 9 ≤ 9 * 10 :=
  ⟨Config.impl.rxScratchCap_ge, by decide⟩

theorem witness_UnderThresholdReceiveCompletes :
    RxInv Config.impl (midFrame .inFrame Config.impl.rxFrameCap) ∧ ([] : Bytes).length ≤ Config.impl.rxScratchCap ∧
    ([0x41] : Bytes).length ≤ Config.impl.rxScratchCap ∧ 8 * 10 < 9 * 9 :=
  ⟨(witness_decoder_states _).2.2.2.2.1.rx, Nat.zero_le _, Config.impl.rxScratchCap_ge, by decide⟩

theorem witness_BurstOfFramesIsRoutedInOrder :
    State.reset.decMode = .wait ∧ State.reset.flen = 0 ∧ 0 * 10 < 1 * 9 ∧
    (∀ F ∈ ([[1, 2, 3], [0x7E, 0x7D, 0x02, 4, 5]] : List Bytes), 3 ≤ F.length ∧
      F.length ≤ (configP0 (rxCap := 5)).rxFrameCap) ∧
    (([[1, 2, 3], [0x7E, 0x7D, 0x02, 4, 5]] : List Bytes).flatMap wireOfBody).length ≤
      (configP0 (rxCap := 5)).rxScratchCap := by decide

theorem witness_ReceiveSplitsAnywhere : 0 * 10 < 1 * 9 ∧ ([0x7E] ++ [0x41] : Bytes).length ≤ (configP0).rxScratchCap ∧
    ∃ t, rxReadyStep configP0 [0x7E] 0 1 true State.reset = .next t := ⟨by decide, by decide, ⟨_, rfl⟩⟩

/-- Under the threshold and over it. -/
theorem witness_ReceiveIgnoresTheEnable : (∃ t, exec (.rxReady [] 0 1 true) State.reset = .next t) ∧
    ∃ t, exec (.rxReady [] 9 10 true) State.reset = .next t := by
  have h : ∀ u m, ∃ t, rxReadyStep Config.impl [] u m true State.reset = .next t := by
    intro u m
    have hl : (([] : Bytes).length ≤ Config.impl.rxScratchCap) := Nat.zero_le _
    rw [rxReadyStep, if_pos hl, receive, bpCheck]
    cases overThreshold u m <;> exact ⟨_, rfl⟩
  exact ⟨h 0 1, h 9 10⟩

/-- A request with wire bytes, exactly as long as the buffer, and one for each reason of refusal. -/
theorem witness_SendWhenReady :
    requestWire (configP0 (txCap := 7)) 0xB4 [] = .ok [0x7E, 0xB4, 0x00, 0x00, 0xA3, 0xEE, 0x7E] ∧
    requestWire (configP0 (txCap := 7)) 0xB4 [0x05] = .error .capacityExceeded ∧
    requestWire configP0 0x3C [1] = .error .badLength ∧ requestWire configP0 0x4B [] = .error .invalidType := by
  decide +kernel

theorem witness_SendRefusesTypesAndLengths :
    Config.impl.typeByte .ack ≠ Config.impl.typeByte .control ∧
    Config.impl.typeByte .ack ≠ Config.impl.typeByte .bleData ∧
    (([] : Bytes).length = 0 ∨ ([] : Bytes).length % 64 ≠ 0) ∧
    ((List.replicate 63 (0 : Byte)).length = 0 ∨ (List.replicate 63 (0 : Byte)).length % 64 ≠ 0) :=
  ⟨fun h => PacketType.noConfusion (Config.impl.typeByte_injective h),
    fun h => PacketType.noConfusion (Config.impl.typeByte_injective h), by decide, by decide⟩

theorem witness_BleDataChunks : ([] : Bytes).length = 64 * 0 ∧ (List.replicate 128 (0 : Byte)).length = 64 * 2 := by
  simp

/-- A full queue, and one with room. -/
theorem witness_SendWhenBusyQueues : busyState.txState = .busy ∧
    (configP0 (depth := some 1)).txqDepth = some busyState.txq.length ∧ (configP0).txqDepth ≠ some busyState.txq.length := by
  decide

/-- Nothing waits; what waits cannot be sent; what waits can. -/
theorem witness_TransmitCompleteDrainsInOrder :
    queueOutcome configP0 [] = ([], none) ∧ queueOutcome configP0 [⟨0x4B, []⟩] = ([.invalidType], none) ∧
    queueOutcome configP0 [⟨0x4B, []⟩, ⟨0xB4, []⟩, ⟨0x3C, []⟩] =
      ([.invalidType], some ([0x7E, 0xB4, 0x00, 0x00, 0xA3, 0xEE, 0x7E], [⟨0x3C, []⟩])) := by
  decide +kernel

theorem witness_NothingToDrain : State.reset.txq = [] ∧ Inv Config.impl State.reset ∧ State.reset.txState = .ready ∧
    busyState.txState = .busy := ⟨rfl, witness_reset_inv _, rfl, rfl⟩

/-- (BusyProtectsTheTransmitBuffer, and the clauses of OneTransmissionAtATime.) -/
theorem witness_BusyProtectsTheTransmitBuffer :
    busyState.txState = .busy ∧ (∃ t, exec .start busyState = .next t) ∧ (∃ t, exec .drain busyState = .next t) ∧
    (∃ t, exec .txComplete { busyState with txq := [] } = .next t) ∧ (∃ t, exec .start State.reset = .next t) ∧
    isTransmitSide .start = false := ⟨rfl, ⟨_, rfl⟩, ⟨_, rfl⟩, ⟨_, rfl⟩, ⟨_, rfl⟩, rfl⟩

theorem nextOf_map {α : Type} {o : Host.Outcome State Fault Refusal} {f : State → α} {v : α}
    (h : (nextOf o).map f = some v) : ∃ t, o = .next t ∧ f t = v := by
  cases o with
  | next t => exact ⟨t, rfl, by simpa [nextOf] using h⟩
  | fault _ => simp [nextOf] at h
  | refused _ => simp [nextOf] at h

theorem witness_EveryTransmissionIsWholeFrames :
    ∃ t, sendStep configP0 0xB4 [] State.reset = .next t ∧
      t.trace = State.reset.trace ++ [.uartTx [0x7E, 0xB4, 0x00, 0x00, 0xA3, 0xEE, 0x7E]] ∧
      Effect.uartTx [0x7E, 0xB4, 0x00, 0x00, 0xA3, 0xEE, 0x7E] ∈
        [Effect.uartTx [0x7E, 0xB4, 0x00, 0x00, 0xA3, 0xEE, 0x7E]] := by
  obtain ⟨t, ht, hf⟩ := nextOf_map (o := sendStep configP0 0xB4 [] State.reset) (f := State.trace)
    (v := [.uartTx [0x7E, 0xB4, 0x00, 0x00, 0xA3, 0xEE, 0x7E]]) (by decide +kernel)
  exact ⟨t, ht, hf, List.mem_singleton.mpr rfl⟩

theorem witness_TheTwoSidesShareNothing :
    (∃ t, exec .timerFire State.reset = .next t) ∧ isReceiveSide .timerFire = true ∧
    (∃ t, exec .txComplete State.reset = .next t) ∧ isTransmitSide .txComplete = true :=
  ⟨⟨_, rfl⟩, rfl, ⟨_, rfl⟩, rfl⟩

/-- The four rows that are not transmitted, the last with a byte as witness_CrcAndClassify has one; in `READY` and in
`BUSY`. -/
theorem witness_EachTypeTransmitted : ([] : Bytes).length ≤ 65535 ∧ State.reset.txState = .ready ∧
    busyState.txState = .busy ∧ ∃ t : Byte, ∀ ty, t ≠ Config.impl.typeByte ty :=
  ⟨by decide, rfl, rfl, witness_CrcAndClassify⟩

/-- A command of any length up to the longest, so with a payload at the edge of every length condition, whatever the name
bound and `KEY_LEN` are (ControlCommandDelivered, DispatcherActions). -/
theorem witness_DispatcherActions (o : CtrlOp) (args : Bytes) (st : BleStatus) (h : args.length + 1 ≤ 65535) :
    ∃ t, exec (commandInstr o args st) State.reset = .next t := by
  have hf : argsFit args = true := by simpa [argsFit, maxPayload] using h
  have hc : ∃ t, commandStep Config.impl o args st State.reset = .next t := by
    rw [commandStep, if_pos hf]; exact ⟨_, rfl⟩
  cases o <;> exact hc

/-- (ControlCommandDelivered, DispatcherActions.) -/
theorem witness_ControlCommandDelivered : ([] : Bytes).length + 1 ≤ 65535 ∧
    (∀ o st, ∃ t, exec (commandInstr o [] st) State.reset = .next t) ∧
    (∃ t, exec (commandInstr .txPower [12] .connected) State.reset = .next t) ∧
    ∃ t, exec (commandInstr .bleEnabled [0] .connected) State.reset = .next t := by
  refine ⟨by decide, fun o st => by cases o <;> exact ⟨_, rfl⟩, ⟨_, rfl⟩, ⟨_, rfl⟩⟩

theorem witness_ExchangeNotAdmitted :
    (∀ r ∈ ([[]] : List Bytes), r.length ≤ Config.impl.rxScratchCap) ∧ State.reset.exchange = none ∧
    ({ State.reset with phase := .run } : State).phase ≠ .boot ∧ busyState.txState ≠ .ready := by
  refine ⟨?_, rfl, by decide, by decide⟩
  intro r hr; simp at hr; subst hr; exact Nat.zero_le _

theorem witness_ExchangeWritesTheRequest : State.reset.exchange = none ∧ State.reset.phase = .boot ∧
    State.reset.txState = .ready ∧ (wireOf (configP0 (txCap := 9)) 0xB4 [0x02]).length = 9 := by decide +kernel

/-- Still polling, and answered. -/
theorem witness_ExchangeGoesOnWithMoreReads :
    (∃ t, syncXchgStep configP0 [0x02] 0x02 [[0x7E]] State.reset = .next t ∧ t.result = .noReply) ∧
    ∃ t, syncXchgStep configP0 [0x02] 0x02 [[0x7E, 0xB4, 0x01, 0x00, 0x7D, 0x22, 0x92, 0xA8, 0x7E]] State.reset =
      .next t ∧ t.result = .reply [0x02] :=
  ⟨nextOf_map (f := State.result) (by decide +kernel), nextOf_map (f := State.result) (by decide +kernel)⟩

theorem witness_ExchangeReturnsTheReply :
    RxInv configP0 State.reset ∧ ({ State.reset with exchange := some ⟨[2], 2⟩ } : State).decMode = .wait ∧
    (∀ F ∈ ([[0x4B, 0x00, 0x00, 0xC0, 0x21]] : List Bytes), 3 ≤ F.length ∧ F.length ≤ (configP0).rxFrameCap) ∧
    parseBody configP0 [0x4B, 0x00, 0x00, 0xC0, 0x21] = .ok 0x4B [] .ping ∧
    ([[], [0x7E, 0x4B, 0x00, 0x00, 0xC0, 0x21, 0x7E, 0x7E, 0xB4]] : List Bytes).flatten ++
      [0x03, 0x00, 0x7D, 0x22, 0xAA, 0xBB, 0xAA, 0x97, 0x7E] =
      ([[0x4B, 0x00, 0x00, 0xC0, 0x21]] : List Bytes).flatMap wireOfBody ++
        wireOf configP0 ((configP0).typeByte .control) (0x02 :: [0xAA, 0xBB]) ∧
    (2 + 6 ≤ (configP0).rxFrameCap ∧ 9 + 3 ≤ (configP0).rxScratchCap) :=
  ⟨(witness_reset_inv _).rx, rfl, by decide, by decide +kernel, by decide +kernel, by decide⟩

/-- A script in an exchange that asks for something else (ExchangeBlocksOtherOperations). -/
theorem witness_ExchangeBlocksOtherOperations :
    let s : State := { State.reset with script := [.line .START], exchange := some ⟨[2], 2⟩ }
    s.script = .line .START :: [] ∧ s.exchange = some ⟨[2], 2⟩ ∧
    decode Config.impl (.line .START) = .ok .start ∧ step s = .fault .exchangeInProgress := ⟨rfl, rfl, rfl, rfl⟩

/-- A step, in and outside an exchange, with an empty script, with what is no row's pattern, and of a placed word. -/
theorem witness_StepRunsTheDecodedInstruction :
    step { State.reset with script := [.line .START] } = .next { State.reset with phase := .run } ∧
    step { State.reset with script := [.line .RESET], exchange := some ⟨[2], 2⟩ } = .next State.reset ∧
    step State.reset = .next State.reset ∧
    decode Config.impl (.bits 16 0x7E7D true) = .error .notAnEscapedPair ∧
    step { State.reset with script := [.bits 16 0x7E7D true] } =
      .next { State.reset with decMode := .inFrame, script := [.bits 8 0x7D true] } ∧
    step (State.reset.withFetchWord 8 0x7E) = .next { State.reset with decMode := .inFrame } ∧
    (∃ t, exec (.lit 0x41 true) State.reset = .next t ∧ t.trace = State.reset.trace ++ []) :=
  ⟨rfl, rfl, rfl, rfl, rfl, rfl, ⟨_, rfl, rfl⟩⟩

/-- A refusal, which a step passes on (StepRunsTheDecodedInstruction). -/
theorem witness_StepRunsTheDecodedInstruction_refusal :
    ∀ t, exec (.encode .txbuf 0xB4 []) busyState ≠ .next t := by
  intro t h
  have : exec (.encode .txbuf 0xB4 []) busyState = .refused .txbufInUse := rfl
  rw [this] at h; cases h

theorem witness_OperandsOutOfRangeAreRefused : 65535 < (List.replicate 65536 (0 : Byte)).length ∧
    65535 < (List.replicate 65535 (0 : Byte)).length + 1 ∧ ([] : Bytes).length ≤ 65535 ∧
    Config.impl.rxScratchCap < (List.replicate (Config.impl.rxScratchCap + 1) (0 : Byte)).length ∧
    (0 < ([1] : Bytes).length) := by
  simp only [List.length_replicate, List.length_cons, List.length_nil]; omega

/-- A delivery by ROUTE; no opcode, and one that is not assigned. -/
theorem witness_EveryDeliveryReachesTheDispatcher :
    (∃ t, exec (.route (.ok 0 [1] .control) true) State.reset = .next t ∧
      t.trace = State.reset.trace ++ [.ctrlDeliver [1]] ∧ deliversUnder (.route (.ok 0 [1] .control) true) = some true) ∧
    (∀ b args, ([] : Bytes) = b :: args → ∀ o, b ≠ (configP0).ctrlOpcode o) ∧
    (∀ b args, ([0] : Bytes) = b :: args → ∀ o, b ≠ (configP0).ctrlOpcode o) := by
  refine ⟨⟨_, rfl, rfl, rfl⟩, by simp, ?_⟩
  intro b args h o
  cases h; cases o <;> decide

/-- (EveryStepKeepsTheInvariants, NoUnwrittenByteIsRead.) -/
theorem witness_EveryStepKeepsTheInvariants :
    ∃ s t, s.script = [.line .START] ∧ Inv Config.impl s ∧ step s = .next t := by
  have h := witness_reset_inv Config.impl
  exact ⟨{ State.reset with script := [.line .START] }, _, rfl,
    ⟨⟨h.rx.1, h.rx.2, h.rx.3, h.rx.4, h.rx.5⟩, ⟨h.tx.1, h.tx.2, h.tx.3, h.tx.4, h.tx.5, h.tx.6, h.tx.7⟩, rfl,
      (fun h => by cases h), rfl⟩, rfl⟩

theorem witness_WellFormedInstructionsComplete : Inv Config.impl State.reset ∧
    (Instr.encode .txbuf 0xB4 []).wellFormed Config.impl = true ∧ State.reset.txState = .ready :=
  ⟨witness_reset_inv _, rfl, rfl⟩

end Sys2Proof.Machine
end

section
/-! SUPPORT. How the operation of a step is found: what stands for an item that is no row decodes to itself, so that
writing it out in the script changes no fetch (R60, R70); and what a step comes to once its operation is known. -/

namespace Sys2Proof.Machine

/-! ### What an item stands for is read back as itself -/

/-- The type byte of CONTROL is its own class, the five type bytes being distinct (R3, R124). -/
theorem classifyByte_control (c : Config) : classifyByte c (c.typeByte .control) = .control := by
  simp [classifyByte, c.typeByte_injective.eq_iff]

/-- The code of a byte's token is the byte (R60). -/
theorem encode_byteInstr (c : Config) (conn : Bool) (b : Byte) :
    encode c (byteInstr conn b) = .bits 8 b.toNat conn := by
  unfold byteInstr
  split
  case isTrue h => rw [h]; rfl
  case isFalse =>
    split
    case isTrue h => rw [h]; rfl
    case isFalse => rfl

theorem decode_encode_byteInstr (c : Config) (conn : Bool) (b : Byte) :
    decode c (encode c (byteInstr conn b)) = .ok (byteInstr conn b) := by
  rw [encode_byteInstr]
  exact congrArg (fun b => Except.ok (byteInstr conn b)) (BitVec.ofNat_toNat 8 b)

/-- A received CONTROL packet is read back from its code as the row of CONTROL. -/
theorem decode_encode_typeControl (c : Config) (u : TypeUse) :
    decode c (encode c (.typeControl u)) = .ok (.typeControl u) := by
  simp only [encode, decode, decodeTyped, classifyByte_control]

/-- Every operation that an item without a row stands for has a code that decodes to it. -/
theorem decode_encode_of_mem_standsFor {c : Config} {code : Code} {e : DecodeError} (h : decode c code = .error e)
    {i : Instr} (hi : i ∈ standsFor c code) : decode c (encode c i) = .ok i := by
  cases code with
  | bits n w conn =>
    obtain ⟨b, -, rfl⟩ := List.mem_map.mp hi
    exact decode_encode_byteInstr c conn b
  | body F conn => rw [List.mem_singleton.mp hi]; rfl
  | frame W conn =>
    obtain ⟨b, -, rfl⟩ := List.mem_map.mp hi
    exact decode_encode_byteInstr c conn b
  | command p status => rw [List.mem_singleton.mp hi]; exact decode_encode_typeControl c _
  | typed t u => cases h
  | line l => cases h
  | reply p => cases h

/-! ### The fetch of an item without a row -/

/-- Writing out in the script what an item without a row stands for leaves the next operation as it was. -/
theorem nextOperation_error {c : Config} {code : Code} {e : DecodeError} (h : decode c code = .error e)
    (rest : List Code) :
    nextOperation c (code :: rest) = nextOperation c ((standsFor c code).map (encode c) ++ rest) := by
  cases hops : standsFor c code with
  | nil => simp only [nextOperation, instructionsOf_error h, hops, List.map_nil, List.nil_append]
  | cons i more =>
    have hi : decode c (encode c i) = .ok i := decode_encode_of_mem_standsFor h (by simp [hops])
    simp only [nextOperation, instructionsOf_error h, hops, List.map_cons, List.cons_append, instructionsOf_ok hi,
      List.map_nil, List.nil_append]

/-- A step depends on the script only through its next operation. -/
theorem step_script_congr {s : State} {script : List Code}
    (h : nextOperation Config.impl s.script = nextOperation Config.impl script) :
    step s = step { s with script := script } := by
  simp only [step, fetch, h]

/-! ### The step once its operation is known -/

/-- Outside an exchange every operation is admitted; in one, more reads of it and a reset are (R249, R222). -/
theorem admits_of {s : State} {i : Instr}
    (h : s.exchange = none ∨ i = .reset ∨ ∃ x reads, s.exchange = some x ∧ i = .syncXchg x.req x.expect reads) :
    admits s i = true := by
  obtain hnone | rfl | ⟨x, reads, hx, rfl⟩ := h
  · simp only [admits, hnone]
  · cases hx : s.exchange <;> simp only [admits, hx]
  · simp only [admits, hx, decide_true, Bool.and_self]

/-- A step with an admitted instruction first in its script executes it, and the item has left the script. -/
theorem step_of_decode {s : State} {code : Code} {rest : List Code} {i : Instr} (hs : s.script = code :: rest)
    (h : decode Config.impl code = .ok i) (ha : admits { s with script := rest } i = true) :
    step s = afterwards Config.impl i { s with script := rest } (exec i { s with script := rest }) := by
  simp only [step, fetch_ok hs h, ha, if_true]

theorem step_of_script_nil {s : State} (hs : s.script = []) : step s = .next s := by
  have hsame : { s with script := [] } = s := by rw [← hs]
  simp only [step, fetch, hs, nextOperation, Option.map_none, hsame]

/-- The bits of a row of the table decode to the instruction the table gives them. -/
theorem decode_of_decodeTableWord {c : Config} {nbits w : Nat} {i : Instr} (h : decodeTableWord nbits w = some i) :
    decode c (.bits nbits w true) = .ok i := by
  unfold decodeTableWord at h
  change decodeBits nbits w true = .ok i
  cases hd : decodeBits nbits w true with
  | ok j => rw [hd] at h; cases h; rfl
  | error e => rw [hd] at h; cases h

/-! ### What the step adds to the operation -/

/-- Only the effect `CtrlDeliver` hands a payload to the dispatcher (R190). -/
theorem Effect.delivery_eq_some {e : Effect} {p : Bytes} : e.delivery = some p ↔ e = .ctrlDeliver p := by
  cases e <;> simp [Effect.delivery]

/-- Effects without a `CtrlDeliver` hand over nothing. -/
theorem filterMap_delivery_eq_nil {new : List Effect} (h : ∀ p, Effect.ctrlDeliver p ∉ new) :
    new.filterMap Effect.delivery = [] := by
  refine List.filterMap_eq_nil_iff.mpr fun e he => Option.eq_none_iff_forall_ne_some.mpr fun p hp => h p ?_
  rwa [Effect.delivery_eq_some.mp hp] at he

/-- An operation that delivers no CONTROL payload has nothing observed. -/
theorem observed_of_no_delivery (c : Config) (i : Instr) {s t : State} {new : List Effect}
    (ht : t.trace = s.trace ++ new) (h : ∀ p, Effect.ctrlDeliver p ∉ new) : observed c i s t = t := by
  simp only [observed, ht, List.drop_left, filterMap_delivery_eq_nil h, handOverAll_nil]
  split <;> rfl

/-- A fault or a refusal is passed on. -/
theorem afterwards_of_ne_next (c : Config) (i : Instr) (s : State) {o : Host.Outcome State Fault Refusal}
    (h : ∀ t, o ≠ .next t) : afterwards c i s o = o := by
  cases o with
  | next t => exact absurd rfl (h t)
  | fault f => rfl
  | refused r => rfl

/-- Settles O55: what the fetch finds, case by case of the script's first item, and what `afterwards` adds. -/
theorem stepRunsTheDecodedInstruction : Obligations.StepRunsTheDecodedInstruction := by
  refine ⟨?decoded, ?quiet, ?stopped, ?waiting, ?undecoded, ?placed⟩
  case decoded =>
    intro s code rest i hs hdec hadm
    exact step_of_decode hs hdec (admits_of hadm)
  case quiet =>
    intro i s t new hexec htrace hnone
    rw [hexec]
    exact congrArg Host.Outcome.next (observed_of_no_delivery _ i htrace hnone)
  case stopped =>
    intro i s hstop
    exact afterwards_of_ne_next _ i s hstop
  case waiting =>
    intro s hs
    exact step_of_script_nil hs
  case undecoded =>
    intro s code rest e hs hdec
    exact step_script_congr (by rw [hs, nextOperation_error hdec])
  case placed =>
    intro s nbits w i hw
    exact step_of_decode (s := s.withFetchWord nbits w) rfl (decode_of_decodeTableWord hw) (admits_of (.inl rfl))

end Sys2Proof.Machine
end

section
/-! SUPPORT. How the invariants carry over between states (R28, R29): each part speaks of the fields of one side only, so
that an operation which leaves a side alone keeps that side's part. -/

namespace Sys2Proof.Machine

variable {c : Config} {s t u : State}

/-! ### Each part of the invariants depends on its own fields -/

theorem RxInv.congr (h : RxInv c s) (hmode : t.decMode = s.decMode) (hbuf : t.fbuf = s.fbuf) (hlen : t.flen = s.flen) :
    RxInv c t where
  fbuf_wf := hbuf ▸ h.fbuf_wf
  fbuf_within := hbuf ▸ h.fbuf_within
  fbuf_written := hbuf ▸ hlen ▸ h.fbuf_written
  flen_le := hlen ▸ h.flen_le
  wait_empty hm := hlen ▸ h.wait_empty (hmode ▸ hm)

theorem TxInv.congr (h : TxInv c s) (hsame : sameTx s t) : TxInv c t := by
  obtain ⟨hstate, hbuf, hlen, hq⟩ := hsame
  exact {
    txbuf_wf := hbuf ▸ h.txbuf_wf
    txbuf_within := hbuf ▸ h.txbuf_within
    txbuf_written := hbuf ▸ hlen ▸ h.txbuf_written
    txlen_le := hlen ▸ h.txlen_le
    ready_empty := fun hr => hq ▸ h.ready_empty (hstate ▸ hr)
    depth_le := hq ▸ h.depth_le
    payload_le := hq ▸ h.payload_le }

/-! ### The frame of each side -/

/-- What an operation of the receive side leaves alone (R28). -/
def ReceiveFrame (s t : State) : Prop := sameTx s t ∧ sameRest s t

/-- What an operation of the transmit side leaves alone (R28). -/
def TransmitFrame (s t : State) : Prop := sameRx s t ∧ sameRest s t

theorem sameRest.refl (s : State) : sameRest s s := ⟨rfl, rfl, rfl, rfl, rfl⟩

theorem sameRest.trans (h : sameRest s t) (h' : sameRest t u) : sameRest s u := by
  obtain ⟨h1, h2, h3, h4, h5⟩ := h
  obtain ⟨h1', h2', h3', h4', h5'⟩ := h'
  exact ⟨h1'.trans h1, h2'.trans h2, h3'.trans h3, h4'.trans h4, h5'.trans h5⟩

theorem ReceiveFrame.refl (s : State) : ReceiveFrame s s := ⟨⟨rfl, rfl, rfl, rfl⟩, .refl s⟩

theorem ReceiveFrame.trans (h : ReceiveFrame s t) (h' : ReceiveFrame t u) : ReceiveFrame s u := by
  obtain ⟨⟨h1, h2, h3, h4⟩, hrest⟩ := h
  obtain ⟨⟨h1', h2', h3', h4'⟩, hrest'⟩ := h'
  exact ⟨⟨h1'.trans h1, h2'.trans h2, h3'.trans h3, h4'.trans h4⟩, hrest.trans hrest'⟩

/-- The result belongs to no side. -/
theorem ReceiveFrame.withResult (h : ReceiveFrame s t) (r : OpResult) : ReceiveFrame s (t.withResult r) := h

theorem TransmitFrame.refl (s : State) : TransmitFrame s s := ⟨⟨rfl, rfl, rfl, rfl, rfl, rfl⟩, .refl s⟩

theorem TransmitFrame.trans (h : TransmitFrame s t) (h' : TransmitFrame t u) : TransmitFrame s u := by
  obtain ⟨⟨h1, h2, h3, h4, h5, h6⟩, hrest⟩ := h
  obtain ⟨⟨h1', h2', h3', h4', h5', h6'⟩, hrest'⟩ := h'
  exact ⟨⟨h1'.trans h1, h2'.trans h2, h3'.trans h3, h4'.trans h4, h5'.trans h5, h6'.trans h6⟩, hrest.trans hrest'⟩

/-- The result belongs to no side. -/
theorem TransmitFrame.withResult (h : TransmitFrame s t) (r : OpResult) : TransmitFrame s (t.withResult r) := h

/-! ### The invariants through the frames -/

/-- An update of what is outside the block, the result and the trace among it, keeps the invariants. -/
theorem Inv.outside (h : Inv c s) (trace : List Effect) (result : OpResult) (script : List Code)
    (actions : List DispatchAction) (occasion : Nat) :
    Inv c { s with trace := trace, result := result, script := script, actions := actions, occasion := occasion } where
  rx := h.rx.congr rfl rfl rfl
  tx := h.tx.congr ⟨rfl, rfl, rfl, rfl⟩
  valve := h.valve
  exchange := h.exchange
  scratch_dead := h.scratch_dead

theorem Inv.withResult (h : Inv c s) (r : OpResult) : Inv c (s.withResult r) := h.outside ..

theorem Inv.refuse (h : Inv c s) (e : ErrorOutcome) : Inv c (s.refuse e) := h.outside ..

/-- An operation of the receive side has only the receive side's parts to keep. -/
theorem Inv.of_receiveFrame (h : Inv c s) (hframe : ReceiveFrame s t) (hrx : RxInv c t) (hvalve : ValveInv t)
    (hscratch : t.scratch = []) : Inv c t := by
  obtain ⟨htx, hphase, -, hexch, -⟩ := hframe
  refine ⟨hrx, h.tx.congr htx, hvalve, fun hsome => ?_, hscratch⟩
  rw [hphase, htx.1]
  exact h.exchange (hexch ▸ hsome)

/-- An operation of the transmit side, outside an exchange, has only the transmitter's part to keep. -/
theorem Inv.of_transmitFrame (h : Inv c s) (hidle : s.exchange = none) (hframe : TransmitFrame s t) (htx : TxInv c t) :
    Inv c t := by
  obtain ⟨⟨hmode, hbuf, hlen, hscratch, hirq, htimer⟩, -, -, hexch, -⟩ := hframe
  refine ⟨h.rx.congr hmode hbuf hlen, htx, ?_, fun hsome => ?_, hscratch.trans h.scratch_dead⟩
  · rw [ValveInv, hirq, htimer]; exact h.valve
  · rw [hexch, hidle] at hsome; cases hsome

/-- The receive path writes ParserState and the trace, and needs to keep the decoder's part only. -/
theorem Inv.withReceived (h : Inv c s) {d : State} (hd : RxInv c d) : Inv c (s.withReceived d) :=
  h.of_receiveFrame (.refl s) (hd.congr rfl rfl rfl) h.valve h.scratch_dead

/-- An exchange may be set where it is admitted, and ended anywhere (R246, R247 point (h)). -/
theorem Inv.setExchange (h : Inv c s) (x : Option Exchange) (hx : x.isSome → s.phase = .boot ∧ s.txState = .ready) :
    Inv c { s with exchange := x } :=
  ⟨h.rx.congr rfl rfl rfl, h.tx.congr ⟨rfl, rfl, rfl, rfl⟩, h.valve, hx, h.scratch_dead⟩

/-- The phase binds an exchange only (R246). -/
theorem Inv.setPhase (h : Inv c s) (hidle : s.exchange = none) (phase : Phase) : Inv c { s with phase := phase } :=
  ⟨h.rx.congr rfl rfl rfl, h.tx.congr ⟨rfl, rfl, rfl, rfl⟩, h.valve, fun hsome => by simp [hidle] at hsome,
    h.scratch_dead⟩

/-! ### The reset state -/

/-- The reset state meets the invariants: nothing accumulated, nothing queued, the valve open (R10, R240). -/
theorem inv_reset (c : Config) : Inv c State.reset := by
  obtain ⟨hfbuf, htxbuf, -⟩ := reset_wf
  have hrx : RxInv c State.reset :=
    ⟨hfbuf, fun _ _ => rfl, Memory.writtenBelow_zero _, Nat.zero_le _, fun _ => rfl⟩
  have htx : TxInv c State.reset :=
    ⟨htxbuf, fun _ _ => rfl, Memory.writtenBelow_zero _, Nat.zero_le _, fun _ => rfl, fun _ _ => Nat.zero_le _,
      fun _ hx => absurd hx List.not_mem_nil⟩
  exact ⟨hrx, htx, rfl, fun hsome => absurd hsome Bool.false_ne_true, rfl⟩

/-- `RESET` establishes the invariants, whatever held before. -/
theorem inv_resetBlock (c : Config) (s : State) : Inv c (resetBlock s) := (inv_reset c).outside ..

/-- Settles O48. -/
theorem resetStateMeetsTheInvariants : Obligations.ResetStateMeetsTheInvariants :=
  ⟨inv_reset _, rfl, rfl, rfl, rfl, rfl, rfl, rfl, rfl, rfl⟩

/-! ### The outcome of an operation -/

theorem finish_map_eq_next {x : Except Fault State} {f : State → State} :
    finish (x.map f) = .next t ↔ ∃ u, x = .ok u ∧ f u = t := by
  cases x <;> simp [finish, Except.map]

/-- An outcome that keeps the invariants: the next state meets them, and there is no fault. -/
def Kept (c : Config) : Host.Outcome State Fault Refusal → Prop
  | .next t => Inv c t
  | .fault _ => False
  | .refused _ => True

/-- An operation that ends in a state with the invariants keeps them, whatever its result. -/
theorem kept_finish_withResult (h : Inv c t) (r : OpResult) :
    Kept c (finish ((Except.ok t).map (fun s' => s'.withResult r))) := h.withResult r

end Sys2Proof.Machine
end

section
/-! SUPPORT. The receive side: what each of its operations leaves alone from any state (R28), and that it keeps the
invariants (R15, R23). -/

namespace Sys2Proof.Machine

variable {c : Config} {conn : Bool} {s t : State}

/-! ### The valve -/

/-- Everything that closing the valve can do (R163): the timer is armed afterwards, by this call or already. -/
theorem closeValve_eq (c : Config) (s : State) :
    closeValve c s = { s with
      rxIrqEn := false, rxTimerArmed := true,
      trace := s.trace ++ if s.rxTimerArmed then [] else [.timerArm c.rxReenableDelay] } := by
  obtain ⟨⟩ := s
  simp only [closeValve, State.emit]
  split <;> simp_all

theorem closeValve_inv (h : Inv c s) : Inv c (closeValve c s) := by
  rw [closeValve_eq]
  exact h.of_receiveFrame (.refl s) (h.rx.congr rfl rfl rfl) rfl h.scratch_dead

theorem openValve_receiveFrame (s : State) : ReceiveFrame s (openValve s) := by
  unfold openValve
  split <;> exact .refl s

theorem openValve_inv (h : Inv c s) : Inv c (openValve s) := by
  unfold openValve
  split
  · exact h.of_receiveFrame (.refl s) (h.rx.congr rfl rfl rfl) rfl h.scratch_dead
  · exact h

/-- `BP_CHECK` closes the valve or changes nothing (R163). -/
theorem bpCheck_state (c : Config) (used max : Nat) (s : State) :
    (bpCheck c used max s).2 = closeValve c s ∨ (bpCheck c used max s).2 = s := by
  unfold bpCheck
  split
  · exact .inl rfl
  · exact .inr rfl

theorem bpCheck_receiveFrame (c : Config) (used max : Nat) (s : State) : ReceiveFrame s (bpCheck c used max s).2 := by
  rcases bpCheck_state c used max s with h | h <;> rw [h]
  · rw [closeValve_eq]; exact .refl s
  · exact .refl s

theorem bpCheck_inv (used max : Nat) (h : Inv c s) : Inv c (bpCheck c used max s).2 := by
  rcases bpCheck_state c used max s with hs | hs <;> rw [hs]
  · exact closeValve_inv h
  · exact h

/-! ### The router -/

theorem route_receiveFrame (c : Config) (pkt : Packet) (conn : Bool) (s : State) :
    ReceiveFrame s (route c pkt conn s) := by
  rw [route_eq]; exact .refl s

theorem route_inv (pkt : Packet) (conn : Bool) (h : Inv c s) : Inv c (route c pkt conn s) := by
  rw [route_eq]; exact h.outside ..

/-! ### `DECODE` -/

/-- `DECODE` reads and writes ParserState only. -/
theorem decodeBytes_frame {input : Bytes} {r : DecodeResult} {n : Nat} (h : decodeBytes c input s = .ok (r, n, t)) :
    t = s.withParser t := by
  induction input generalizing s r n with
  | nil => cases h; rfl
  | cons b rest ih =>
    simp only [decodeBytes] at h
    cases hb : decodeByte c b s with
    | error f => rw [hb] at h; cases h
    | ok x =>
      obtain ⟨a, s'⟩ := x
      have hs' := decodeByte_frame hb
      rw [hb] at h
      cases a with
      | frame F => cases h; exact hs'
      | overflow => cases h; exact hs'
      | more =>
        simp only at h
        cases hr : decodeBytes c rest s' with
        | error f => rw [hr] at h; cases h
        | ok y =>
          obtain ⟨r', n', t'⟩ := y
          rw [hr] at h
          cases h
          rw [ih hr, hs']; rfl

/-- In a state that meets the decoder's invariants `DECODE` goes through and keeps them. -/
theorem decodeBytes_ok (input : Bytes) (h : RxInv c s) :
    ∃ r n t, decodeBytes c input s = .ok (r, n, t) ∧ RxInv c t := by
  induction input generalizing s with
  | nil => exact ⟨_, _, s, rfl, h⟩
  | cons b rest ih =>
    obtain ⟨a, s', hb, hs'⟩ := decodeByte_ok b h
    simp only [decodeBytes, hb]
    cases a with
    | frame F => exact ⟨_, _, _, rfl, hs'⟩
    | overflow => exact ⟨_, _, _, rfl, hs'⟩
    | more =>
      obtain ⟨r, n, t, hr, ht⟩ := ih hs'
      exact ⟨r, n + 1, t, by simp only [hr], ht⟩

theorem decodeByteStep_receiveFrame {b : Byte} (h : decodeByteStep c b s = .next t) : ReceiveFrame s t := by
  unfold decodeByteStep at h
  cases hb : decodeByte c b s with
  | error f => rw [hb] at h; cases h
  | ok x =>
    obtain ⟨r, u⟩ := x
    rw [hb] at h
    cases h
    rw [decodeByte_frame hb]
    exact .refl s

theorem decodeStep_receiveFrame {input : Bytes} (h : decodeStep c input s = .next t) : ReceiveFrame s t := by
  unfold decodeStep at h
  cases hb : decodeBytes c input s with
  | error f => rw [hb] at h; cases h
  | ok x =>
    obtain ⟨r, n, u⟩ := x
    rw [hb] at h
    cases h
    rw [decodeBytes_frame hb]
    exact .refl s

/-- ParserState replaced by one that meets the decoder's invariants. -/
theorem Inv.withParser (h : Inv c s) {d : State} (hd : RxInv c d) : Inv c (s.withParser d) :=
  h.of_receiveFrame (.refl s) (hd.congr rfl rfl rfl) h.valve h.scratch_dead

theorem decodeByteStep_kept (b : Byte) (h : Inv c s) : Kept c (decodeByteStep c b s) := by
  obtain ⟨r, u, hb, hu⟩ := decodeByte_ok b h.rx
  simp only [decodeByteStep, hb, Kept]
  rw [decodeByte_frame hb]
  exact (h.withParser hu).withResult _

theorem decodeStep_kept (input : Bytes) (h : Inv c s) : Kept c (decodeStep c input s) := by
  obtain ⟨r, n, u, hb, hu⟩ := decodeBytes_ok input h.rx
  simp only [decodeStep, hb, Kept]
  rw [decodeBytes_frame hb]
  exact (h.withParser hu).withResult _

/-! ### `RX_READY` and the wire rows -/

theorem receive_receiveFrame {bs : Bytes} {used max : Nat} (h : receive c bs used max conn s = .ok t) :
    ReceiveFrame s t := by
  cases ho : overThreshold used max with
  | true =>
    rw [receive_over ho, closeValve_eq] at h
    cases h
    exact .refl s
  | false =>
    rw [receive_under ho] at h
    cases hf : feedAll c conn bs s with
    | error f => rw [hf] at h; cases h
    | ok u =>
      rw [hf] at h
      cases h
      rw [feedAll_frame hf]
      exact .refl s

theorem receiveEach_receiveFrame {bs : Bytes} (h : receiveEach c conn bs s = .ok t) : ReceiveFrame s t := by
  induction bs generalizing s with
  | nil => cases h; exact .refl _
  | cons b rest ih =>
    simp only [receiveEach] at h
    cases hb : receive c [b] 0 1 conn s with
    | error f => rw [hb] at h; cases h
    | ok u =>
      rw [hb] at h
      exact (receive_receiveFrame hb).trans (ih h)

/-- Bytes through the receive path keep the invariants. -/
theorem feedAll_inv (conn : Bool) (bs : Bytes) (h : Inv c s) : ∃ t, feedAll c conn bs s = .ok t ∧ Inv c t := by
  obtain ⟨t, ht, hrx, -⟩ := feedAll_ok conn bs h.rx
  refine ⟨t, ht, ?_⟩
  rw [feedAll_frame ht]
  exact h.withReceived hrx

/-- A notification goes through and keeps the invariants, over and under the threshold. -/
theorem receive_inv (bs : Bytes) (used max : Nat) (conn : Bool) (h : Inv c s) :
    ∃ t, receive c bs used max conn s = .ok t ∧ Inv c t := by
  cases ho : overThreshold used max with
  | true =>
    have hc := closeValve_inv h
    exact ⟨_, receive_over ho bs conn s,
      hc.of_receiveFrame (.refl _) (hc.rx.congr rfl rfl rfl) hc.valve rfl⟩
  | false =>
    obtain ⟨t, ht, hinv⟩ := feedAll_inv conn bs h
    exact ⟨t.dropScratch, by rw [receive_under ho, ht]; rfl,
      hinv.of_receiveFrame (.refl _) (hinv.rx.congr rfl rfl rfl) hinv.valve rfl⟩

theorem wireStep_receiveFrame {bs : Bytes} (h : wireStep c bs conn s = .next t) : ReceiveFrame s t := by
  obtain ⟨u, hu, rfl⟩ := finish_map_eq_next.mp h
  exact (receiveEach_receiveFrame hu).withResult _

theorem wireStep_kept (bs : Bytes) (conn : Bool) (h : Inv c s) : Kept c (wireStep c bs conn s) := by
  obtain ⟨t, ht, hinv⟩ := feedAll_inv conn bs h
  rw [wireStep, receiveEach_eq c conn bs h.scratch_dead, ht]
  exact kept_finish_withResult hinv _

theorem rxReadyStep_receiveFrame {bs : Bytes} {used max : Nat} (h : rxReadyStep c bs used max conn s = .next t) :
    ReceiveFrame s t := by
  unfold rxReadyStep at h
  split at h
  · obtain ⟨u, hu, rfl⟩ := finish_map_eq_next.mp h
    exact (receive_receiveFrame hu).withResult _
  · cases h

theorem rxReadyStep_kept (bs : Bytes) (used max : Nat) (conn : Bool) (h : Inv c s) :
    Kept c (rxReadyStep c bs used max conn s) := by
  unfold rxReadyStep
  split
  · obtain ⟨t, ht, hinv⟩ := receive_inv bs used max conn h
    rw [ht]
    exact kept_finish_withResult hinv _
  · trivial

/-! ### Packets received behind the decoder -/

theorem typeStep_receiveFrame {type : Byte} {p : Bytes} (h : typeStep c type (.receive p conn) s = .next t) :
    ReceiveFrame s t := by
  simp only [typeStep] at h
  split at h
  · cases h
    exact route_receiveFrame c _ conn s
  · cases h

theorem typeStep_receive_kept (type : Byte) (p : Bytes) (conn : Bool) (h : Inv c s) :
    Kept c (typeStep c type (.receive p conn) s) := by
  simp only [typeStep]
  split
  · exact (route_inv _ conn h).withResult _
  · trivial

theorem commandStep_kept (o : CtrlOp) (args : Bytes) (status : BleStatus) (h : Inv c s) :
    Kept c (commandStep c o args status s) := by
  simp only [commandStep]
  split
  · obtain ⟨script, hs⟩ := State.handOver_eq c
      (route c (parseBody c (bodyOf c (c.typeByte .control) (c.ctrlOpcode o :: args))) (isConnected status) s)
      status (c.ctrlOpcode o :: args)
    rw [hs]
    exact ((route_inv _ _ h).outside ..).withResult _
  · trivial

end Sys2Proof.Machine
end

section
/-! SUPPORT. The transmit side: `ENCODE` keeps a buffer sound (R42, R91, R92), what each operation leaves alone from any
state (R28), and that it keeps the invariants (R18, R20). -/

namespace Sys2Proof.Machine

variable {c : Config} {s t : State}

/-! ### Sound buffers -/

/-- A buffer in canonical form whose valid bytes have been written, with nothing beyond its capacity (R42, R91). -/
structure Buffer.Sound (B : Buffer) : Prop where
  wf : Memory.wf B.cells
  within : Memory.within B.cells B.cap
  written : Memory.writtenBelow B.cells B.len
  len_le : B.len ≤ B.cap

/-- Bytes stored no later than the end of the valid content, and within the capacity, leave a sound buffer, whatever part
of them is valid afterwards. -/
theorem Buffer.Sound.store {B : Buffer} (h : B.Sound) {k n : Nat} {bs : Bytes} (hk : k ≤ B.len)
    (hfit : k + bs.length ≤ B.cap) (hn : n ≤ k + bs.length) :
    Buffer.Sound { cells := Memory.store B.cells k bs, len := n, cap := B.cap } where
  wf := Memory.store_wf h.wf k bs
  within := Memory.within_store h.within hfit
  written := Memory.writtenBelow_mono (Memory.writtenBelow_store (Memory.writtenBelow_mono h.written hk) bs) hn
  len_le := hn.trans hfit

/-- An emptied buffer, its old bytes still stored. -/
theorem Buffer.Sound.clear {B : Buffer} (h : B.Sound) : Buffer.Sound { B with len := 0 } :=
  h.store (k := 0) (bs := []) (Nat.zero_le _) (Nat.zero_le _) le_rfl

/-- `ENCODE` into a sound buffer leaves a sound buffer, whether the frame fits or not (R92). -/
theorem encodeInto_sound {B : Buffer} (h : B.Sound) (type : Byte) (p : Bytes) :
    ∃ r B', encodeInto c B type p = (r, B') ∧ B'.Sound ∧ B'.cap = B.cap := by
  by_cases hfit : B.len + (wireOf c type p).length ≤ B.cap
  · exact ⟨_, _, encodeInto_done c B type p hfit, h.store le_rfl hfit le_rfl, rfl⟩
  · have hroom : B.len + ((wireOf c type p).take (B.cap - B.len)).length ≤ B.cap := by
      have := h.len_le
      have := List.length_take_le (B.cap - B.len) (wireOf c type p)
      omega
    exact ⟨_, _, encodeInto_full c B type p h.len_le (by omega), h.store le_rfl hroom (Nat.le_add_right _ _), rfl⟩

/-- The valid content of a sound buffer can be read. -/
theorem Buffer.Sound.content {B : Buffer} (h : B.Sound) : ∃ content, B.content = some content := by
  obtain ⟨content, hc, -⟩ := Memory.load_isSome (m := B.cells) (i := 0) (n := B.len)
    (fun k hk => by simpa using h.written k hk)
  exact ⟨content, hc⟩

theorem givenBuffer_sound {content : Bytes} {cap : Nat} (h : content.length ≤ cap) : (givenBuffer content cap).Sound :=
  Buffer.Sound.store (B := { cells := [], len := 0, cap := cap })
    ⟨List.Pairwise.nil, fun _ _ => rfl, Memory.writtenBelow_zero _, Nat.zero_le _⟩
    le_rfl (by simpa using h) (by simp)

/-! ### The transmit buffer -/

theorem TxInv.txBuffer_sound (h : TxInv c s) : (s.txBuffer c).Sound :=
  ⟨h.txbuf_wf, h.txbuf_within, h.txbuf_written, h.txlen_le⟩

/-- The fresh transmit buffer with which a request begins (R137). -/
theorem TxInv.emptied_txBuffer_sound (h : TxInv c s) : (({ s with txlen := 0 } : State).txBuffer c).Sound :=
  h.txBuffer_sound.clear

theorem TxInv.setTxBuffer (h : TxInv c s) {B : Buffer} (hB : B.Sound) (hcap : B.cap = c.txBufCap) :
    TxInv c (s.setTxBuffer B) where
  txbuf_wf := hB.wf
  txbuf_within := hcap ▸ hB.within
  txbuf_written := hB.written
  txlen_le := hcap ▸ hB.len_le
  ready_empty := h.ready_empty
  depth_le := h.depth_le
  payload_le := h.payload_le

/-- Bytes stored from the start of the transmit buffer, none or all of them valid afterwards. -/
theorem TxInv.refill (h : TxInv c s) {n : Nat} {bs : Bytes} (hfit : bs.length ≤ c.txBufCap) (hn : n ≤ bs.length) :
    TxInv c { s with txbuf := Memory.store s.txbuf 0 bs, txlen := n } :=
  h.setTxBuffer (h.txBuffer_sound.store (k := 0) (Nat.zero_le _) (by simpa using hfit) (by simpa using hn)) rfl

/-- A sound transmit buffer binds the transmitter's part only, in an exchange too. -/
theorem Inv.setTxBuffer (h : Inv c s) {B : Buffer} (hB : B.Sound) (hcap : B.cap = c.txBufCap) :
    Inv c (s.setTxBuffer B) :=
  ⟨h.rx.congr rfl rfl rfl, h.tx.setTxBuffer hB hcap, h.valve, h.exchange, h.scratch_dead⟩

theorem encodeResult_kept (space : Space) (r : EncodeResult) {B : Buffer} (hB : B.Sound) (h : Inv c s) :
    Kept c (encodeResult space r B s) := by
  obtain ⟨content, hc⟩ := hB.content
  rw [encodeResult, hc]
  exact h.withResult _

theorem encodeResult_transmitFrame {space : Space} {r : EncodeResult} {B : Buffer}
    (h : encodeResult space r B s = .next t) : TransmitFrame s t := by
  unfold encodeResult at h
  split at h
  · cases h; exact .refl s
  · cases h

theorem setTxBuffer_transmitFrame (s : State) (B : Buffer) : TransmitFrame s (s.setTxBuffer B) := .refl s

theorem encodeStep_txbuf_transmitFrame {type : Byte} {p : Bytes} (h : encodeStep c .txbuf type p s = .next t) :
    TransmitFrame s t := by
  simp only [encodeStep] at h
  split at h
  · split at h
    · cases h
    · exact (setTxBuffer_transmitFrame s _).trans (encodeResult_transmitFrame h)
  · cases h

theorem encodeStep_kept (dest : EncodeDest) (type : Byte) (p : Bytes) (h : Inv c s) :
    Kept c (encodeStep c dest type p s) := by
  unfold encodeStep
  split
  · cases dest with
    | txbuf =>
      obtain ⟨r, B, he, hB, hcap⟩ := encodeInto_sound (c := c) h.tx.txBuffer_sound type p
      simp only [he]
      split
      · trivial
      · exact encodeResult_kept _ _ hB (h.setTxBuffer hB hcap)
    | given content cap =>
      simp only
      split
      · rename_i hfit
        obtain ⟨r, B, he, hB, -⟩ := encodeInto_sound (c := c) (givenBuffer_sound hfit) type p
        simp only [he]
        exact encodeResult_kept _ _ hB h
      · trivial
  · trivial

/-! ### `SendNow` -/

/-- `SendNow` sends, or refuses: in both cases it touches the transmit buffer, the trace and `tx_state` alone (R137,
R141). -/
theorem sendNow_transmitFrame {type : Byte} {p : Bytes} {r : SendResult} (h : sendNow c type p s = .ok (r, t)) :
    TransmitFrame s t := by
  cases hw : requestWire c type p with
  | ok W =>
    rw [sendNow_sent hw] at h
    cases h
    exact .refl s
  | error e =>
    obtain ⟨junk, -, hj⟩ := sendNow_refused hw s
    rw [hj] at h
    cases h
    exact .refl s

/-- The transmitter's invariants but for the queue being empty in `READY`: what holds while the queue is drained, before
the drain has come to an end (R145). -/
def TxStored (c : Config) (s : State) : Prop := TxInv c { s with txState := .busy }

theorem TxInv.stored (h : TxInv c s) : TxStored c s := { h with ready_empty := nofun }

theorem TxStored.txInv (h : TxStored c s) (hready : s.txState = .ready → s.txq = []) : TxInv c s :=
  { h with ready_empty := hready }

/-- `SendNow` goes through, and keeps what is stored sound and the queue as it is. -/
theorem sendNow_stored (type : Byte) (p : Bytes) (h : TxStored c s) :
    ∃ r t, sendNow c type p s = .ok (r, t) ∧ TxStored c t ∧ t.txq = s.txq := by
  cases hw : requestWire c type p with
  | ok W =>
    obtain ⟨-, -, hfit⟩ := requestWire_ok hw
    have hW := TxInv.refill h hfit le_rfl
    exact ⟨_, _, sendNow_sent hw s, hW.congr ⟨rfl, rfl, rfl, rfl⟩, rfl⟩
  | error e =>
    obtain ⟨junk, hfit, hj⟩ := sendNow_refused hw s
    have hjunk := TxInv.refill h hfit (Nat.zero_le _)
    exact ⟨_, _, hj, hjunk.congr ⟨rfl, rfl, rfl, rfl⟩, rfl⟩

/-! ### `SEND` -/

theorem sendResult_transmitFrame (s : State) (r : SendResult) : TransmitFrame s (s.sendResult r) := by
  cases r <;> exact .refl s

theorem sendQueued_transmitFrame (c : Config) (type : Byte) (p : Bytes) (s : State) :
    TransmitFrame s (sendQueued c type p s) := by
  unfold sendQueued
  split <;> exact .refl s

theorem sendStep_transmitFrame {type : Byte} {p : Bytes} (h : sendStep c type p s = .next t) : TransmitFrame s t := by
  unfold sendStep at h
  split at h
  · split at h
    · cases h
      exact sendQueued_transmitFrame c type p s
    · split at h
      · rename_i hnow
        cases h
        exact (sendNow_transmitFrame hnow).trans (sendResult_transmitFrame _ _)
      · cases h
  · cases h

/-- The queue has room for one more where it is not full (R20, R142). -/
theorem depth_of_not_queueFull {d : Nat} (hd : c.txqDepth = some d) (hle : s.txq.length ≤ d)
    (hfull : ¬ s.queueFull c = true) : s.txq.length + 1 ≤ d := by
  simp only [State.queueFull, hd, decide_eq_true_eq] at hfull
  omega

/-- A request queued in `BUSY` keeps the queue within its depth and its operand range (R142). -/
theorem sendQueued_txInv {type : Byte} {p : Bytes} (h : TxInv c s) (hbusy : s.txState = .busy)
    (hp : p.length ≤ maxPayload) : TxInv c (sendQueued c type p s) := by
  unfold sendQueued
  split
  · exact h.congr ⟨rfl, rfl, rfl, rfl⟩
  · rename_i hfull
    refine ⟨h.txbuf_wf, h.txbuf_within, h.txbuf_written, h.txlen_le, fun hr => ?_, fun d hd => ?_, fun x hx => ?_⟩
    · simp [hbusy] at hr
    · simpa using depth_of_not_queueFull hd (h.depth_le d hd) hfull
    · rcases List.mem_append.mp hx with hx | hx
      · exact h.payload_le x hx
      · rw [List.mem_singleton.mp hx]; exact hp

theorem sendStep_kept (type : Byte) (p : Bytes) (h : Inv c s) (hidle : s.exchange = none) :
    Kept c (sendStep c type p s) := by
  unfold sendStep
  split
  · rename_i hp
    cases htx : s.txState with
    | busy =>
      exact h.of_transmitFrame hidle (sendQueued_transmitFrame c type p s)
        (sendQueued_txInv h.tx htx (of_decide_eq_true hp))
    | ready =>
      obtain ⟨r, t, hnow, hstored, hq⟩ := sendNow_stored type p h.tx.stored
      have ht : Inv c t := h.of_transmitFrame hidle (sendNow_transmitFrame hnow)
        (hstored.txInv fun _ => hq.trans (h.tx.ready_empty htx))
      simp only [hnow, Kept]
      cases r with
      | none => exact ht.withResult _
      | some e => exact ht.refuse e
  · trivial

theorem typeStep_kept (type : Byte) (use : TypeUse) (h : Inv c s) (hidle : s.exchange = none) :
    Kept c (typeStep c type use s) := by
  cases use with
  | transmit p => exact sendStep_kept type p h hidle
  | receive p conn => exact typeStep_receive_kept type p conn h

/-! ### `DRAIN` and `TX_COMPLETE` -/

theorem takeError_transmitFrame (s : State) (e : ErrorOutcome) : TransmitFrame s (s.takeError e) := by
  rw [State.takeError_eq]; exact .refl s

theorem drainLoop_transmitFrame {n : Nat} (h : drainLoop c n s = .ok t) : TransmitFrame s t := by
  induction n generalizing s with
  | zero => cases h; exact .refl _
  | succ n ih =>
    simp only [drainLoop] at h
    split at h
    · rename_i x rest hready hq
      have hpop : TransmitFrame s { s with txq := rest } := .refl s
      split at h
      · cases h
      · rename_i s' hnow
        exact hpop.trans ((sendNow_transmitFrame hnow).trans (ih h))
      · rename_i e s' hnow
        exact hpop.trans ((sendNow_transmitFrame hnow).trans ((takeError_transmitFrame s' e).trans (ih h)))
    · cases h; exact .refl _

/-- A queue with its head taken out. -/
theorem TxStored.pop {x : PendingSend} {rest : List PendingSend} (h : TxStored c s) (hq : s.txq = x :: rest) :
    TxStored c { s with txq := rest } where
  txbuf_wf := h.txbuf_wf
  txbuf_within := h.txbuf_within
  txbuf_written := h.txbuf_written
  txlen_le := h.txlen_le
  ready_empty := nofun
  depth_le d hd := by
    have := h.depth_le d hd
    simp only [hq, List.length_cons] at this
    exact Nat.le_of_succ_le this
  payload_le y hy := h.payload_le y (by simp only [hq]; exact List.mem_cons_of_mem x hy)

theorem TxStored.takeError (h : TxStored c s) (e : ErrorOutcome) : TxStored c (s.takeError e) := by
  rw [State.takeError_eq]
  exact TxInv.congr h ⟨rfl, rfl, rfl, rfl⟩

/-- A drain with enough rounds goes through, and ends with an empty queue or in `BUSY` (R145, R150). -/
theorem drainLoop_txInv {n : Nat} (h : TxStored c s) (hn : s.txq.length ≤ n) :
    ∃ t, drainLoop c n s = .ok t ∧ TxInv c t := by
  induction n generalizing s with
  | zero => exact ⟨s, rfl, h.txInv fun _ => List.length_eq_zero_iff.mp (Nat.le_zero.mp hn)⟩
  | succ n ih =>
    simp only [drainLoop]
    split
    · rename_i x rest hready hq
      obtain ⟨r, t, hnow, hstored, htq⟩ := sendNow_stored x.type x.payload (h.pop hq)
      have hlen : t.txq.length ≤ n := by rw [htq]; rw [hq] at hn; exact Nat.le_of_succ_le_succ hn
      simp only [hnow]
      cases r with
      | none => exact ih hstored hlen
      | some e => exact ih (hstored.takeError e) (by rw [State.takeError_eq]; exact hlen)
    · rename_i hstop
      refine ⟨s, rfl, h.txInv fun hready => ?_⟩
      cases hq : s.txq with
      | nil => rfl
      | cons x rest => exact absurd hq (hstop x rest hready)

theorem drainStep_transmitFrame (h : drainStep c s = .next t) : TransmitFrame s t := by
  obtain ⟨u, hu, rfl⟩ := finish_map_eq_next.mp h
  exact (drainLoop_transmitFrame hu).withResult _

/-- The completion makes the transmitter `READY` (R144). -/
theorem setReady_transmitFrame (s : State) : TransmitFrame s { s with txState := .ready } := .refl s

theorem txCompleteStep_transmitFrame (h : txCompleteStep c s = .next t) : TransmitFrame s t := by
  obtain ⟨u, hu, rfl⟩ := finish_map_eq_next.mp h
  exact ((setReady_transmitFrame s).trans (drainLoop_transmitFrame hu)).withResult _

theorem drainStep_kept (h : Inv c s) (hidle : s.exchange = none) : Kept c (drainStep c s) := by
  obtain ⟨t, ht, htx⟩ := drainLoop_txInv h.tx.stored le_rfl
  rw [drainStep, drain, ht]
  exact kept_finish_withResult (h.of_transmitFrame hidle (drainLoop_transmitFrame ht) htx) _

theorem txCompleteStep_kept (h : Inv c s) (hidle : s.exchange = none) : Kept c (txCompleteStep c s) := by
  obtain ⟨t, ht, htx⟩ := drainLoop_txInv (s := { s with txState := .ready }) h.tx.stored le_rfl
  rw [txCompleteStep, drain, ht]
  exact kept_finish_withResult
    (h.of_transmitFrame hidle ((setReady_transmitFrame s).trans (drainLoop_transmitFrame ht)) htx) _

end Sys2Proof.Machine
end

section
/-! SUPPORT. The blocking exchange keeps the invariants (R246, R247, R249). -/

namespace Sys2Proof.Machine

variable {c : Config} {s : State}

/-- The busy-poll goes through, keeps the decoder's invariants, and writes ParserState and the trace only. -/
theorem pollReads_ok (expect : Byte) (reads : List Bytes) (h : RxInv c s) (hscratch : s.scratch = []) :
    ∃ p t, pollReads c expect reads s = .ok (p, t) ∧ RxInv c t ∧ t = s.withReceived t := by
  induction reads generalizing s with
  | nil => exact ⟨none, s, rfl, h, rfl⟩
  | cons bs rest ih =>
    obtain ⟨p, u, hu, hrx, -⟩ := pollAll_ok expect bs h
    have hframe := pollAll_frame hu
    have hdead : u.scratch = [] := by rw [hframe]; exact hscratch
    have hdrop : u.dropScratch = u := by rw [State.dropScratch, ← hdead]
    have hread : pollRead c expect bs s = .ok (p, u) := by rw [pollRead_eq, hu]; simp only [Except.map, hdrop]
    simp only [pollReads, hread]
    cases p with
    | some p => exact ⟨some p, u, rfl, hrx, hframe⟩
    | none =>
      obtain ⟨p, t, ht, htrx, htframe⟩ := ih hrx hdead
      exact ⟨p, t, ht, htrx, by rw [htframe, hframe]; rfl⟩

/-- Polling in `BOOT` and `READY` keeps the invariants, whether the reply comes or not. -/
theorem pollExchange_inv (x : Exchange) (reads : List Bytes) (h : Inv c s)
    (hadm : s.phase = .boot ∧ s.txState = .ready) : ∃ t, pollExchange c x reads s = .ok t ∧ Inv c t := by
  obtain ⟨p, u, hu, hrx, hframe⟩ := pollReads_ok x.expect reads h.rx h.scratch_dead
  have hinv : Inv c u := by rw [hframe]; exact h.withReceived hrx
  have hadm' : u.phase = .boot ∧ u.txState = .ready := by rw [hframe]; exact hadm
  simp only [pollExchange, hu]
  cases p with
  | some p => exact ⟨_, rfl, (hinv.setExchange none nofun).withResult _⟩
  | none => exact ⟨_, rfl, (hinv.setExchange (some x) fun _ => hadm').withResult _⟩

/-- The blocking write of what the transmit buffer holds goes through. -/
theorem submitBlocking_inv (h : Inv c s) :
    ∃ t, submitBlocking s = .ok t ∧ Inv c t ∧ t.phase = s.phase ∧ t.txState = s.txState := by
  obtain ⟨W, hW⟩ := h.tx.txBuffer_sound.content
  have hload : Memory.load s.txbuf 0 s.txlen = some W := hW
  exact ⟨s.emit (.uartTxBlocking W), by simp only [submitBlocking, hload], h.outside .., rfl, rfl⟩

/-- A new exchange goes through and keeps the invariants: not admitted, refused for capacity, or polling. -/
theorem beginExchange_inv (x : Exchange) (reads : List Bytes) (h : Inv c s) :
    ∃ t, beginExchange c x reads s = .ok t ∧ Inv c t := by
  unfold beginExchange
  split
  · rename_i hadm
    obtain ⟨r, B, he, hB, hcap⟩ :=
      encodeInto_sound (c := c) h.tx.emptied_txBuffer_sound (c.typeByte .control) x.req
    simp only [he]
    cases r with
    | capacityExceeded => exact ⟨_, rfl, (h.setTxBuffer hB.clear hcap).refuse _⟩
    | done =>
      obtain ⟨u, hu, hinv, hphase, hready⟩ := submitBlocking_inv (h.setTxBuffer hB hcap)
      simp only [hu]
      simp only [exchangeAdmitted, Bool.and_eq_true, decide_eq_true_eq] at hadm
      exact pollExchange_inv x reads hinv ⟨hphase.trans hadm.1, hready.trans hadm.2⟩
  · exact ⟨_, rfl, h.refuse _⟩

theorem syncXchgStep_kept (req : Bytes) (expect : Byte) (reads : List Bytes) (h : Inv c s) :
    Kept c (syncXchgStep c req expect reads s) := by
  unfold syncXchgStep
  split
  · split
    · simp only
      split
      · rename_i hx
        have hadm := h.exchange (by rw [hx]; rfl)
        obtain ⟨t, ht, hinv⟩ := pollExchange_inv { req := req, expect := expect } reads h hadm
        rw [ht]
        exact hinv
      · obtain ⟨t, ht, hinv⟩ := beginExchange_inv { req := req, expect := expect } reads h
        rw [ht]
        exact hinv
    · trivial
  · trivial

end Sys2Proof.Machine
end

section
/-! SUPPORT. The instructions and the step: what each leaves alone (R28), that each keeps the invariants (R29), and the
statements about both. -/

namespace Sys2Proof.Machine

variable {i : Instr} {s t : State}

/-! ### The two sides -/

/-- No operation of the receive side touches the transmit side, the phase or the environment. -/
theorem exec_receiveFrame (hi : isReceiveSide i = true) (h : exec i s = .next t) : ReceiveFrame s t := by
  cases i with
  | delim conn | esc conn | lit b conn | escPair7E conn | escPair7D conn | escPair02 conn | escPairAny x conn
  | wireFrame body conn => exact wireStep_receiveFrame h
  | frameBody type len p crc conn => cases h; exact route_receiveFrame _ _ conn s
  | route pkt conn => cases h; exact route_receiveFrame _ _ conn s
  | rxReady bs used max conn => exact rxReadyStep_receiveFrame h
  | timerFire => cases h; exact openValve_receiveFrame s
  | bpCheck used max => cases h; exact bpCheck_receiveFrame _ used max s
  | decodeByte b => exact decodeByteStep_receiveFrame h
  | decode input => exact decodeStep_receiveFrame h
  | typeAck use | typeNak use | typeBleData use | typeControl use | typePing use | typeOther type use =>
    cases use with
    | transmit p => cases hi
    | receive p conn => exact typeStep_receiveFrame h
  | _ => cases hi

/-- No operation of the transmit side touches the receive side, the phase or the environment. -/
theorem exec_transmitFrame (hi : isTransmitSide i = true) (h : exec i s = .next t) : TransmitFrame s t := by
  cases i with
  | send type p => exact sendStep_transmitFrame h
  | txComplete => exact txCompleteStep_transmitFrame h
  | drain => exact drainStep_transmitFrame h
  | encode dest type p =>
    cases dest with
    | txbuf => exact encodeStep_txbuf_transmitFrame h
    | given content cap => cases hi
  | typeAck use | typeNak use | typeBleData use | typeControl use | typePing use | typeOther type use =>
    cases use with
    | transmit p => exact sendStep_transmitFrame h
    | receive p conn => cases hi
  | _ => cases hi

/-- Settles O42: each side's operations have the frame of that side. -/
theorem theTwoSidesShareNothing : Obligations.TheTwoSidesShareNothing :=
  fun _ _ _ h => ⟨fun hi => exec_receiveFrame hi h, fun hi => exec_transmitFrame hi h⟩

/-! ### The invariants -/

/-- Outside an exchange every instruction keeps the invariants and raises no fault. -/
theorem exec_kept_idle (i : Instr) (h : Inv Config.impl s) (hidle : s.exchange = none) :
    Kept Config.impl (exec i s) := by
  cases i with
  | delim conn | esc conn | lit b conn | escPair7E conn | escPair7D conn | escPair02 conn | escPairAny x conn
  | wireFrame body conn => exact wireStep_kept _ conn h
  | frameBody type len p crc conn => exact (route_inv _ conn h).withResult _
  | route pkt conn => exact (route_inv _ conn h).withResult _
  | rxReady bs used max conn => exact rxReadyStep_kept bs used max conn h
  | timerFire => exact (openValve_inv h).withResult _
  | bpCheck used max => exact (bpCheck_inv used max h).withResult _
  | decodeByte b => exact decodeByteStep_kept b h
  | decode input => exact decodeStep_kept input h
  | typeAck use | typeNak use | typeBleData use | typeControl use | typePing use | typeOther type use =>
    exact typeStep_kept _ use h hidle
  | send type p => exact sendStep_kept type p h hidle
  | txComplete => exact txCompleteStep_kept h hidle
  | drain => exact drainStep_kept h hidle
  | encode dest type p => exact encodeStep_kept dest type p h
  | syncXchg req expect reads => exact syncXchgStep_kept req expect reads h
  | reset => exact inv_resetBlock _ s
  | start => exact (h.setPhase hidle .run).withResult _
  | escape b | crc16 bs | parse body | classify type => exact h.withResult _
  | ctrlDeviceName args st | ctrlBondDbGet args st | ctrlBondDbSet args st | ctrlPairingCode args st
  | ctrlBleStatus args st | ctrlIrk args st | ctrlProductString args st | ctrlChipReset args st
  | ctrlIdentityAddress args st | ctrlPairingSuccessful args st | ctrlTkConfirm args st | ctrlBleEnabled args st
  | ctrlTxPower args st | ctrlDebugString args st => exact commandStep_kept _ args st h

/-- What is admitted: anything outside an exchange, and in one a reset or more reads (R222, R249, R251). -/
theorem admits_cases (h : admits s i = true) :
    s.exchange = none ∨ i = .reset ∨ ∃ req expect reads, i = .syncXchg req expect reads := by
  cases hx : s.exchange with
  | none => exact .inl rfl
  | some x =>
    simp only [admits, hx] at h
    split at h
    · exact .inr (.inl rfl)
    · exact .inr (.inr ⟨_, _, _, rfl⟩)
    · cases h

/-- Every admitted instruction keeps the invariants and raises no fault. -/
theorem exec_kept (h : Inv Config.impl s) (ha : admits s i = true) : Kept Config.impl (exec i s) := by
  obtain hidle | rfl | ⟨req, expect, reads, rfl⟩ := admits_cases ha
  · exact exec_kept_idle i h hidle
  · exact inv_resetBlock _ s
  · exact syncXchgStep_kept req expect reads h

/-- Everything that a step can do: wait, stop at an operation that is not admitted, or execute one that is. -/
theorem step_cases (s : State) :
    step s = .next { s with script := [] } ∨ step s = .fault .exchangeInProgress ∨
      ∃ (i : Instr) (script : List Code), admits { s with script := script } i = true ∧
        step s = afterwards Config.impl i { s with script := script } (exec i { s with script := script }) := by
  unfold step fetch
  cases nextOperation Config.impl s.script with
  | none => exact .inl rfl
  | some x =>
    obtain ⟨i, script⟩ := x
    cases ha : admits { s with script := script } i with
    | false => exact .inr (.inl (by simp only [Option.map_some, ha, Bool.false_eq_true, if_false]))
    | true => exact .inr (.inr ⟨i, script, ha, by simp only [Option.map_some, ha, if_true]⟩)

/-- The dispatcher's observation keeps what the operation has kept (R202). -/
theorem afterwards_kept {c : Config} {o : Host.Outcome State Fault Refusal} (i : Instr) (s : State) (h : Kept c o) :
    Kept c (afterwards c i s o) := by
  cases o with
  | next t =>
    obtain ⟨script, actions, occasion, ho⟩ := observed_frame c i s t
    simp only [afterwards, Kept, ho]
    exact Inv.outside h ..
  | fault f => exact h
  | refused r => exact h

/-- From a state that meets the invariants a step keeps them, or stops at an operation that is not admitted. -/
theorem step_kept (h : Inv Config.impl s) : step s = .fault .exchangeInProgress ∨ Kept Config.impl (step s) := by
  obtain hwait | hstop | ⟨i, script, ha, hexec⟩ := step_cases s
  · exact .inr (hwait ▸ h.outside ..)
  · exact .inl hstop
  · have hs : Inv Config.impl { s with script := script } := h.outside ..
    exact .inr (hexec ▸ afterwards_kept i _ (exec_kept hs ha))

/-- Settles O57: every admitted instruction keeps the invariants, and the dispatcher touches none of them. -/
theorem everyStepKeepsTheInvariants : Obligations.EveryStepKeepsTheInvariants := by
  intro s t h hstep
  obtain hstop | hkept := step_kept h
  · rw [hstop] at hstep; cases hstep
  · rwa [hstep] at hkept

/-- Settles O58: from a state that meets the invariants the only fault of a step is `exchangeInProgress`. -/
theorem noUnwrittenByteIsRead : Obligations.NoUnwrittenByteIsRead := by
  intro s sp h hfault
  obtain hstop | hkept := step_kept h
  · rw [hstop] at hfault; cases hfault
  · rw [hfault] at hkept; exact hkept

end Sys2Proof.Machine
end

section
/-! SUPPORT. What lies outside an operand's range is refused by the model before anything else is looked at
(assumption 8): one refusal per operation and operand, under any configuration. -/

namespace Sys2Proof.Machine

variable {c : Config}

/-! ### The operand ranges as lengths -/

theorem payloadFits_eq_false {p : Bytes} (h : 65535 < p.length) : payloadFits p = false :=
  decide_eq_false (Nat.not_le.mpr h)

theorem payloadFits_eq_true {p : Bytes} (h : p.length ≤ 65535) : payloadFits p = true :=
  decide_eq_true h

/-- The opcode is one byte of the payload, and the arguments are the rest (R69). -/
theorem argsFit_eq_false {args : Bytes} (h : 65535 < args.length + 1) : argsFit args = false :=
  decide_eq_false (Nat.not_le.mpr h)

/-- One read that is too long is enough: the reads do not all fit. -/
theorem readsFit_eq_false {reads : List Bytes} {r : Bytes} (hr : r ∈ reads) (h : c.rxScratchCap < r.length) :
    reads.all (fun r => decide (r.length ≤ c.rxScratchCap)) = false :=
  List.all_eq_false.mpr ⟨r, hr, by simpa using h⟩

/-! ### A payload of more than 65535 bytes -/

theorem sendStep_payloadTooLong (t : Byte) {p : Bytes} (s : State) (h : 65535 < p.length) :
    sendStep c t p s = .refused .payloadTooLong := by
  simp only [sendStep, payloadFits_eq_false h, Bool.false_eq_true, if_false]

/-- Whatever the destination: the payload is looked at first. -/
theorem encodeStep_payloadTooLong (d : EncodeDest) (t : Byte) {p : Bytes} (s : State) (h : 65535 < p.length) :
    encodeStep c d t p s = .refused .payloadTooLong := by
  simp only [encodeStep, payloadFits_eq_false h, Bool.false_eq_true, if_false]

theorem syncXchgStep_payloadTooLong {req : Bytes} (expect : Byte) (reads : List Bytes) (s : State)
    (h : 65535 < req.length) : syncXchgStep c req expect reads s = .refused .payloadTooLong := by
  simp only [syncXchgStep, payloadFits_eq_false h, Bool.false_eq_true, if_false]

/-- A type byte put to use with a payload that is too long, in either direction. -/
theorem typeStep_payloadTooLong (t : Byte) {p : Bytes} {u : TypeUse} (s : State)
    (hu : u = .transmit p ∨ ∃ conn, u = .receive p conn) (h : 65535 < p.length) :
    typeStep c t u s = .refused .payloadTooLong := by
  obtain rfl | ⟨conn, rfl⟩ := hu
  · exact sendStep_payloadTooLong t s h
  · simp only [typeStep, payloadFits_eq_false h, Bool.false_eq_true, if_false]

/-- Each of the fourteen rows is the command step of its opcode (R190). -/
theorem exec_commandInstr (o : CtrlOp) (args : Bytes) (st : BleStatus) (s : State) :
    exec (commandInstr o args st) s = commandStep Config.impl o args st s := by
  cases o <;> rfl

theorem commandStep_payloadTooLong (o : CtrlOp) {args : Bytes} (st : BleStatus) (s : State)
    (h : 65535 < args.length + 1) : commandStep c o args st s = .refused .payloadTooLong := by
  simp only [commandStep, argsFit_eq_false h, Bool.false_eq_true, if_false]

/-! ### A read of more than the scratch buffer, and a buffer with more than its capacity -/

theorem rxReadyStep_readTooLong {bs : Bytes} (used max : Nat) (conn : Bool) (s : State)
    (h : c.rxScratchCap < bs.length) : rxReadyStep c bs used max conn s = .refused .readTooLong :=
  if_neg (Nat.not_le.mpr h)

theorem syncXchgStep_readTooLong {req : Bytes} (expect : Byte) {reads : List Bytes} {r : Bytes} (s : State)
    (hreq : req.length ≤ 65535) (hr : r ∈ reads) (h : c.rxScratchCap < r.length) :
    syncXchgStep c req expect reads s = .refused .readTooLong := by
  simp only [syncXchgStep, payloadFits_eq_true hreq, readsFit_eq_false hr h, Bool.false_eq_true, if_true, if_false]

theorem encodeStep_destinationOverfull {content : Bytes} {cap : Nat} (t : Byte) {p : Bytes} (s : State)
    (hp : p.length ≤ 65535) (h : cap < content.length) :
    encodeStep c (.given content cap) t p s = .refused .destinationOverfull := by
  simp only [encodeStep, payloadFits_eq_true hp, if_true, if_neg (Nat.not_le.mpr h)]

/-! ### The statement -/

/-- Settles O56: each instruction is the step of its operation, which refuses what lies outside its operand's range. -/
theorem operandsOutOfRangeAreRefused : Obligations.OperandsOutOfRangeAreRefused := by
  refine ⟨?payload, ?command, ?read, ?exchangeRead, ?destination⟩
  case payload =>
    intro t p s h
    refine ⟨sendStep_payloadTooLong t s h, fun d => encodeStep_payloadTooLong d t s h,
      fun expect reads => syncXchgStep_payloadTooLong expect reads s h, fun u hu => ?_⟩
    have hrefused (type : Byte) : typeStep Config.impl type u s = .refused .payloadTooLong :=
      typeStep_payloadTooLong type s hu h
    exact ⟨hrefused _, hrefused _, hrefused _, hrefused _, hrefused _, hrefused t⟩
  case command =>
    intro o args st s h
    rw [exec_commandInstr]
    exact commandStep_payloadTooLong o st s h
  case read =>
    intro bs used max conn s h
    exact rxReadyStep_readTooLong used max conn s h
  case exchangeRead =>
    intro req expect reads r s hreq hr h
    exact syncXchgStep_readTooLong expect s hreq hr h
  case destination =>
    intro content cap t p s hp h
    exact encodeStep_destinationOverfull t s hp h

end Sys2Proof.Machine
end

section
/-! SUPPORT. The decoder and the encoder of the script (R76): what the decoder reads in each row format, and that this is
the instruction whose code it is (R60 to R63, R66, R78, R190). -/

namespace Sys2Proof.Machine

variable {c : Config}

/-! ### The wire-byte and wire-pair rows (R60, R61) -/

/-- The row of the pair `7D x`: the three pairs of the escape set have rows of their own (R61). -/
def pairInstr (conn : Bool) (x : Byte) : Instr :=
  if x = 0x5E then .escPair7E conn else if x = 0x5D then .escPair7D conn
  else if x = 0x22 then .escPair02 conn else .escPairAny x conn

theorem decodeBits_byte (b : Byte) (conn : Bool) : decodeBits 8 b.toNat conn = .ok (byteInstr conn b) :=
  congrArg (fun b => Except.ok (byteInstr conn b)) (BitVec.ofNat_toNat 8 b)

/-- A 16-bit pattern with the marker in its bits 15 to 8 is the pair of its low byte (R76). -/
theorem decodeBits_pair (x : Byte) (conn : Bool) : decodeBits 16 (0x7D00 + x.toNat) conn = .ok (pairInstr conn x) := by
  have hx : x.toNat < 256 := x.isLt
  have hfirst : BitVec.ofNat 8 ((0x7D00 + x.toNat) / 256) = escByte := by
    rw [show (0x7D00 + x.toNat) / 256 = 0x7D by omega]; rfl
  have hsecond : BitVec.ofNat 8 (0x7D00 + x.toNat) = x := by
    apply BitVec.eq_of_toNat_eq; rw [BitVec.toNat_ofNat]; omega
  simp only [decodeBits, hfirst, hsecond, pairInstr, if_true, Nat.reduceEqDiff, if_false]

theorem decodeBits_notAPair {w : Nat} (conn : Bool) (hw : w < 65536) (h : w / 256 ≠ 0x7D) :
    decodeBits 16 w conn = .error .notAnEscapedPair := by
  have hfirst : BitVec.ofNat 8 (w / 256) ≠ escByte := fun he => h (by
    have hmod : w / 256 % 256 = 0x7D := (BitVec.toNat_ofNat (w / 256) 8).symm.trans (congrArg BitVec.toNat he)
    omega)
  simp only [decodeBits, if_neg hfirst, Nat.reduceEqDiff, if_false, if_true]

theorem encode_pairInstr (c : Config) (conn : Bool) (x : Byte) :
    encode c (pairInstr conn x) = .bits 16 (0x7D00 + x.toNat) conn := by
  unfold pairInstr
  split
  case isTrue h => rw [h]; rfl
  case isFalse =>
    split
    case isTrue h => rw [h]; rfl
    case isFalse =>
      split
      case isTrue h => rw [h]; rfl
      case isFalse => rfl

theorem byteInstr_of_literal {b : Byte} (conn : Bool) (h : b ≠ delimByte ∧ b ≠ escByte) :
    byteInstr conn b = .lit b conn := by
  obtain ⟨hdelim, hesc⟩ := h
  simp only [byteInstr, if_neg hdelim, if_neg hesc]

theorem pairInstr_of_any {x : Byte} (conn : Bool) (h : x ≠ 0x5E ∧ x ≠ 0x5D ∧ x ≠ 0x22) :
    pairInstr conn x = .escPairAny x conn := by
  obtain ⟨h7E, h7D, h02⟩ := h
  simp only [pairInstr, if_neg h7E, if_neg h7D, if_neg h02]

theorem byteInstr_eq_delim_iff {b : Byte} {conn : Bool} : byteInstr conn b = .delim conn ↔ b = delimByte := by
  unfold byteInstr
  split
  case isTrue h => simp only [h]
  case isFalse h => split <;> simp only [h, reduceCtorEq]

theorem byteInstr_eq_esc_iff {b : Byte} {conn : Bool} : byteInstr conn b = .esc conn ↔ b = escByte := by
  unfold byteInstr
  split
  case isTrue h => simp only [h, reduceCtorEq, false_iff]; decide
  case isFalse =>
    split
    case isTrue h => simp only [h]
    case isFalse h => simp only [h, reduceCtorEq]

/-! ### The frame-body and wire-frame rows (R62, R63) -/

/-- A body that passes the length check is read field by field, as the parser reads it (R121). -/
theorem decodeBody_of_lengthOk {F : Bytes} (conn : Bool) (h : lengthOk F = true) :
    decodeBody F conn = .ok (.frameBody (byteAt F 0) (assemble16 (byteAt F 1) (byteAt F 2))
      (bodyPayload F (declaredLength F)) (receivedCrc F (declaredLength F)) conn) := by
  simp only [lengthOk, Bool.and_eq_true, decide_eq_true_eq] at h
  obtain ⟨hmin, hdeclared⟩ := h
  simp only [decodeBody]
  rw [if_neg (Nat.not_lt.mpr hmin)]
  exact if_neg (not_not.mpr hdeclared)

theorem decodeBody_layoutBody (t : Byte) {len : Word16} {p : Bytes} (crc : Word16) (conn : Bool)
    (h : p.length = len.toNat) : decodeBody (layoutBody t len p crc) conn = .ok (.frameBody t len p crc conn) := by
  have hlen : assemble16 (byteAt (layoutBody t len p crc) 1) (byteAt (layoutBody t len p crc) 2) = len :=
    assemble16_lo8_hi8 len
  rw [decodeBody_of_lengthOk conn (layoutBody_lengthOk t len p crc h), hlen, layoutBody_declaredLength,
    layoutBody_payload t len p crc h, layoutBody_receivedCrc t len p crc h, layoutBody_type]

/-- The inside of an encoder's frame gives its body back, and so the frame is the row of that body (R62, R94). -/
theorem decodeFrame_wireOfBody (F : Bytes) (conn : Bool) :
    decodeFrame (wireOfBody F) conn = .ok (.wireFrame F conn) := by
  have hlast : (escapeAll F ++ [delimByte]).getLast? = some delimByte := List.getLast?_concat
  simp only [decodeFrame, wireOfBody, hlast, and_self, if_true, List.dropLast_concat, unescape_escapeAll]

/-! ### The type-byte rows (R66) -/

/-- The class of a packet type (R124). -/
def classOf : PacketType → TypeClass
  | .ack => .ack
  | .nak => .nak
  | .bleData => .bleData
  | .control => .control
  | .ping => .ping

/-- Each of the five type bytes has its own class, the five being distinct (R3, R124). -/
theorem classifyByte_typeByte (c : Config) (ty : PacketType) : classifyByte c (c.typeByte ty) = classOf ty := by
  cases ty <;> simp [classifyByte, classOf, c.typeByte_injective.eq_iff]

theorem classifyByte_other {t : Byte} (h : ∀ ty, t ≠ c.typeByte ty) : classifyByte c t = .none := by
  simp only [classifyByte, if_neg (h _)]

theorem ne_typeByte_of_unassigned {t : Byte} (h : c.unassigned t = true) (ty : PacketType) : t ≠ c.typeByte ty := by
  obtain ⟨hack, hnak, hble, hcontrol, hping⟩ := of_decide_eq_true h
  cases ty
  case ack => exact hack
  case nak => exact hnak
  case bleData => exact hble
  case control => exact hcontrol
  case ping => exact hping

/-! ### The ctrl-opcode rows (R190) -/

/-- Each opcode byte stands for its own opcode, the fourteen being distinct (R200). -/
theorem ctrlOpOf_ctrlOpcode (c : Config) (o : CtrlOp) : ctrlOpOf c (c.ctrlOpcode o) = some o := by
  simp only [ctrlOpOf, c.ctrlOpcode_injective.eq_iff]
  cases o <;> rfl

theorem decode_command (c : Config) (o : CtrlOp) (args : Bytes) (st : BleStatus) :
    decode c (.command (c.ctrlOpcode o :: args) st) = .ok (commandInstr o args st) := by
  simp only [decode, decodeCommand, ctrlOpOf_ctrlOpcode]

/-! ### The statements -/

/-- Settles O1, row format by row format: a fixed word or a line of the script is read as it stands; a literal and a pair
by their byte; a body, a frame, a type and an opcode by the lemma of their format. -/
theorem decodeEncodeAgree : Obligations.DecodeEncodeAgree := by
  intro c i h
  cases i with
  | lit b conn =>
    exact (decodeBits_byte b conn).trans (congrArg _ (byteInstr_of_literal conn (of_decide_eq_true h)))
  | escPairAny x conn =>
    exact (decodeBits_pair x conn).trans (congrArg _ (pairInstr_of_any conn (of_decide_eq_true h)))
  | frameBody t len p crc conn => exact decodeBody_layoutBody t crc conn (of_decide_eq_true h)
  | wireFrame F conn => exact decodeFrame_wireOfBody F conn
  | typeAck u => simp only [encode, decode, decodeTyped, classifyByte_typeByte, classOf]
  | typeNak u => simp only [encode, decode, decodeTyped, classifyByte_typeByte, classOf]
  | typeBleData u => simp only [encode, decode, decodeTyped, classifyByte_typeByte, classOf]
  | typeControl u => exact decode_encode_typeControl c u
  | typePing u => simp only [encode, decode, decodeTyped, classifyByte_typeByte, classOf]
  | typeOther t u =>
    have hother := ne_typeByte_of_unassigned (Bool.and_eq_true_iff.mp h).1
    simp only [encode, decode, decodeTyped, classifyByte_other hother]
  | ctrlDeviceName args st => exact decode_command c .deviceName args st
  | ctrlBondDbGet args st => exact decode_command c .bondDbGet args st
  | ctrlBondDbSet args st => exact decode_command c .bondDbSet args st
  | ctrlPairingCode args st => exact decode_command c .pairingCode args st
  | ctrlBleStatus args st => exact decode_command c .bleStatus args st
  | ctrlIrk args st => exact decode_command c .irk args st
  | ctrlProductString args st => exact decode_command c .productString args st
  | ctrlChipReset args st => exact decode_command c .chipReset args st
  | ctrlIdentityAddress args st => exact decode_command c .identityAddress args st
  | ctrlPairingSuccessful args st => exact decode_command c .pairingSuccessful args st
  | ctrlTkConfirm args st => exact decode_command c .tkConfirm args st
  | ctrlBleEnabled args st => exact decode_command c .bleEnabled args st
  | ctrlTxPower args st => exact decode_command c .txPower args st
  | ctrlDebugString args st => exact decode_command c .debugString args st
  | _ => rfl

/-- Settles O2: a pattern of a byte is that byte's token, and one with the marker in front the pair of its low byte. -/
theorem everyBitPatternHasOneReading : Obligations.EveryBitPatternHasOneReading := by
  intro c conn w
  have hlow : (BitVec.ofNat 8 w).toNat = w % 256 := BitVec.toNat_ofNat w 8
  refine ⟨fun hw => ?byte, fun _ hmarker => ?pair, decodeBits_notAPair conn⟩
  case byte =>
    have hb : (BitVec.ofNat 8 w).toNat = w := by omega
    refine ⟨byteInstr conn (BitVec.ofNat 8 w), rfl, ?_, ?_, ?_⟩
    · rw [encode_byteInstr, hb]
    · rw [byteInstr_eq_delim_iff, ← BitVec.toNat_inj, hb]; rfl
    · rw [byteInstr_eq_esc_iff, ← BitVec.toNat_inj, hb]; rfl
  case pair =>
    have hw : w = 0x7D00 + (BitVec.ofNat 8 w).toNat := by omega
    refine ⟨pairInstr conn (BitVec.ofNat 8 w), ?_, ?_⟩
    · conv_lhs => rw [hw]
      exact decodeBits_pair _ conn
    · rw [encode_pairInstr, ← hw]

/-- Settles O3: each word is evaluated. -/
theorem writtenWordsDecode : Obligations.WrittenWordsDecode :=
  ⟨rfl, rfl, rfl, rfl, rfl, rfl, rfl, rfl, rfl⟩

end Sys2Proof.Machine
end

section
/-! SUPPORT. The size of a wire frame (R68), and the 64-byte pieces of a BLE_DATA payload (R69, R139). -/

namespace Sys2Proof.Machine

/-! ### The size of a wire frame -/

/-- A byte of the escape set takes two wire bytes, any other one (R68, R90). -/
theorem escapeByte_length (b : Byte) :
    (escapeByte b).length = if b = 0x7E ∨ b = 0x7D ∨ b = 0x02 then 2 else 1 :=
  apply_ite List.length _ _ _

/-- The escaped form of a body is longer than the body by the number of its bytes in the escape set (R68). -/
theorem escapeAll_length (F : Bytes) :
    (escapeAll F).length = F.length + F.countP (fun b => decide (b = 0x7E ∨ b = 0x7D ∨ b = 0x02)) := by
  induction F with
  | nil => rfl
  | cons b F ih =>
    have hcons : (escapeAll (b :: F)).length = (escapeByte b).length + (escapeAll F).length := List.length_append
    rw [hcons, ih, escapeByte_length, List.length_cons, List.countP_cons]
    simp only [decide_eq_true_eq]
    split <;> omega

/-- Two delimiters around the escaped body (R62). -/
theorem wireOfBody_length (F : Bytes) : (wireOfBody F).length =
    2 + F.length + F.countP (fun b => decide (b = 0x7E ∨ b = 0x7D ∨ b = 0x02)) := by
  simp only [wireOfBody, List.length_cons, List.length_append, List.length_nil, escapeAll_length]
  omega

/-- Every byte of the body takes one wire byte at least and two at most. -/
theorem wireOf_length_bounds (c : Config) (t : Byte) (p : Bytes) :
    p.length + 7 ≤ (wireOf c t p).length ∧ (wireOf c t p).length ≤ 2 * p.length + 12 := by
  have hbody : (bodyOf c t p).length = p.length + 5 := layoutBody_length ..
  have hescaped := List.countP_le_length (p := fun b : Byte => decide (b = 0x7E ∨ b = 0x7D ∨ b = 0x02))
    (l := bodyOf c t p)
  rw [wireOf, wireOfBody_length]
  omega

/-- Settles O4: the count of R68, and the bounds that it gives a body of 5 bytes more than its payload. -/
theorem wireFrameSize : Obligations.WireFrameSize := by
  refine ⟨escapeByte_length, wireOfBody_length, fun c t p => ?_⟩
  obtain ⟨hlo, hhi⟩ := wireOf_length_bounds c t p
  exact ⟨hlo, hhi, fun hp => ⟨by omega, by omega⟩⟩

/-! ### The chunks of a BLE_DATA payload -/

/-- An index into a slice is an index into the whole, from the slice's start on (R8). -/
theorem slice_getElem? (F : Bytes) (i n k : Nat) (hk : k < n) : (slice F i (i + n))[k]? = F[i + k]? := by
  rw [slice, Nat.add_sub_cancel_left, List.getElem?_take_of_lt hk, List.getElem?_drop]

theorem slice_length (F : Bytes) (i n : Nat) (h : i + n ≤ F.length) : (slice F i (i + n)).length = n := by
  rw [slice, List.length_take, List.length_drop]
  omega

/-- Consecutive slices of one size, put together, are what they were cut from. -/
theorem flatten_slices (F : Bytes) (n k : Nat) :
    ((List.range k).map (fun i => slice F (n * i) (n * i + n))).flatten = F.take (n * k) := by
  induction k with
  | zero => simp
  | succ k ih =>
    rw [List.range_succ, List.map_append, List.flatten_append, ih, List.map_singleton, List.flatten_singleton, slice,
      Nat.add_sub_cancel_left, Nat.mul_succ, List.take_add]

/-- A payload of `k` times 64 bytes has the chunks `0` to `k - 1` (R69). -/
theorem chunks_eq {p : Bytes} {k : Nat} (h : p.length = 64 * k) :
    chunks p = (List.range k).map (fun i => slice p (64 * i) (64 * i + 64)) := by
  have hk : p.length / bleChunk = k := by rw [h, bleChunk]; omega
  rw [chunks, hk, bleChunk]

/-- Settles O35: the chunks are consecutive slices of 64 bytes. -/
theorem bleDataChunks : Obligations.BleDataChunks := by
  intro p k h
  rw [chunks_eq h]
  refine ⟨?count, ?whole, fun i hi => ⟨slice p (64 * i) (64 * i + 64), ?here, ?size, ?bytes⟩⟩
  case count => rw [List.length_map, List.length_range]
  case whole => rw [flatten_slices, ← h, List.take_length]
  case here => rw [List.getElem?_map, List.getElem?_range hi, Option.map_some]
  case size => exact slice_length p (64 * i) 64 (by omega)
  case bytes => exact fun j hj => slice_getElem? p (64 * i) 64 j hj

end Sys2Proof.Machine
end

section
/-! SUPPORT. The rows behind the decoder: a frame body and a packet of each type received (R63, R66, R160, R169), and a
request of each type (R66, R135). -/

namespace Sys2Proof.Machine

variable {c : Config}

/-! ### Received -/

/-- Settles O24: the parser reads the fields that are laid out, and the router does no more than its effects. -/
theorem frameBodyParsedAndRouted : Obligations.FrameBodyParsedAndRouted := by
  intro t len p crc conn s h
  have hexec : exec (.frameBody t len p crc conn) s =
      .next ((route Config.impl (parseBody Config.impl (layoutBody t len p crc)) conn s).withResult
        (.packet (parseBody Config.impl (layoutBody t len p crc)))) := rfl
  rw [hexec, route_eq, parseBody_layout t len p crc h]
  rfl

/-- A type-byte row receives the packet with that type and payload, and the router does no more than its effects. -/
theorem typeStep_receive (t : Byte) {p : Bytes} (conn : Bool) (s : State) (hp : p.length ≤ 65535) :
    typeStep c t (.receive p conn) s = .next { s with
      result := .none
      trace := s.trace ++ routeEffects c conn (.ok t p (classifyByte c t)) } := by
  simp only [typeStep, payloadFits_eq_true hp, if_true, parseBody_bodyOf c t hp, route_eq]
  rfl

/-- A packet of a class without a routing action changes nothing but the result (R173, R174). -/
theorem typeStep_receive_quiet {t : Byte} {p : Bytes} {conn : Bool} (s : State) (hp : p.length ≤ 65535)
    (hquiet : routeEffects c conn (.ok t p (classifyByte c t)) = []) :
    typeStep c t (.receive p conn) s = .next { s with result := .none } := by
  rw [typeStep_receive t conn s hp, hquiet, List.append_nil]

/-- Settles O43: the class of each type byte, and the effects of that class at the router. -/
theorem eachTypeReceived : Obligations.EachTypeReceived := by
  intro p conn t s hp
  refine ⟨?ack, ?nak, ?ping, ?bleData, ?control, fun hother => ?other⟩
  case ack => exact typeStep_receive_quiet s hp (by rw [classifyByte_typeByte]; rfl)
  case nak => exact typeStep_receive_quiet s hp (by rw [classifyByte_typeByte]; rfl)
  case ping => exact typeStep_receive_quiet s hp (by rw [classifyByte_typeByte]; rfl)
  case bleData => exact (typeStep_receive _ conn s hp).trans (by rw [classifyByte_typeByte]; rfl)
  case control => exact (typeStep_receive _ conn s hp).trans (by rw [classifyByte_typeByte]; rfl)
  case other => exact typeStep_receive_quiet s hp (by rw [classifyByte_other hother]; rfl)

/-! ### Requested -/

theorem State.queueFull_iff {s : State} : s.queueFull c = true ↔ c.txqDepth = some s.txq.length := by
  unfold State.queueFull
  cases c.txqDepth with
  | none => simp
  | some d => simp [eq_comm]

/-- A request in `BUSY` changes the queue or, where it is full, nothing but the result (R142). -/
theorem sendQueued_eq (c : Config) (t : Byte) (p : Bytes) (s : State) :
    sendQueued c t p s = if c.txqDepth = some s.txq.length then { s with result := .refused .queueFull }
      else { s with txq := s.txq ++ [⟨t, p⟩], result := .queued } := by
  simp only [sendQueued, State.queueFull_iff]
  rfl

/-- `SEND` in `BUSY` looks at the queue only (R142, R143). -/
theorem sendStep_busy (t : Byte) {p : Bytes} {s : State} (hp : p.length ≤ 65535) (hbusy : s.txState = .busy) :
    sendStep c t p s = .next (if c.txqDepth = some s.txq.length then { s with result := .refused .queueFull }
      else { s with txq := s.txq ++ [⟨t, p⟩], result := .queued }) := by
  have hqueued : sendStep c t p s = .next (sendQueued c t p s) := by
    simp only [sendStep, payloadFits_eq_true hp, if_true, hbusy]
  rw [hqueued, sendQueued_eq]

/-- `SEND` in `READY` of a type that is not transmitted is refused, with an empty transmit buffer (R136). -/
theorem sendStep_invalidType {t : Byte} {p : Bytes} {s : State} (hp : p.length ≤ 65535) (hready : s.txState = .ready)
    (hcontrol : t ≠ c.typeByte .control) (hble : t ≠ c.typeByte .bleData) :
    sendStep c t p s = .next { s with txlen := 0, result := .refused .invalidType } := by
  have hdefect : sendDefect c t p = some .invalidType := by
    simp only [sendDefect, typeTransmits, decide_eq_false hcontrol, decide_eq_false hble, Bool.or_self,
      Bool.false_eq_true, if_false]
  simp only [sendStep, payloadFits_eq_true hp, if_true, hready, sendNow, hdefect]
  rfl

/-- The type bytes that are not transmitted are neither CONTROL nor BLE_DATA, the five being distinct (R3, R136). -/
theorem typeByte_not_transmitted {ty : PacketType} (hcontrol : ty ≠ .control) (hble : ty ≠ .bleData) :
    c.typeByte ty ≠ c.typeByte .control ∧ c.typeByte ty ≠ c.typeByte .bleData :=
  ⟨c.typeByte_injective.ne hcontrol, c.typeByte_injective.ne hble⟩

/-- Settles O44: each row is a `SEND` by definition, and its refusal is that of the type. -/
theorem eachTypeTransmitted : Obligations.EachTypeTransmitted := by
  refine ⟨fun p t s => ⟨rfl, rfl, rfl, rfl, rfl, rfl⟩, fun i p t s hp hi => ?_⟩
  have hsend : exec i s = sendStep Config.impl t p s ∧
      t ≠ Config.impl.typeByte .control ∧ t ≠ Config.impl.typeByte .bleData := by
    rcases hi with ⟨rfl, rfl⟩ | ⟨rfl, rfl⟩ | ⟨rfl, rfl⟩ | ⟨rfl, hother⟩
    · exact ⟨rfl, typeByte_not_transmitted nofun nofun⟩
    · exact ⟨rfl, typeByte_not_transmitted nofun nofun⟩
    · exact ⟨rfl, typeByte_not_transmitted nofun nofun⟩
    · exact ⟨rfl, hother _, hother _⟩
  obtain ⟨hexec, hcontrol, hble⟩ := hsend
  rw [hexec]
  obtain hready | hbusy : s.txState = .ready ∨ s.txState = .busy := by cases s.txState <;> simp
  · exact (sendStep_invalidType hp hready hcontrol hble).trans (by rw [hready])
  · exact (sendStep_busy t hp hbusy).trans (by rw [hbusy])

end Sys2Proof.Machine
end

section
/-! SUPPORT. The wire rows: a byte received is one step of the decoder with the effects of its answer (R60, R100, R160),
more bytes are received one after the other, and a wire frame received is its body parsed and routed (R62, R103). -/

namespace Sys2Proof.Machine

variable {c : Config} {s t : State} {conn : Bool}

/-! ### One byte in each mode of the decoder (R100) -/

/-- Mode `WAIT` (R101). -/
theorem decodeByte_wait (b : Byte) (hm : s.decMode = .wait) :
    decodeByte c b s = .ok (.more, { s with decMode := if b = delimByte then .inFrame else .wait }) := by
  simp only [decodeByte, hm, decodeWait]
  split
  · rfl
  · rw [← hm]

/-- A delimiter behind 3 bytes or more completes the frame that `fbuf` holds (R103). -/
theorem decodeByte_completes {F : Bytes} (hm : s.decMode = .inFrame) (hlen : 3 ≤ s.flen)
    (hF : Memory.load s.fbuf 0 s.flen = some F) :
    decodeByte c delimByte s = .ok (.frame F, { s with flen := 0, decMode := .wait }) := by
  simp only [decodeByte, hm, decodeInFrame, if_true, decodeDelim, hF, minComplete, if_pos hlen]

/-- A delimiter behind fewer bytes is a false start (R104). -/
theorem decodeByte_falseStart (hm : s.decMode = .inFrame) (hlen : ¬ 3 ≤ s.flen) :
    decodeByte c delimByte s = .ok (.more, { s with flen := 0 }) := by
  simp only [decodeByte, hm, decodeInFrame, if_true, decodeDelim, minComplete, if_neg hlen]

/-- An escape marker inside a frame changes the mode alone (R102). -/
theorem decodeByte_marker (hm : s.decMode = .inFrame) :
    decodeByte c escByte s = .ok (.more, { s with decMode := .escaped }) := by
  simp only [decodeByte, hm, decodeInFrame]
  rw [if_neg (by decide), if_pos trivial]

theorem setDecMode_self {m : DecMode} (hm : s.decMode = m) : { s with decMode := m } = s := by
  rw [← hm]

/-- A literal inside a frame is appended (R105). -/
theorem decodeByte_literal {b : Byte} (hm : s.decMode = .inFrame) (hb : b ≠ delimByte ∧ b ≠ escByte) :
    decodeByte c b s = .ok (appendBody c b { s with decMode := .inFrame }) := by
  obtain ⟨hdelim, hesc⟩ := hb
  rw [setDecMode_self hm]
  simp only [decodeByte, hm, decodeInFrame, if_neg hdelim, if_neg hesc]

/-- After a marker every byte is appended with the mask (R106). -/
theorem decodeByte_masked (b : Byte) (hm : s.decMode = .escaped) :
    decodeByte c b s = .ok (appendBody c (b ^^^ xorMask) { s with decMode := .inFrame }) := by
  simp only [decodeByte, hm, decodeEscaped]

/-! ### A notification does not read the result -/

theorem feedAll_withResult (c : Config) (conn : Bool) (bs : Bytes) (s : State) (r : OpResult) :
    feedAll c conn bs (s.withResult r) = (feedAll c conn bs s).map (fun t => t.withResult r) := by
  have h := feedAll_withReceived c conn bs (s.withResult r) s
  have hself : (s.withResult r).withReceived s = s.withResult r := rfl
  rw [hself] at h
  rw [h]
  cases hf : feedAll c conn bs s with
  | error f => rfl
  | ok t =>
    have hframe : (s.withResult r).withReceived t = (s.withReceived t).withResult r := rfl
    rw [Except.map, Except.map, hframe, ← feedAll_frame hf]

theorem receive_withResult (bs : Bytes) {used max : Nat} (h : overThreshold used max = false) (conn : Bool) (s : State)
    (r : OpResult) :
    receive c bs used max conn (s.withResult r) = (receive c bs used max conn s).map (fun t => t.withResult r) := by
  rw [receive_under h, receive_under h, feedAll_withResult]
  cases feedAll c conn bs s <;> rfl

theorem receiveEach_withResult (c : Config) (conn : Bool) (bs : Bytes) (s : State) (r : OpResult) :
    receiveEach c conn bs (s.withResult r) = (receiveEach c conn bs s).map (fun t => t.withResult r) := by
  induction bs generalizing s with
  | nil => rfl
  | cons b bs ih =>
    simp only [receiveEach, receive_withResult [b] (used := 0) (max := 1) rfl]
    cases receive c [b] 0 1 conn s with
    | error f => rfl
    | ok t => exact ih t

/-- Receiving bytes overwrites the result. -/
theorem wireStep_withResult (c : Config) (bs : Bytes) (conn : Bool) (s : State) (r : OpResult) :
    wireStep c bs conn (s.withResult r) = wireStep c bs conn s := by
  rw [wireStep, receiveEach_withResult]
  cases h : receiveEach c conn bs s with
  | error f => simp only [wireStep, h]; rfl
  | ok t => simp only [wireStep, h]; rfl

/-! ### Bytes received one after the other -/

theorem wireStep_single_ok {b : Byte} (h : receive c [b] 0 1 conn s = .ok t) :
    wireStep c [b] conn s = .next (t.withResult .none) := by
  simp only [wireStep, receiveEach, h]
  rfl

theorem wireStep_cons_ok {b : Byte} (h : receive c [b] 0 1 conn s = .ok t) (bs : Bytes) :
    wireStep c (b :: bs) conn s = wireStep c bs conn (t.withResult .none) := by
  rw [wireStep_withResult]
  simp only [wireStep, receiveEach, h]

theorem wireStep_cons_error {b : Byte} {f : Fault} (h : receive c [b] 0 1 conn s = .error f) (bs : Bytes) :
    wireStep c (b :: bs) conn s = .fault f := by
  simp only [wireStep, receiveEach, h]
  rfl

/-- Once a first byte has been received, the row goes on with the bytes behind it. -/
theorem wireStep_cons {b : Byte} (h : wireStep c [b] conn s = .next t) (bs : Bytes) :
    wireStep c (b :: bs) conn s = wireStep c bs conn t := by
  cases hr : receive c [b] 0 1 conn s with
  | error f => rw [wireStep_cons_error hr] at h; cases h
  | ok u =>
    rw [wireStep_single_ok hr] at h
    cases h
    exact wireStep_cons_ok hr bs

/-- A byte received is the row of its token (R60). -/
theorem exec_byteInstr (conn : Bool) (b : Byte) (s : State) :
    exec (byteInstr conn b) s = wireStep Config.impl [b] conn s := by
  unfold byteInstr
  split
  case isTrue h => rw [h]; rfl
  case isFalse =>
    split
    case isTrue h => rw [h]; rfl
    case isFalse => rfl

/-- Bytes received are the rows of their tokens, one after the other. -/
theorem wireStep_eq_execAll (conn : Bool) (b : Byte) (bs : Bytes) (s : State) :
    wireStep Config.impl (b :: bs) conn s = execAll ((b :: bs).map (byteInstr conn)) s := by
  induction bs generalizing b s with
  | nil =>
    simp only [List.map_cons, List.map_nil, execAll, exec_byteInstr]
    cases wireStep Config.impl [b] conn s <;> rfl
  | cons b' bs ih =>
    rw [List.map_cons, execAll, exec_byteInstr]
    cases hr : receive Config.impl [b] 0 1 conn s with
    | error f => simp only [wireStep_cons_error hr]
    | ok t => rw [wireStep_cons_ok hr, wireStep_single_ok hr, ih]

/-! ### What a wire row comes to -/

/-- With `scratch` dead, a byte received is one step of the decoder and the effects of its answer (R160, R169). -/
theorem wireStep_single {b : Byte} {r : ByteResult} (hs : s.scratch = []) (h : decodeByte c b s = .ok (r, t)) :
    wireStep c [b] conn s = .next { t with trace := t.trace ++ byteEffects c conn r, result := .none } := by
  simp only [wireStep, receiveEach_eq c conn [b] hs, feedAll, feedByte_eq, h]
  rfl

/-- A byte that answers nothing has no effect. -/
theorem wireStep_single_more {b : Byte} (hs : s.scratch = []) (h : decodeByte c b s = .ok (.more, t)) :
    wireStep c [b] conn s = .next { t with result := .none } := by
  rw [wireStep_single hs h]
  simp only [byteEffects, ByteResult.answers, List.flatMap_nil, List.append_nil]

/-- What a body byte `v` received inside a frame comes to: stored at index `flen`, or, on a full buffer, the frame lost
with a report (R105, R168). -/
def State.bodyByteReceived (c : Config) (v : Byte) (s : State) : State :=
  if s.flen = c.rxFrameCap then
    { s with flen := 0, decMode := .wait, trace := s.trace ++ [.diag .rxOverflow], result := .none }
  else { s with fbuf := Memory.write s.fbuf s.flen v, flen := s.flen + 1, decMode := .inFrame, result := .none }

/-- A byte that the decoder appends inside a frame. -/
theorem wireStep_single_append {b v : Byte} (hs : s.scratch = [])
    (h : decodeByte c b s = .ok (appendBody c v { s with decMode := .inFrame })) :
    wireStep c [b] conn s = .next (s.bodyByteReceived c v) := by
  unfold State.bodyByteReceived
  by_cases hfull : s.flen = c.rxFrameCap
  · rw [appendBody_full (s := { s with decMode := .inFrame }) v hfull] at h
    rw [if_pos hfull]
    exact wireStep_single hs h
  · rw [appendBody_room (s := { s with decMode := .inFrame }) v hfull] at h
    rw [if_neg hfull]
    exact wireStep_single_more hs h

theorem wireStep_literal {b : Byte} (hs : s.scratch = []) (hm : s.decMode = .inFrame)
    (hb : b ≠ delimByte ∧ b ≠ escByte) : wireStep c [b] conn s = .next (s.bodyByteReceived c b) :=
  wireStep_single_append hs (decodeByte_literal hm hb)

theorem wireStep_masked (b : Byte) (hs : s.scratch = []) (hm : s.decMode = .escaped) :
    wireStep c [b] conn s = .next (s.bodyByteReceived c (b ^^^ xorMask)) :=
  wireStep_single_append hs (decodeByte_masked b hm)

/-- A byte that is no delimiter is ignored in mode `WAIT` (R101). -/
theorem wireStep_ignored {b : Byte} (hs : s.scratch = []) (hm : s.decMode = .wait) (hb : b ≠ delimByte) :
    wireStep c [b] conn s = .next { s with result := .none } := by
  rw [wireStep_single_more hs (decodeByte_wait b hm), if_neg hb, hm]

/-- A pair inside a frame is the body byte that it stands for (R61, R106). -/
theorem wireStep_pair (x : Byte) (hs : s.scratch = []) (hm : s.decMode = .inFrame) :
    wireStep c [escByte, x] conn s = .next (s.bodyByteReceived c (x ^^^ xorMask)) :=
  (wireStep_cons (wireStep_single_more hs (decodeByte_marker hm)) [x]).trans (wireStep_masked x hs rfl)

/-- The frame accumulated so far can be read (R14, R42). -/
theorem RxInv.load_fbuf (h : RxInv c s) : ∃ F, Memory.load s.fbuf 0 s.flen = some F :=
  have ⟨F, hF, _⟩ := Memory.load_isSome (m := s.fbuf) (i := 0) (n := s.flen)
    (fun k hk => by simpa using h.fbuf_written k hk)
  ⟨F, hF⟩

/-- The three modes (R13). -/
theorem decMode_cases (m : DecMode) : m = .wait ∨ m = .inFrame ∨ m = .escaped := by
  cases m <;> simp

/-! ### The statements for one byte and for a pair -/

/-- Settles O14: the delimiter in each mode; `F` is what `fbuf` holds and `m` what it holds with `0x5E` stored. -/
theorem delimiterReceived : Obligations.DelimiterReceived := by
  intro conn s h
  obtain ⟨F, hF⟩ := h.rx.load_fbuf
  obtain ⟨hlength, hread⟩ := Memory.load_eq_some.mp hF
  refine ⟨F, Memory.write s.fbuf s.flen 0x5E, hlength, fun i hi => by simpa using hread i hi,
    fun i => Memory.read_write .., ?_⟩
  change wireStep Config.impl [delimByte] conn s = _
  have hs := h.scratch_dead
  obtain hm | hm | hm := decMode_cases s.decMode
  · rw [wireStep_single_more hs (decodeByte_wait delimByte hm), if_pos rfl, hm]
  · by_cases hlen : 3 ≤ s.flen
    · rw [wireStep_single hs (decodeByte_completes hm hlen hF), if_pos hlen, hm]
      simp only [byteEffects, ByteResult.answers, List.flatMap_singleton, answerEffects]
    · rw [wireStep_single_more hs (decodeByte_falseStart hm hlen), if_neg hlen, hm]
  · rw [wireStep_masked delimByte hs hm, hm]
    rfl

/-- Settles O15: the marker in each mode; `m` is what `fbuf` holds with `0x5D` stored. -/
theorem escapeMarkerReceived : Obligations.EscapeMarkerReceived := by
  intro conn s h
  refine ⟨Memory.write s.fbuf s.flen 0x5D, fun i => Memory.read_write .., ?_⟩
  change wireStep Config.impl [escByte] conn s = _
  have hs := h.scratch_dead
  obtain hm | hm | hm := decMode_cases s.decMode
  · rw [wireStep_ignored hs hm (by decide), hm]
  · rw [wireStep_single_more hs (decodeByte_marker hm), hm]
  · rw [wireStep_masked escByte hs hm, hm]
    rfl

/-- Settles O16: a literal in each mode; `m` is what `fbuf` holds with the byte stored, masked after a marker. -/
theorem literalReceived : Obligations.LiteralReceived := by
  intro b conn s h hdelim hesc
  refine ⟨_, fun i => Memory.read_write .., ?_⟩
  change wireStep Config.impl [b] conn s = _
  have hs := h.scratch_dead
  obtain hm | hm | hm := decMode_cases s.decMode
  · rw [wireStep_ignored hs hm hdelim, if_pos hm]
  · rw [wireStep_literal hs hm ⟨hdelim, hesc⟩, hm]
    rfl
  · rw [wireStep_masked b hs hm, hm]
    rfl

/-- Settles O17: the marker changes the mode, so that the second byte is appended with the mask; in every mode the row is
the marker's and then the second byte's. -/
theorem escapedPairReceived : Obligations.EscapedPairReceived := by
  refine ⟨fun i v conn s h hm hi => ?inFrame, fun conn s t h => ?everyMode⟩
  case inFrame =>
    obtain ⟨x, hexec, hv⟩ : ∃ x, exec i s = wireStep Config.impl [escByte, x] conn s ∧ v = x ^^^ xorMask := by
      rcases hi with ⟨rfl, rfl⟩ | ⟨rfl, rfl⟩ | ⟨rfl, rfl⟩ | ⟨x, rfl, rfl⟩
      · exact ⟨0x5E, rfl, rfl⟩
      · exact ⟨0x5D, rfl, rfl⟩
      · exact ⟨0x22, rfl, rfl⟩
      · exact ⟨x, rfl, rfl⟩
    refine ⟨Memory.write s.fbuf s.flen v, fun j => Memory.read_write .., ?_⟩
    rw [hexec, hv, wireStep_pair x h.scratch_dead hm, State.bodyByteReceived, ← hm]
  case everyMode =>
    have hpair (x : Byte) : wireStep Config.impl [escByte, x] conn s = wireStep Config.impl [x] conn t :=
      wireStep_cons h [x]
    exact ⟨hpair 0x5E, hpair 0x5D, hpair 0x22, fun x => (hpair x).trans (exec_byteInstr conn x t).symm⟩

/-! ### A whole wire frame -/

/-- The decoder over bytes reads and writes ParserState only. -/
theorem driveAll_withParser (c : Config) (bs : Bytes) (s d : State) :
    driveAll c bs (s.withParser d) = (driveAll c bs d).map (fun x => (x.1, s.withParser x.2)) := by
  induction bs generalizing d with
  | nil => rfl
  | cons b bs ih =>
    simp only [driveAll, decodeByte_withParser]
    cases decodeByte c b d with
    | error f => rfl
    | ok x =>
      simp only [Except.map, ih]
      cases driveAll c bs x.2 <;> rfl

theorem driveAll_frame {bs : Bytes} {rs : List DecodeResult} (h : driveAll c bs s = .ok (rs, t)) :
    t = s.withParser t := by
  have hself := driveAll_withParser c bs s s
  rw [State.withParser_self, h] at hself
  simpa [Except.map] using hself

/-- The receive path is the decoder, with the effects of its answers in order (R160, R167). -/
theorem feedAll_of_driveAll (conn : Bool) {bs : Bytes} {rs : List DecodeResult} (h : driveAll c bs s = .ok (rs, t)) :
    feedAll c conn bs s = .ok { t with trace := t.trace ++ rs.flatMap (answerEffects c conn) } := by
  induction bs generalizing s t rs with
  | nil => cases h; simp only [feedAll, List.flatMap_nil, List.append_nil]
  | cons b bs ih =>
    cases hb : decodeByte c b s with
    | error f => simp only [driveAll, hb] at h; cases h
    | ok x =>
      obtain ⟨r, s'⟩ := x
      cases hrest : driveAll c bs s' with
      | error f => simp only [driveAll, hb, hrest] at h; cases h
      | ok y =>
        obtain ⟨rs', t'⟩ := y
        simp only [driveAll, hb, hrest] at h
        cases h
        have hfed : feedByte c conn b s = .ok { s' with trace := s'.trace ++ byteEffects c conn r } := by
          rw [feedByte_eq, hb]; rfl
        have hdrive := driveAll_withParser c bs { s' with trace := s'.trace ++ byteEffects c conn r } s'
        rw [hrest] at hdrive
        simp only [feedAll, hfed]
        refine (ih hdrive).trans ?_
        rw [driveAll_frame hrest]
        simp only [List.flatMap_append, byteEffects, State.withParser, List.append_assoc]

/-- A wire frame received in mode `WAIT`, with a body that fits: the body parsed and routed (R62, R103, R160). -/
theorem wireStep_wireOfBody {F : Bytes} (conn : Bool) (hs : s.scratch = []) (hm : s.decMode = .wait) (h0 : s.flen = 0)
    (hmin : 3 ≤ F.length) (hfits : F.length ≤ c.rxFrameCap) :
    wireStep c (wireOfBody F) conn s = .next { s with
      fbuf := Memory.store s.fbuf 0 F
      trace := s.trace ++ routeEffects c conn (parseBody c F)
      result := .none } := by
  have hdrive : driveAll c (wireOfBody F) s = .ok ([.frame F], { s with fbuf := Memory.store s.fbuf 0 F }) := by
    simpa [driveAll, Except.map] using driveAll_wireOfBody hm h0 F hmin hfits []
  rw [wireStep, receiveEach_eq c conn _ hs, feedAll_of_driveAll conn hdrive, List.flatMap_singleton]
  rfl

/-- Settles O18: the bytes of the frame in turn; and from `WAIT` the decoder's answer is the body. -/
theorem wireFrameReceived : Obligations.WireFrameReceived := by
  refine ⟨fun body conn s => wireStep_eq_execAll conn delimByte (escapeAll body ++ [delimByte]) s,
    fun body conn s h hm hmin hfits => ⟨Memory.store s.fbuf 0 body, fun i => ?_, ?_⟩⟩
  · rw [Memory.read_store]
    simp only [Nat.zero_le, true_and, Nat.zero_add, Nat.sub_zero]
  · exact wireStep_wireOfBody conn h.scratch_dead hm (h.rx.wait_empty hm) hmin hfits

end Sys2Proof.Machine
end

section
/-! SUPPORT. The encoder (40_frame_encode.md): the bytes that `ESCAPE` writes (R90), what `ENCODE` leaves in either kind of
destination (R91 to R93), and the shape of what it appends (R94). -/

namespace Sys2Proof.Machine

variable {c : Config} {s u : State}

/-! ### `ESCAPE` -/

/-- The second bytes of the encoder's three pairs (R67). -/
def isPairSecond (x : Byte) : Prop := x = 0x5E ∨ x = 0x5D ∨ x = 0x22

theorem masked_isPairSecond {b : Byte} (h : inEscapeSet b) : isPairSecond (b ^^^ xorMask) := by
  obtain rfl | rfl | rfl := h
  · exact .inl rfl
  · exact .inr (.inl rfl)
  · exact .inr (.inr rfl)

theorem isPairSecond_not_inEscapeSet {x : Byte} (h : isPairSecond x) : ¬ inEscapeSet x := by
  obtain rfl | rfl | rfl := h <;> unfold inEscapeSet <;> decide

/-- Of the escape set only the marker is written (R90). -/
theorem mem_escapeByte {b x : Byte} (h : x ∈ escapeByte b) : x = escByte ∨ ¬ inEscapeSet x := by
  by_cases hb : inEscapeSet b
  · rw [escapeByte_escaped hb, List.mem_pair] at h
    refine h.imp_right fun hx => ?_
    rw [hx]
    exact isPairSecond_not_inEscapeSet (masked_isPairSecond hb)
  · rw [escapeByte_literal hb, List.mem_singleton] at h
    exact .inr (h ▸ hb)

theorem delim_not_mem_escapeByte (b : Byte) : delimByte ∉ escapeByte b := fun h =>
  (mem_escapeByte h).elim (by decide) fun hn => hn (.inl rfl)

theorem stx_not_mem_escapeByte (b : Byte) : stxByte ∉ escapeByte b := fun h =>
  (mem_escapeByte h).elim (by decide) fun hn => hn (.inr (.inr rfl))

/-- Undoing the escape tells which byte it was (R90). -/
theorem escapeByte_injective : Function.Injective escapeByte := by
  intro a b h
  have hundone (x : Byte) : unescape (escapeByte x) = some [x] := by
    have := unescape_escapeByte x []
    rwa [List.append_nil] at this
  have := hundone a
  rw [h, hundone b] at this
  cases this
  rfl

theorem exec_escape_result {b : Byte} (h : exec (.escape b) s = .next u) : u.result = .bytes (escapeByte b) := by
  cases h
  rfl

/-- Settles O5: the escaped byte is the result, and tells which byte it was. -/
theorem escapeResult : Obligations.EscapeResult := by
  refine ⟨fun b s => rfl, ?injective, ?clean⟩
  case injective =>
    intro a b s t ha hb
    have hsame := (exec_escape_result ha).symm.trans (exec_escape_result hb)
    exact escapeByte_injective (OpResult.bytes.inj hsame)
  case clean =>
    intro b s t bs h hbs
    cases (exec_escape_result h).symm.trans hbs
    exact ⟨delim_not_mem_escapeByte b, stx_not_mem_escapeByte b⟩

/-! ### The escaped body -/

theorem delim_not_mem_escapeAll (F : Bytes) : delimByte ∉ escapeAll F := by
  simp only [escapeAll, List.mem_flatMap, not_exists, not_and]
  exact fun b _ => delim_not_mem_escapeByte b

theorem stx_not_mem_escapeAll (F : Bytes) : stxByte ∉ escapeAll F := by
  simp only [escapeAll, List.mem_flatMap, not_exists, not_and]
  exact fun b _ => stx_not_mem_escapeByte b

/-- A marker in an escaped body is the first byte of one of the three pairs (R94): it is never a literal, and never a
pair's second byte. -/
theorem marker_starts_pair {F : Bytes} {i : Nat} (h : (escapeAll F)[i]? = some escByte) :
    ∃ x, (escapeAll F)[i + 1]? = some x ∧ isPairSecond x := by
  induction F generalizing i with
  | nil => cases h
  | cons b F ih =>
    rw [escapeAll, List.flatMap_cons, ← escapeAll] at h ⊢
    by_cases hb : inEscapeSet b
    · rw [escapeByte_escaped hb] at h ⊢
      match i with
      | 0 => exact ⟨_, rfl, masked_isPairSecond hb⟩
      | 1 =>
        have hmarker : b ^^^ xorMask = escByte := Option.some.inj h
        exact absurd (.inr (.inl hmarker)) (isPairSecond_not_inEscapeSet (masked_isPairSecond hb))
      | i + 2 => exact ih h
    · rw [escapeByte_literal hb] at h ⊢
      match i with
      | 0 => exact absurd (.inr (.inl (Option.some.inj h))) hb
      | i + 1 => exact ih h

/-! ### The content of a buffer -/

/-- A load depends on the bytes at its own indices only. -/
theorem Memory.load_congr {m m' : Memory} {i n : Nat} (h : ∀ k, k < n → Memory.read m (i + k) = Memory.read m' (i + k)) :
    Memory.load m i n = Memory.load m' i n := by
  ext F
  rw [Memory.load_eq_some, Memory.load_eq_some]
  exact and_congr_right fun _ => forall₂_congr fun k hk => by rw [h k hk]

theorem Memory.load_add (m : Memory) (i n k : Nat) :
    Memory.load m i (n + k) =
      (Memory.load m i n).bind fun xs => (Memory.load m (i + n) k).map (xs ++ ·) := by
  induction n generalizing i with
  | zero => simp [Memory.load]
  | succ n ih =>
    rw [Nat.add_right_comm]
    simp only [Memory.load, ih, Nat.add_assoc, Nat.add_comm 1 n]
    cases Memory.read m i with
    | none => rfl
    | some v =>
      cases Memory.load m (i + 1) n with
      | none => rfl
      | some xs => cases Memory.load m (i + (n + 1)) k <;> rfl

/-- Bytes stored behind a content are read as its continuation. -/
theorem Memory.load_store_behind (m : Memory) (n : Nat) (bs : Bytes) :
    Memory.load (Memory.store m n bs) 0 (n + bs.length) = (Memory.load m 0 n).map (· ++ bs) := by
  have hbefore : Memory.load (Memory.store m n bs) 0 n = Memory.load m 0 n :=
    Memory.load_congr fun k hk => by rw [Memory.read_store, if_neg (by omega)]
  rw [Memory.load_add, hbefore, Nat.zero_add, Memory.load_store]
  cases Memory.load m 0 n <;> rfl

theorem Buffer.content_length {B : Buffer} {content : Bytes} (h : B.content = some content) : content.length = B.len :=
  (Memory.load_eq_some.mp h).1

theorem givenBuffer_content (content : Bytes) (cap : Nat) : (givenBuffer content cap).content = some content :=
  Memory.load_store [] 0 content

/-- What `ENCODE` of the wire frame `W` answers, and what its destination then holds (R92, R93). -/
def encodeAnswer (content W : Bytes) (cap : Nat) : EncodeResult × Bytes :=
  if content.length + W.length ≤ cap then (.done, content ++ W) else (.capacityExceeded, content)

/-- `ENCODE` into a buffer that is not overfull: its answer, the content afterwards, and that no index below the content
or beyond the capacity has been stored to (R91, R92). -/
theorem encodeInto_answer {B : Buffer} {content : Bytes} (hcap : B.len ≤ B.cap) (hcontent : B.content = some content)
    (t : Byte) (p : Bytes) :
    ∃ B', encodeInto c B t p = ((encodeAnswer content (wireOf c t p) B.cap).1, B') ∧
      B'.content = some (encodeAnswer content (wireOf c t p) B.cap).2 ∧
      ∀ i, i < B.len ∨ B.cap ≤ i → Memory.read B'.cells i = Memory.read B.cells i := by
  have hlen := Buffer.content_length hcontent
  by_cases hfit : B.len + (wireOf c t p).length ≤ B.cap
  · rw [encodeAnswer, if_pos (hlen ▸ hfit)]
    refine ⟨_, encodeInto_done c B t p hfit, ?held, fun i hi => ?outside⟩
    case held =>
      rw [Buffer.content, Memory.load_store_behind, ← Buffer.content, hcontent]; rfl
    case outside => rw [Memory.read_store, if_neg (by omega)]
  · rw [encodeAnswer, if_neg (hlen ▸ hfit)]
    refine ⟨_, encodeInto_full c B t p hcap (by omega), ?held, fun i hi => ?outside⟩
    case held =>
      rw [← hcontent]
      exact Memory.load_congr fun k (hk : k < B.len) => by rw [Memory.read_store, if_neg (by omega)]
    case outside =>
      have := List.length_take_le (B.cap - B.len) (wireOf c t p)
      rw [Memory.read_store, if_neg (by omega)]

/-! ### `ENCODE` by itself -/

theorem encodeResult_eq {B : Buffer} {content : Bytes} (h : B.content = some content) (space : Space) (r : EncodeResult)
    (s : State) : encodeResult space r B s = .next (s.withResult (.encoded r content)) := by
  rw [encodeResult, h]

theorem encodeStep_given {content : Bytes} {cap : Nat} (t : Byte) {p : Bytes} (s : State) (hcap : content.length ≤ cap)
    (hp : p.length ≤ 65535) :
    encodeStep c (.given content cap) t p s = .next (s.withResult
      (.encoded (encodeAnswer content (wireOf c t p) cap).1 (encodeAnswer content (wireOf c t p) cap).2)) := by
  obtain ⟨B', hencode, hanswer, -⟩ :=
    encodeInto_answer (c := c) (B := givenBuffer content cap) hcap (givenBuffer_content content cap) t p
  simp only [encodeStep, payloadFits_eq_true hp, if_true, if_pos hcap, hencode]
  exact encodeResult_eq hanswer _ _ _

theorem encodeStep_busy (t : Byte) {p : Bytes} (hbusy : s.txState = .busy) (hp : p.length ≤ 65535) :
    encodeStep c .txbuf t p s = .refused .txbufInUse := by
  simp only [encodeStep, payloadFits_eq_true hp, if_true, if_pos hbusy]

theorem encodeStep_txbuf {content : Bytes} (t : Byte) {p : Bytes} (hready : s.txState = .ready)
    (hcap : s.txlen ≤ c.txBufCap) (hcontent : Memory.load s.txbuf 0 s.txlen = some content) (hp : p.length ≤ 65535) :
    ∃ B', encodeStep c .txbuf t p s = .next ((s.setTxBuffer B').withResult (.encoded
        (encodeAnswer content (wireOf c t p) c.txBufCap).1 (encodeAnswer content (wireOf c t p) c.txBufCap).2)) ∧
      B'.content = some (encodeAnswer content (wireOf c t p) c.txBufCap).2 ∧
      ∀ i, i < s.txlen ∨ c.txBufCap ≤ i → Memory.read B'.cells i = Memory.read s.txbuf i := by
  obtain ⟨B', hencode, hanswer, houtside⟩ := encodeInto_answer (c := c) (B := s.txBuffer c) hcap hcontent t p
  refine ⟨B', ?_, hanswer, houtside⟩
  simp only [encodeStep, payloadFits_eq_true hp, if_true, hready, reduceCtorEq, if_false, hencode]
  exact encodeResult_eq hanswer _ _ _

/-- The wire frame, step by step of R93: delimiter, type, length, payload, CRC, delimiter. -/
theorem wireOf_steps (c : Config) (t : Byte) (p : Bytes) :
    wireOf c t p = [0x7E] ++ escapeByte t ++ escapeByte (lo8 (lengthField p)) ++ escapeByte (hi8 (lengthField p)) ++
      p.flatMap escapeByte ++ escapeByte (lo8 (c.crc16 ([t, lo8 (lengthField p), hi8 (lengthField p)] ++ p))) ++
      escapeByte (hi8 (c.crc16 ([t, lo8 (lengthField p), hi8 (lengthField p)] ++ p))) ++ [0x7E] := by
  simp [wireOf, wireOfBody, escapeAll, bodyOf, layoutBody, frameHeader, delimByte]

/-- Settles O6: the answer for a destination of the caller, with the frame's bytes written out. -/
theorem encodeIntoCallersBuffer : Obligations.EncodeIntoCallersBuffer := by
  intro content cap t p s hcap hp L C W
  have hW : wireOf Config.impl t p = W := wireOf_steps Config.impl t p
  refine (encodeStep_given t s hcap hp).trans ?_
  rw [hW, encodeAnswer]
  by_cases hfit : content.length + W.length ≤ cap
  · simp only [if_pos hfit]; rfl
  · simp only [if_neg hfit]; rfl

/-- Settles O7: the answer for the free transmit buffer, whose length register is the length of what it then holds. -/
theorem encodeIntoTransmitBuffer : Obligations.EncodeIntoTransmitBuffer := by
  refine ⟨fun _ _ _ => rfl, fun t p s hbusy hp => encodeStep_busy t hbusy hp, fun c t p s h hready hp => ?_⟩
  obtain ⟨content, hcontent⟩ := h.txBuffer_sound.content
  have hlen : content.length = s.txlen := Buffer.content_length hcontent
  obtain ⟨B', hstep, hanswer, houtside⟩ := encodeStep_txbuf t hready h.txlen_le hcontent hp
  refine ⟨content, _, hcontent, hstep, ?answer, houtside, rfl⟩
  have hlen' := Buffer.content_length hanswer
  rw [← hlen]
  by_cases hfit : content.length + (wireOf c t p).length ≤ c.txBufCap
  · rw [if_pos hfit]
    rw [encodeAnswer, if_pos hfit] at hanswer hlen' ⊢
    exact ⟨rfl, hlen'.symm.trans List.length_append, hanswer⟩
  · rw [if_neg hfit]
    rw [encodeAnswer, if_neg hfit] at hanswer hlen' ⊢
    exact ⟨rfl, hlen'.symm⟩

/-! ### The shape of what `ENCODE` appends -/

/-- Where every byte has been stored, all of them stand behind what the buffer held. -/
theorem Buffer.emit_stored {B B' : Buffer} {bs : Bytes} (h : Buffer.emit B bs = (true, B')) :
    B' = { cells := Memory.store B.cells B.len bs, len := B.len + bs.length, cap := B.cap } := by
  induction bs generalizing B with
  | nil => cases h; rfl
  | cons v vs ih =>
    simp only [Buffer.emit, Buffer.append] at h
    by_cases hfull : B.len = B.cap
    · rw [if_pos hfull] at h; cases h
    · rw [if_neg hfull] at h
      rw [ih h, Memory.store, List.length_cons, Nat.add_assoc, Nat.add_comm 1]

/-- From any buffer, also one that breaks R42: an `ENCODE` that is done has appended the whole wire frame. -/
theorem encodeInto_done_content {B B' : Buffer} {t : Byte} {p out : Bytes} (h : encodeInto c B t p = (.done, B'))
    (hout : B'.content = some out) : ∃ content, B.content = some content ∧ out = content ++ wireOf c t p := by
  unfold encodeInto at h
  split at h
  · rename_i hemit
    cases h
    rw [Buffer.emit_stored hemit, Buffer.content, Memory.load_store_behind, Option.map_eq_some_iff] at hout
    obtain ⟨content, hcontent, rfl⟩ := hout
    exact ⟨content, hcontent, rfl⟩
  · cases h

theorem encodeResult_next {space : Space} {r : EncodeResult} {B : Buffer} (h : encodeResult space r B s = .next u) :
    ∃ content, B.content = some content ∧ u.result = .encoded r content := by
  unfold encodeResult at h
  split at h
  · rename_i content hcontent
    cases h
    exact ⟨content, hcontent, rfl⟩
  · cases h

/-- The buffer that `ENCODE` appends to (R93). -/
def destBuffer (c : Config) (s : State) : EncodeDest → Buffer
  | .txbuf => s.txBuffer c
  | .given content cap => givenBuffer content cap

/-- Whatever the destination, `ENCODE` is the encoding into its buffer, answered with the content afterwards (R93). -/
theorem encodeStep_next {d : EncodeDest} {t : Byte} {p : Bytes} (h : encodeStep c d t p s = .next u) :
    ∃ r B' out, encodeInto c (destBuffer c s d) t p = (r, B') ∧ B'.content = some out ∧ u.result = .encoded r out := by
  unfold encodeStep at h
  split at h
  · cases d with
    | txbuf =>
      simp only at h
      split at h
      · cases h
      · obtain ⟨out, hout, hresult⟩ := encodeResult_next h
        exact ⟨_, _, out, rfl, hout, hresult⟩
    | given content cap =>
      simp only at h
      split at h
      · obtain ⟨out, hout, hresult⟩ := encodeResult_next h
        exact ⟨_, _, out, rfl, hout, hresult⟩
      · cases h
  · cases h

/-- Settles O8: what is appended is the wire frame, the escaped body between two delimiters. -/
theorem encoderOutputShape : Obligations.EncoderOutputShape := by
  intro d t p s u out h hout
  obtain ⟨r, B', out', hencode, hout', hresult⟩ := encodeStep_next (c := Config.impl) h
  rw [hresult] at hout
  cases hout
  obtain ⟨content, hcontent, rfl⟩ := encodeInto_done_content hencode hout'
  refine ⟨content, escapeAll (bodyOf Config.impl t p), ?txbuf, ?given, rfl, delim_not_mem_escapeAll _,
    stx_not_mem_escapeAll _, ?pairs, unescape_escapeAll _⟩
  case txbuf => rintro rfl; exact hcontent
  case given =>
    rintro held cap rfl
    exact Option.some.inj (hcontent.symm.trans (givenBuffer_content held cap))
  case pairs =>
    intro i hi
    obtain ⟨x, hx, hsecond⟩ := marker_starts_pair hi
    rw [hx]
    exact hsecond.imp (congrArg some) (Or.imp (congrArg some) (congrArg some))

end Sys2Proof.Machine
end

section
/-! SUPPORT. The round trip (R95): the pieces of a stream are decoded like the stream as a whole, and of a wire frame
only the last byte has an answer. -/

namespace Sys2Proof.Machine

variable {c : Config} {s u : State}

/-! ### A stream in pieces -/

/-- Bytes behind other bytes are decoded from the state that those leave (R111). -/
theorem driveAll_append (c : Config) (xs ys : Bytes) (s : State) :
    driveAll c (xs ++ ys) s =
      (driveAll c xs s).bind fun x => (driveAll c ys x.2).map fun y => (x.1 ++ y.1, y.2) := by
  induction xs generalizing s with
  | nil => simp only [List.nil_append, driveAll, Except.bind]; cases driveAll c ys s <;> rfl
  | cons b xs ih =>
    simp only [List.cons_append, driveAll]
    cases decodeByte c b s with
    | error f => rfl
    | ok x =>
      simp only [ih]
      cases driveAll c xs x.2 with
      | error f => rfl
      | ok y =>
        simp only [Except.bind]
        cases driveAll c ys y.2 with
        | error f => rfl
        | ok z => simp only [Except.map, List.append_assoc]

/-- How a stream is cut makes no difference: its pieces are decoded like the whole, byte by byte (R111). -/
theorem drivePieces_eq (c : Config) (pieces : List Bytes) (s : State) :
    drivePieces c pieces s = driveAll c pieces.flatten s := by
  induction pieces generalizing s with
  | nil => rfl
  | cons p ps ih =>
    simp only [drivePieces, drivePiece_eq c le_rfl, List.flatten_cons, driveAll_append]
    cases driveAll c p s with
    | error f => rfl
    | ok x =>
      simp only [ih, Except.bind]
      cases driveAll c ps.flatten x.2 <;> rfl

/-- Where a stream has no answer, none of its beginnings has one. -/
theorem driveAll_silent_of_append {xs ys : Bytes} (h : driveAll c (xs ++ ys) s = .ok ([], u)) :
    ∃ v, driveAll c xs s = .ok ([], v) := by
  rw [driveAll_append] at h
  cases hx : driveAll c xs s with
  | error f => rw [hx] at h; cases h
  | ok x =>
    rw [hx] at h
    simp only [Except.bind] at h
    cases hy : driveAll c ys x.2 with
    | error f => rw [hy] at h; cases h
    | ok y =>
      rw [hy] at h
      simp only [Except.map, Except.ok.injEq, Prod.mk.injEq, List.append_eq_nil_iff] at h
      exact ⟨x.2, by rw [← h.1.1]⟩

/-! ### A wire frame in pieces -/

/-- A wire frame without its last delimiter has no answer (R105, R106). -/
theorem driveAll_unfinished {F : Bytes} (hm : s.decMode = .wait) (h0 : s.flen = 0) (hfits : F.length ≤ c.rxFrameCap) :
    ∃ u, driveAll c (delimByte :: escapeAll F) s = .ok ([], u) := by
  have hbody := driveAll_escapeAll (c := c) (s := { s with decMode := .inFrame }) rfl F (by simpa [h0] using hfits) []
  rw [List.append_nil] at hbody
  simp only [driveAll, decodeByte_wait delimByte hm, if_true, hbody]
  exact ⟨_, rfl⟩

/-- The bytes of a wire frame before its last one have no answer (R95). -/
theorem driveAll_before_last {F xs rest : Bytes} {b : Byte} (hm : s.decMode = .wait) (h0 : s.flen = 0)
    (hfits : F.length ≤ c.rxFrameCap) (hcut : wireOfBody F = xs ++ b :: rest) :
    ∃ u, driveAll c xs s = .ok ([], u) := by
  have hinit : delimByte :: escapeAll F = xs ++ (b :: rest).dropLast := by
    rw [← List.dropLast_append_of_ne_nil (List.cons_ne_nil b rest), ← hcut, wireOfBody, ← List.cons_append,
      List.dropLast_concat]
  obtain ⟨u, hu⟩ := driveAll_unfinished hm h0 hfits
  rw [hinit] at hu
  exact driveAll_silent_of_append hu

/-- A wire frame, all of it, has its body as the one answer, and the decoder is as it was but for `fbuf` (R95, R103). -/
theorem driveAll_whole {F : Bytes} (hm : s.decMode = .wait) (h0 : s.flen = 0) (hmin : minComplete ≤ F.length)
    (hfits : F.length ≤ c.rxFrameCap) :
    driveAll c (wireOfBody F) s = .ok ([.frame F], { s with fbuf := Memory.store s.fbuf 0 F }) := by
  simpa [driveAll, Except.map] using driveAll_wireOfBody hm h0 F hmin hfits []

theorem bodyOf_length (c : Config) (t : Byte) (p : Bytes) : (bodyOf c t p).length = p.length + 5 := layoutBody_length ..

/-- Settles O9: however the frame is cut, it is decoded as one stream, silent before its last byte; and the parser accepts
what the encoder has laid out. -/
theorem encodedFrameRoundTrip : Obligations.EncodedFrameRoundTrip := by
  intro c t p s pieces hp hcap hm h0
  have hlen := bodyOf_length c t p
  have hfits : (bodyOf c t p).length ≤ c.rxFrameCap := hlen ▸ hcap
  rw [drivePieces_eq]
  refine ⟨?beforeTheEnd, ?whole⟩
  case beforeTheEnd =>
    rintro ⟨b, rest, hcut⟩
    exact driveAll_before_last hm h0 hfits hcut
  case whole =>
    intro hpieces
    have hmin : minComplete ≤ (bodyOf c t p).length := by rw [hlen, minComplete]; omega
    rw [hpieces]
    exact ⟨bodyOf c t p, _, driveAll_whole hm h0 hmin hfits, hm, h0, rfl, parseBody_bodyOf c t hp⟩

end Sys2Proof.Machine
end

section
/-! SUPPORT. The decoder by itself (R100 to R111): `DECODE_BYTE` row by row, `DECODE` as the loop over it, and a stream
cut into pieces or notifications. -/

namespace Sys2Proof.Machine

variable {c : Config} {s t u : State} {conn : Bool}

/-! ### `DECODE_BYTE` by itself (R100) -/

theorem decodeByteStep_ok {b : Byte} {r : ByteResult} (h : decodeByte c b s = .ok (r, t)) :
    decodeByteStep c b s = .next (t.withResult (.byteStep r)) := by
  rw [decodeByteStep, h]

theorem decodeByteStep_eq_next {b : Byte} :
    decodeByteStep c b s = .next t ↔ ∃ r u, decodeByte c b s = .ok (r, u) ∧ u.withResult (.byteStep r) = t := by
  unfold decodeByteStep
  rcases decodeByte c b s with f | ⟨r, u⟩ <;> simp

/-- A byte that is appended as `v` inside a frame: stored at index `flen`, or the frame lost on a full buffer (R105). -/
theorem decodeByteStep_append {b v : Byte}
    (h : decodeByte c b s = .ok (appendBody c v { s with decMode := .inFrame })) :
    decodeByteStep c b s = .next (if s.flen = c.rxFrameCap then
        { s with flen := 0, decMode := .wait, result := .byteStep .overflow }
      else { s with fbuf := Memory.write s.fbuf s.flen v, flen := s.flen + 1, decMode := .inFrame,
                    result := .byteStep .more }) := by
  by_cases hfull : s.flen = c.rxFrameCap
  · rw [if_pos hfull]
    exact decodeByteStep_ok (h.trans (congrArg _ (appendBody_full (s := { s with decMode := .inFrame }) v hfull)))
  · rw [if_neg hfull]
    exact decodeByteStep_ok (h.trans (congrArg _ (appendBody_room (s := { s with decMode := .inFrame }) v hfull)))

/-- Settles O10: the rows of each mode; `F` is what `fbuf` holds and `m` what it holds with the body byte stored. -/
theorem decodeByteTransitionTable : Obligations.DecodeByteTransitionTable := by
  intro b s h
  obtain ⟨F, hF⟩ := h.load_fbuf
  obtain ⟨hlength, hread⟩ := Memory.load_eq_some.mp hF
  refine ⟨F, _, hlength, fun i hi => by simpa using hread i hi, fun i => Memory.read_write .., ?_⟩
  change decodeByteStep Config.impl b s = _
  obtain hm | hm | hm := decMode_cases s.decMode <;> simp only [hm, reduceCtorEq, if_true, if_false]
  · exact decodeByteStep_ok (decodeByte_wait b hm)
  · by_cases hdelim : b = 0x7E
    · subst hdelim
      rw [if_pos rfl]
      by_cases hlen : 3 ≤ s.flen
      · rw [if_pos hlen]
        exact decodeByteStep_ok (decodeByte_completes hm hlen hF)
      · rw [if_neg hlen, ← hm]
        exact decodeByteStep_ok (decodeByte_falseStart hm hlen)
    · rw [if_neg hdelim]
      by_cases hesc : b = 0x7D
      · subst hesc
        rw [if_pos rfl]
        exact decodeByteStep_ok (decodeByte_marker hm)
      · rw [if_neg hesc]
        exact decodeByteStep_append (decodeByte_literal hm ⟨hdelim, hesc⟩)
  · exact decodeByteStep_append (decodeByte_masked b hm)

/-! ### What an answer of `DECODE_BYTE` says -/

/-- The append step answers nothing, or an overflow with ParserState as at reset (R105, R108). -/
theorem appendBody_cases {v : Byte} {r : ByteResult} (h : appendBody c v s = (r, t)) :
    r = .more ∨ r = .overflow ∧ t.decMode = .wait ∧ t.flen = 0 := by
  by_cases hfull : s.flen = c.rxFrameCap
  · rw [appendBody_full v hfull] at h
    cases h
    exact .inr ⟨rfl, rfl, rfl⟩
  · rw [appendBody_room v hfull] at h
    cases h
    exact .inl rfl

/-- A byte answers nothing; or an overflow, with ParserState as at reset; or the frame accumulated, of 3 bytes or more
(R103, R105, R108). -/
theorem decodeByte_cases {b : Byte} {r : ByteResult} (h : decodeByte c b s = .ok (r, t)) :
    r = .more ∨ (r = .overflow ∧ t.decMode = .wait ∧ t.flen = 0) ∨
    ∃ F, r = .frame F ∧ 3 ≤ s.flen ∧ Memory.load s.fbuf 0 s.flen = some F := by
  obtain hm | hm | hm := decMode_cases s.decMode
  · rw [decodeByte_wait b hm] at h
    cases h
    exact .inl rfl
  · by_cases hdelim : b = delimByte
    · subst hdelim
      by_cases hlen : 3 ≤ s.flen
      · cases hF : Memory.load s.fbuf 0 s.flen with
        | some F =>
          rw [decodeByte_completes hm hlen hF] at h
          cases h
          exact .inr (.inr ⟨F, rfl, hlen, rfl⟩)
        | none =>
          simp only [decodeByte, hm, decodeInFrame, if_true, decodeDelim, minComplete, if_pos hlen, hF] at h
          cases h
      · rw [decodeByte_falseStart hm hlen] at h
        cases h
        exact .inl rfl
    · by_cases hesc : b = escByte
      · subst hesc
        rw [decodeByte_marker hm] at h
        cases h
        exact .inl rfl
      · rw [decodeByte_literal hm ⟨hdelim, hesc⟩] at h
        exact (appendBody_cases (Except.ok.inj h)).imp_right .inl
  · rw [decodeByte_masked b hm] at h
    exact (appendBody_cases (Except.ok.inj h)).imp_right .inl

/-! ### `DECODE`: the loop over `DECODE_BYTE` (R107) -/

/-- A first byte that has an answer ends the loop. -/
theorem decodeBytes_cons_answer {b : Byte} {a : ByteResult} {r : DecodeResult} (h : decodeByte c b s = .ok (a, t))
    (ha : a.answers = [r]) (rest : Bytes) : decodeBytes c (b :: rest) s = .ok (r, 1, t) := by
  cases a with
  | more => cases ha
  | frame F => cases ha; simp only [decodeBytes, h]
  | overflow => cases ha; simp only [decodeBytes, h]

/-- A first byte that has none is counted. -/
theorem decodeBytes_cons_more {b : Byte} (h : decodeByte c b s = .ok (.more, t)) (rest : Bytes) :
    decodeBytes c (b :: rest) s = (decodeBytes c rest t).map (fun x => (x.1, x.2.1 + 1, x.2.2)) := by
  simp only [decodeBytes, h]
  cases decodeBytes c rest t <;> rfl

/-- `DECODE` reads and writes ParserState only. -/
theorem decodeBytes_withParser (c : Config) (input : Bytes) (s d : State) :
    decodeBytes c input (s.withParser d) =
      (decodeBytes c input d).map (fun x => (x.1, x.2.1, s.withParser x.2.2)) := by
  induction input generalizing d with
  | nil => rfl
  | cons b rest ih =>
    simp only [decodeBytes, decodeByte_withParser]
    cases decodeByte c b d with
    | error f => rfl
    | ok x =>
      obtain ⟨a, d'⟩ := x
      cases a with
      | frame F => rfl
      | overflow => rfl
      | more =>
        simp only [Except.map, ih]
        cases decodeBytes c rest d' <;> rfl

/-- `DECODE` by itself overwrites the result. -/
theorem decodeStep_withResult (c : Config) (input : Bytes) (s : State) (r : OpResult) :
    decodeStep c input (s.withResult r) = decodeStep c input s := by
  have h := decodeBytes_withParser c input (s.withResult r) s
  have hself : (s.withResult r).withParser s = s.withResult r := rfl
  rw [hself] at h
  simp only [decodeStep, h]
  cases hd : decodeBytes c input s with
  | error f => rfl
  | ok x =>
    obtain ⟨a, n, t⟩ := x
    simp only [Except.map]
    rw [decodeBytes_frame hd]
    rfl

theorem decodeStep_ok {input : Bytes} {r : DecodeResult} {n : Nat} (h : decodeBytes c input s = .ok (r, n, t)) :
    decodeStep c input s = .next (t.withResult (.decoded r n)) := by
  rw [decodeStep, h]

theorem decodeStep_eq_next {input : Bytes} :
    decodeStep c input s = .next t ↔
      ∃ r n u, decodeBytes c input s = .ok (r, n, u) ∧ u.withResult (.decoded r n) = t := by
  unfold decodeStep
  rcases decodeBytes c input s with f | ⟨r, n, u⟩ <;> simp

/-- `DECODE_BYTE` by itself with an answer, and `DECODE` of the byte and any more. -/
theorem decodeStep_cons_answer {b : Byte} {a : ByteResult} {r : DecodeResult} (h : decodeByteStep c b s = .next t)
    (hresult : t.result = .byteStep a) (ha : a.answers = [r]) (rest : Bytes) :
    decodeStep c (b :: rest) s = .next (t.withResult (.decoded r 1)) := by
  obtain ⟨a', u, hb, rfl⟩ := decodeByteStep_eq_next.mp h
  cases hresult
  exact (decodeStep_ok (decodeBytes_cons_answer hb ha rest) :)

theorem decodeStep_cons_more {b : Byte} {rest : Bytes} {r : DecodeResult} {n : Nat}
    (h : decodeByteStep c b s = .next t) (hresult : t.result = .byteStep .more) (hrest : decodeStep c rest t = .next u)
    (hu : u.result = .decoded r n) : decodeStep c (b :: rest) s = .next (u.withResult (.decoded r (n + 1))) := by
  obtain ⟨a, t', hb, rfl⟩ := decodeByteStep_eq_next.mp h
  cases hresult
  rw [decodeStep_withResult] at hrest
  obtain ⟨r', n', u', hd, rfl⟩ := decodeStep_eq_next.mp hrest
  cases hu
  have hcounted : decodeBytes c (b :: rest) s = .ok (r, n + 1, u') := by
    rw [decodeBytes_cons_more hb, hd]; rfl
  exact (decodeStep_ok hcounted :)

/-- Settles O11: the four ways in which the loop goes on after its first byte. -/
theorem decodeFoldsDecodeByte : Obligations.DecodeFoldsDecodeByte :=
  ⟨fun _ => rfl,
    fun _ rest _ _ _ h hresult => decodeStep_cons_answer (c := Config.impl) h hresult rfl rest,
    fun _ rest _ _ h hresult => decodeStep_cons_answer (c := Config.impl) h hresult rfl rest,
    fun _ _ _ _ _ _ _ h hresult hrest hu => decodeStep_cons_more (c := Config.impl) h hresult hrest hu⟩

/-- How `DECODE` ends: with all of its input taken and no answer, or with the answer of its last byte, which is decoded
from a state that meets the decoder's invariants (R107). -/
theorem decodeBytes_cases {input : Bytes} {r : DecodeResult} {n : Nat} (hinv : RxInv c s)
    (h : decodeBytes c input s = .ok (r, n, t)) :
    (r = .needMore ∧ n = input.length) ∨
    ∃ b a s', RxInv c s' ∧ decodeByte c b s' = .ok (a, t) ∧ a.answers = [r] ∧ 1 ≤ n ∧ n ≤ input.length := by
  induction input generalizing s r n with
  | nil =>
    cases h
    exact .inl ⟨rfl, rfl⟩
  | cons b rest ih =>
    obtain ⟨a, s', hb, hinv'⟩ := decodeByte_ok b hinv
    have hlen : 1 ≤ (b :: rest).length := Nat.le_add_left 1 rest.length
    cases a with
    | frame F =>
      rw [decodeBytes_cons_answer hb rfl] at h
      cases h
      exact .inr ⟨b, _, s, hinv, hb, rfl, le_rfl, hlen⟩
    | overflow =>
      rw [decodeBytes_cons_answer hb rfl] at h
      cases h
      exact .inr ⟨b, _, s, hinv, hb, rfl, le_rfl, hlen⟩
    | more =>
      rw [decodeBytes_cons_more hb] at h
      cases hrest : decodeBytes c rest s' with
      | error f => rw [hrest] at h; cases h
      | ok x =>
        rw [hrest] at h
        cases h
        obtain ⟨hmore, hn⟩ | ⟨b', a', s'', hinv'', hb', ha', -, hn⟩ := ih hinv' hrest
        · exact .inl ⟨hmore, congrArg (· + 1) hn⟩
        · exact .inr ⟨b', a', s'', hinv'', hb', ha', Nat.le_add_left 1 _, Nat.succ_le_succ hn⟩

/-- A frame that `DECODE` answers has from 3 to `RX_FRAME_CAP` bytes (R108, R109). -/
theorem decodeBytes_frame_length {input F : Bytes} {n : Nat} (hinv : RxInv c s)
    (h : decodeBytes c input s = .ok (.frame F, n, t)) : 3 ≤ F.length ∧ F.length ≤ c.rxFrameCap := by
  obtain ⟨hmore, -⟩ | ⟨b, a, s', hinv', hb, ha, -⟩ := decodeBytes_cases hinv h
  · cases hmore
  · obtain rfl | ⟨rfl, -⟩ | ⟨F', rfl, hmin, hload⟩ := decodeByte_cases hb
    · cases ha
    · cases ha
    · cases ha
      have hlength := (Memory.load_eq_some.mp hload).1
      exact ⟨hlength ▸ hmin, hlength ▸ hinv'.flen_le⟩

/-- After an overflow ParserState is as at reset (R105). -/
theorem decodeBytes_overflow {input : Bytes} {n : Nat} (hinv : RxInv c s)
    (h : decodeBytes c input s = .ok (.overflow, n, t)) : t.decMode = .wait ∧ t.flen = 0 := by
  obtain ⟨hmore, -⟩ | ⟨b, a, s', -, hb, ha, -⟩ := decodeBytes_cases hinv h
  · cases hmore
  · obtain rfl | ⟨rfl, hreset⟩ | ⟨F, rfl, -⟩ := decodeByte_cases hb
    · cases ha
    · exact hreset
    · cases ha

/-- How many bytes `DECODE` takes (R107). -/
theorem decodeBytes_count {input : Bytes} {r : DecodeResult} {n : Nat} (hinv : RxInv c s)
    (h : decodeBytes c input s = .ok (r, n, t)) :
    n ≤ input.length ∧ (input ≠ [] → 1 ≤ n) ∧ (r = .needMore → n = input.length) := by
  obtain ⟨-, rfl⟩ | ⟨b, a, s', -, -, ha, hpos, hle⟩ := decodeBytes_cases hinv h
  · exact ⟨le_rfl, List.length_pos_of_ne_nil, fun _ => rfl⟩
  · refine ⟨hle, fun _ => hpos, ?_⟩
    rintro rfl
    cases a <;> cases ha

/-- Settles O12: `DECODE` goes through, and each clause is what its way of ending says. -/
theorem decodeCompletes : Obligations.DecodeCompletes := by
  intro input s hinv
  obtain ⟨r, n, t, hd, ht⟩ := decodeBytes_ok input hinv
  obtain ⟨hle, hpos, hall⟩ := decodeBytes_count hinv hd
  refine ⟨t.withResult (.decoded r n), r, n, decodeStep_ok (c := Config.impl) hd, rfl, hle, hpos, hall, ?frame,
    ?overflow, ht.congr rfl rfl rfl, ?unchanged⟩
  case frame => rintro F rfl; exact decodeBytes_frame_length hinv hd
  case overflow => rintro rfl; exact (decodeBytes_overflow hinv hd :)
  case unchanged => rw [decodeBytes_frame hd]; rfl

/-- Settles O13: both ways of cutting come to the decoder over the bytes in turn. -/
theorem fragmentationInvariance : Obligations.FragmentationInvariance := by
  intro c pieces s
  rw [drivePieces_eq, drivePieces_eq, List.flatten_singleton]

/-! ### A frame too long for the buffer (R105, R168) -/

theorem driveAll_append_ok {xs ys : Bytes} {rs rs' : List DecodeResult} (hx : driveAll c xs s = .ok (rs, t))
    (hy : driveAll c ys t = .ok (rs', u)) : driveAll c (xs ++ ys) s = .ok (rs ++ rs', u) := by
  simp only [driveAll_append, hx, Except.bind, hy, Except.map]

/-- In mode `WAIT` everything up to the next delimiter is ignored (R101). -/
theorem driveAll_ignored {bs : Bytes} (hm : s.decMode = .wait) (h : delimByte ∉ bs) :
    driveAll c bs s = .ok ([], s) := by
  induction bs with
  | nil => rfl
  | cons b bs ih =>
    obtain ⟨hb, hbs⟩ := List.ne_and_not_mem_of_not_mem_cons h
    have hstep : decodeByte c b s = .ok (.more, s) := by
      rw [decodeByte_wait b hm, if_neg (Ne.symm hb), setDecMode_self hm]
    simp only [driveAll, hstep, ih hbs, ByteResult.answers, List.nil_append]

/-- With the buffer full, one more body byte loses the frame with one overflow (R105, R106). -/
theorem driveAll_escapeByte_full (hm : s.decMode = .inFrame) (hfull : s.flen = c.rxFrameCap) (b : Byte) :
    driveAll c (escapeByte b) s = .ok ([.overflow], { s with flen := 0, decMode := .wait }) := by
  have hlost (v : Byte) : appendBody c v { s with decMode := .inFrame } =
      (.overflow, { s with flen := 0, decMode := .wait }) :=
    appendBody_full (s := { s with decMode := .inFrame }) v hfull
  by_cases h : inEscapeSet b
  · have hmasked := decodeByte_masked (c := c) (s := { s with decMode := .escaped }) (b ^^^ xorMask) rfl
    simp only [escapeByte_escaped h, driveAll, decodeByte_marker hm, hmasked, hlost, ByteResult.answers,
      List.nil_append, List.append_nil]
  · simp only [escapeByte_literal h, driveAll, decodeByte_literal hm (literal_ne h), hlost, ByteResult.answers,
      List.append_nil]

/-- A body too long for the buffer gives one overflow; what is left of it is ignored (R101, R105). -/
theorem driveAll_escapeAll_overflow (hm : s.decMode = .inFrame) {F : Bytes} (hle : s.flen ≤ c.rxFrameCap)
    (hlong : c.rxFrameCap < s.flen + F.length) :
    ∃ m, driveAll c (escapeAll F) s = .ok ([.overflow], { s with fbuf := m, flen := 0, decMode := .wait }) := by
  obtain ⟨b, lost, hcut⟩ : ∃ b lost, F.drop (c.rxFrameCap - s.flen) = b :: lost :=
    List.exists_cons_of_ne_nil (by rw [Ne, List.drop_eq_nil_iff]; omega)
  obtain ⟨kept, hkept⟩ : ∃ kept, F.take (c.rxFrameCap - s.flen) = kept := ⟨_, rfl⟩
  have hfill : s.flen + kept.length = c.rxFrameCap := by
    rw [← hkept, List.length_take]; omega
  have hF : escapeAll F = escapeAll kept ++ (escapeByte b ++ escapeAll lost) := by
    rw [← List.take_append_drop (c.rxFrameCap - s.flen) F, hkept, hcut]
    simp only [escapeAll, List.flatMap_append, List.flatMap_cons]
  have hstored := driveAll_escapeAll hm kept hfill.le []
  rw [List.append_nil] at hstored
  have hlost := driveAll_escapeByte_full (c := c)
    (s := { s with fbuf := Memory.store s.fbuf s.flen kept, flen := s.flen + kept.length }) hm hfill b
  rw [hF]
  exact ⟨_, driveAll_append_ok hstored
    (driveAll_append_ok hlost (driveAll_ignored rfl (delim_not_mem_escapeAll lost)))⟩

/-- A wire frame whose body is too long for the buffer: one overflow, and its last delimiter starts a frame (R101,
R105). -/
theorem driveAll_oversized (hm : s.decMode = .wait) (h0 : s.flen = 0) {F : Bytes} (hlong : c.rxFrameCap < F.length) :
    ∃ m, driveAll c (wireOfBody F) s = .ok ([.overflow], { s with fbuf := m, decMode := .inFrame }) := by
  have hstart : driveAll c [delimByte] s = .ok ([], { s with decMode := .inFrame }) := by
    simp only [driveAll, decodeByte_wait delimByte hm, if_true, ByteResult.answers, List.append_nil]
  obtain ⟨m, hbody⟩ := driveAll_escapeAll_overflow (c := c) (s := { s with decMode := .inFrame }) (F := F) rfl
    (by simp only [h0, Nat.zero_le]) (by simpa only [h0, Nat.zero_add] using hlong)
  have hend : driveAll c [delimByte] { s with fbuf := m, flen := 0, decMode := .wait } =
      .ok ([], { s with fbuf := m, decMode := .inFrame }) := by
    simp only [driveAll, decodeByte_wait (s := { s with fbuf := m, flen := 0, decMode := .wait }) delimByte rfl,
      if_true, ByteResult.answers, List.append_nil, h0]
  exact ⟨m, driveAll_append_ok hstart (driveAll_append_ok hbody hend)⟩

/-- With nothing accumulated, a delimiter starts a frame inside a frame as it does in mode `WAIT` (R101, R104). -/
theorem driveAll_delim_restarts (hm : s.decMode = .inFrame) (h0 : s.flen = 0) (rest : Bytes) :
    driveAll c (delimByte :: rest) s = driveAll c (delimByte :: rest) { s with decMode := .wait } := by
  have hfalse : decodeByte c delimByte s = .ok (.more, { s with decMode := .inFrame }) := by
    rw [decodeByte_falseStart hm (by omega), ← h0, setDecMode_self hm]
  have hwait : decodeByte c delimByte { s with decMode := .wait } = .ok (.more, { s with decMode := .inFrame }) :=
    decodeByte_wait delimByte rfl
  simp only [driveAll, hfalse, hwait]

/-- A wire frame with a body that fits, behind the delimiter of the frame before it: its body is the one answer (R103,
R104). -/
theorem driveAll_whole_inFrame (hm : s.decMode = .inFrame) (h0 : s.flen = 0) {F : Bytes}
    (hmin : minComplete ≤ F.length) (hfits : F.length ≤ c.rxFrameCap) : driveAll c (wireOfBody F) s =
      .ok ([.frame F], { s with fbuf := Memory.store s.fbuf 0 F, decMode := .wait }) :=
  (driveAll_delim_restarts hm h0 _).trans (driveAll_whole (s := { s with decMode := .wait }) rfl h0 hmin hfits)

/-- With `scratch` dead, bytes received are decoded and the effects of their answers follow (R160, R167). -/
theorem wireStep_of_driveAll (conn : Bool) {bs : Bytes} {rs : List DecodeResult} (hs : s.scratch = [])
    (h : driveAll c bs s = .ok (rs, t)) :
    wireStep c bs conn s = .next { t with trace := t.trace ++ rs.flatMap (answerEffects c conn), result := .none } := by
  rw [wireStep, receiveEach_eq c conn bs hs, feedAll_of_driveAll conn h]
  rfl

/-- Settles O19: the oversized frame leaves the decoder behind a delimiter, from where the next frame is decoded. -/
theorem oversizedFrameThenResynchronised : Obligations.OversizedFrameThenResynchronised := by
  intro big body conn s h hm hlong hmin hfits
  have h0 := h.rx.wait_empty hm
  obtain ⟨m, hbig⟩ := driveAll_oversized hm h0 hlong
  have hnext := driveAll_whole_inFrame (c := Config.impl) (s := { s with
    fbuf := m, decMode := .inFrame, trace := s.trace ++ [.diag .rxOverflow], result := .none }) rfl h0 hmin hfits
  refine ⟨_, _, wireStep_of_driveAll conn h.scratch_dead hbig, rfl, rfl, h0, ⟨rfl, rfl, rfl, rfl⟩,
    ⟨rfl, rfl, rfl, rfl, rfl⟩, rfl, rfl, wireStep_of_driveAll conn h.scratch_dead hnext, ?trace, rfl, h0,
    ⟨rfl, rfl, rfl, rfl⟩, ⟨rfl, rfl, rfl, rfl, rfl⟩, rfl, rfl⟩
  simp only [List.flatMap_singleton, answerEffects]

/-! ### Notifications split anywhere -/

/-- What a notification under the threshold ends in: the bytes through the receive path (R160). -/
theorem rxReadyStep_under {bs : Bytes} {used max : Nat} (ho : overThreshold used max = false)
    (hread : bs.length ≤ c.rxScratchCap) (conn : Bool) (s : State) : rxReadyStep c bs used max conn s =
      finish ((feedAll c conn bs s).map (fun t => t.dropScratch.withResult .none)) := by
  rw [rxReadyStep, if_pos hread, receive_under ho]
  cases feedAll c conn bs s <;> rfl

/-- A notification does not read what the one before it has left in `scratch` and as its result. -/
theorem feedAll_after_notification (c : Config) (conn : Bool) (bs : Bytes) (s : State) :
    (feedAll c conn bs (s.dropScratch.withResult .none)).map (fun t => t.dropScratch.withResult .none) =
      (feedAll c conn bs s).map (fun t => t.dropScratch.withResult .none) := by
  have h := feedAll_withReceived c conn bs (s.dropScratch.withResult .none) s
  have hself : (s.dropScratch.withResult .none).withReceived s = s.dropScratch.withResult .none := rfl
  rw [hself] at h
  rw [h]
  cases hf : feedAll c conn bs s with
  | error f => rfl
  | ok t =>
    simp only [Except.map]
    rw [feedAll_frame hf]
    rfl

/-- Settles O31: the receive path takes the bytes one after the other, wherever a notification ends. -/
theorem receiveSplitsAnywhere : Obligations.ReceiveSplitsAnywhere := by
  refine ⟨fun _ _ _ _ _ => rfl, fun c xs ys used max conn s t hunder hread hxs => ?_⟩
  have ho : overThreshold used max = false := decide_eq_false (Nat.not_le_of_lt hunder)
  have hlength := List.length_append (as := xs) (bs := ys)
  rw [rxReadyStep_under ho (by omega)] at hxs
  obtain ⟨u, hu, rfl⟩ := finish_map_eq_next.mp hxs
  rw [rxReadyStep_under ho hread, rxReadyStep_under ho (by omega), feedAll_append, hu, feedAll_after_notification]
  rfl

end Sys2Proof.Machine
end

section
/-! SUPPORT. The parser: the length check in numbers (R122), the five classes (R124), and what one changed bit of a frame
body does to the two checks (R127). -/

namespace Sys2Proof.Machine

variable {c : Config}

/-! ### The two checks of `PARSE` -/

/-- The number that a little-endian field stands for (R43, R64). -/
theorem assemble16_toNat (lo hi : Byte) : (assemble16 lo hi).toNat = lo.toNat + 256 * hi.toNat := by
  have hlo : (assemble16 lo hi).toNat % 256 = lo.toNat := by
    simpa [lo8] using congrArg BitVec.toNat (lo8_assemble16 lo hi)
  have hhi : (assemble16 lo hi).toNat / 256 % 256 = hi.toNat := by
    simpa [hi8, Nat.shiftRight_eq_div_pow] using congrArg BitVec.toNat (hi8_assemble16 lo hi)
  have hword := (assemble16 lo hi).isLt
  omega

theorem lengthOk_iff {F : Bytes} : lengthOk F = true ↔
    5 ≤ F.length ∧ F.length = (byteAt F 1).toNat + 256 * (byteAt F 2).toNat + 5 := by
  rw [lengthOk, Bool.and_eq_true, decide_eq_true_iff, decide_eq_true_iff, declaredLength, assemble16_toNat]
  rfl

/-- `Garbage` is the answer of the length check and of nothing else (R125). -/
theorem parseBody_eq_garbage_iff {F : Bytes} : parseBody c F = .garbage ↔ ¬ lengthOk F = true := by
  constructor
  case mpr => exact fun h => parseBody_garbage (Bool.eq_false_of_not_eq_true h)
  case mp =>
    intro hgarbage hok
    obtain ⟨t, len, p, crc, rfl, hp⟩ := lengthOk_layout hok
    rw [parseBody_layout t len p crc hp] at hgarbage
    split at hgarbage <;> cases hgarbage

/-- Settles O20: the answer is `Garbage` exactly where the length check fails. -/
theorem parseLengthCheck : Obligations.ParseLengthCheck := fun _ _ =>
  ⟨_, rfl, parseBody_eq_garbage_iff.trans (not_congr lengthOk_iff)⟩

/-- Settles O21: the parser reads the fields that are laid out. -/
theorem parseOfALaidOutBody : Obligations.ParseOfALaidOutBody := by
  intro t len p crc s h
  have hexec : exec (.parse (layoutBody t len p crc)) s =
      .next (s.withResult (.packet (parseBody Config.impl (layoutBody t len p crc)))) := rfl
  rw [parseBody_layout t len p crc h] at hexec
  exact hexec

theorem exec_classify {t : Byte} {k : TypeClass} (s : State) (h : classifyByte Config.impl t = k) :
    exec (.classify t) s = .next { s with result := .cls k } := by
  subst h
  rfl

/-- Settles O22: the class of each type byte, and that of every other byte. -/
theorem crcAndClassify : Obligations.CrcAndClassify := by
  refine ⟨fun _ _ => rfl, fun s => ⟨?ack, ?nak, ?bleData, ?control, ?ping⟩, fun t s hother => ?other⟩
  case ack => exact exec_classify s (classifyByte_typeByte _ .ack)
  case nak => exact exec_classify s (classifyByte_typeByte _ .nak)
  case bleData => exact exec_classify s (classifyByte_typeByte _ .bleData)
  case control => exact exec_classify s (classifyByte_typeByte _ .control)
  case ping => exact exec_classify s (classifyByte_typeByte _ .ping)
  case other => exact exec_classify s (classifyByte_other hother)

/-! ### One bit changed in a byte sequence -/

theorem flipBit_length (F : Bytes) (i k : Nat) : (flipBit F i k).length = F.length := List.length_modify ..

theorem flipBit_cons_succ (b : Byte) (F : Bytes) (i k : Nat) : flipBit (b :: F) (i + 1) k = b :: flipBit F i k := rfl

theorem flipBit_append_left {F : Bytes} {i : Nat} (h : i < F.length) (G : Bytes) (k : Nat) :
    flipBit (F ++ G) i k = flipBit F i k ++ G := by
  induction F generalizing i with
  | nil => cases h
  | cons b F ih =>
    cases i with
    | zero => rfl
    | succ i =>
      rw [List.cons_append, flipBit_cons_succ, flipBit_cons_succ, List.cons_append, ih (Nat.lt_of_succ_lt_succ h)]

theorem flipBit_append_right (F G : Bytes) (j k : Nat) : flipBit (F ++ G) (F.length + j) k = F ++ flipBit G j k := by
  induction F with
  | nil => simp
  | cons b F ih => rw [List.length_cons, Nat.add_right_comm, List.cons_append, flipBit_cons_succ, ih, List.cons_append]

theorem twoPow_ne_zero {k : Nat} (h : k < 8) : BitVec.twoPow 8 k ≠ 0#8 := by
  intro hzero
  have hbit := congrArg (BitVec.getLsbD · k) hzero
  simp [h] at hbit

/-- A changed bit inside the sequence is a change. -/
theorem flipBit_ne_self {F : Bytes} {i k : Nat} (hi : i < F.length) (hk : k < 8) : flipBit F i k ≠ F := by
  intro hsame
  have hbyte : (flipBit F i k)[i]? = F[i]? := congrArg (·[i]?) hsame
  rw [flipBit, List.getElem?_modify_eq, List.getElem?_eq_getElem hi] at hbyte
  exact twoPow_ne_zero hk (by simpa using hbyte)

/-- Changing one bit of a little-endian field changes its value (R43). -/
theorem flipBit_field (v : Word16) {j k : Nat} (hj : j < 2) (hk : k < 8) :
    ∃ v', v' ≠ v ∧ flipBit [lo8 v, hi8 v] j k = [lo8 v', hi8 v'] := by
  obtain ⟨lo, hi, hflip⟩ := List.length_eq_two.mp (flipBit_length [lo8 v, hi8 v] j k)
  refine ⟨assemble16 lo hi, fun hv => ?_, by rw [hflip, lo8_assemble16, hi8_assemble16]⟩
  have hsame : flipBit [lo8 v, hi8 v] j k = [lo8 v, hi8 v] := by rw [hflip, ← hv, lo8_assemble16, hi8_assemble16]
  exact flipBit_ne_self hj hk hsame

/-! ### One bit changed in a frame body -/

section FlippedBody
variable (t : Byte) (len : Word16) (p : Bytes) (crc : Word16) {i k : Nat}

/-- How many bytes the CRC covers (R65). -/
theorem header_payload_length : (frameHeader t len ++ p).length = p.length + 3 := by
  rw [List.length_append, Nat.add_comm]
  rfl

/-- In the length field: the same body with another declared length. -/
theorem flipBit_layoutBody_length (hi : i = 1 ∨ i = 2) (hk : k < 8) :
    ∃ len', len' ≠ len ∧ flipBit (layoutBody t len p crc) i k = layoutBody t len' p crc := by
  obtain ⟨j, rfl⟩ : ∃ j, i = j + 1 := ⟨i - 1, by omega⟩
  have hj : j < 2 := by omega
  obtain ⟨len', hne, hfield⟩ := flipBit_field len hj hk
  refine ⟨len', hne, ?_⟩
  calc flipBit (layoutBody t len p crc) (j + 1) k
      = t :: flipBit ([lo8 len, hi8 len] ++ (p ++ [lo8 crc, hi8 crc])) j k := rfl
    _ = t :: ([lo8 len', hi8 len'] ++ (p ++ [lo8 crc, hi8 crc])) := by rw [flipBit_append_left hj, hfield]
    _ = layoutBody t len' p crc := rfl

/-- In the type or the payload: header and payload of a body with the same declared length. -/
theorem flipBit_header_payload (h1 : i ≠ 1) (h2 : i ≠ 2) :
    ∃ t' p', p'.length = p.length ∧ flipBit (frameHeader t len ++ p) i k = frameHeader t' len ++ p' := by
  match i with
  | 0 => exact ⟨_, p, rfl, rfl⟩
  | 1 => exact absurd rfl h1
  | 2 => exact absurd rfl h2
  | j + 3 => exact ⟨t, flipBit p j k, flipBit_length p j k, rfl⟩

/-- In the stored CRC: the same body with another CRC. -/
theorem flipBit_layoutBody_crc {j : Nat} (hj : j < 2) (hk : k < 8) :
    ∃ crc', crc' ≠ crc ∧ flipBit (layoutBody t len p crc) (p.length + 3 + j) k = layoutBody t len p crc' := by
  obtain ⟨crc', hne, hfield⟩ := flipBit_field crc hj hk
  refine ⟨crc', hne, ?_⟩
  rw [layoutBody, ← header_payload_length t len p, flipBit_append_right, hfield]
  rfl

end FlippedBody

/-- A body of another length than it declares is garbage (R122). -/
theorem parseBody_layout_garbage (t : Byte) {len : Word16} {p : Bytes} (crc : Word16) (h : p.length ≠ len.toNat) :
    parseBody c (layoutBody t len p crc) = .garbage :=
  parseBody_garbage (by simp [lengthOk, h])

/-- A body of the declared length whose CRC is not the one stored (R123). -/
theorem parseBody_layout_crcFail {t : Byte} {len : Word16} {p : Bytes} {crc : Word16} (h : p.length = len.toNat)
    (hcrc : c.crc16 (frameHeader t len ++ p) ≠ crc) : parseBody c (layoutBody t len p crc) = .crcFail t p :=
  (parseBody_layout t len p crc h c).trans (if_neg hcrc)

/-- Settles O23: the changed bit lies in the length field, in the type or the payload, or in the stored CRC. -/
theorem singleBitFlipIsDetected : Obligations.SingleBitFlipIsDetected := by
  intro c t p i k hp hi hk
  have hlen : p.length = (lengthField p).toNat := (lengthField_toNat hp).symm
  refine ⟨fun hfield => ?lengthField, fun h1 h2 hdetects => ?elsewhere⟩
  case lengthField =>
    obtain ⟨len', hne, hflip⟩ := flipBit_layoutBody_length t (lengthField p) p _ hfield hk
    rw [bodyOf, hflip]
    exact parseBody_layout_garbage t _ fun h => hne (BitVec.eq_of_toNat_eq (h.symm.trans hlen))
  case elsewhere =>
    by_cases hcovered : i < p.length + 3
    case pos =>
      obtain ⟨t', p', hp', hflip⟩ := flipBit_header_payload t (lengthField p) p (k := k) h1 h2
      have hin : i < (frameHeader t (lengthField p) ++ p).length :=
        hcovered.trans_eq (header_payload_length t (lengthField p) p).symm
      have hcrc := hdetects hcovered
      rw [bodyOf, layoutBody, flipBit_append_left hin, hflip]
      rw [hflip] at hcrc
      exact ⟨t', p', parseBody_layout_crcFail (hp'.trans hlen) hcrc⟩
    case neg =>
      obtain ⟨j, rfl⟩ : ∃ j, i = p.length + 3 + j := ⟨i - (p.length + 3), by omega⟩
      obtain ⟨crc', hne, hflip⟩ := flipBit_layoutBody_crc t (lengthField p) p _ (j := j) (by omega) hk
      rw [bodyOf, hflip]
      exact ⟨t, p, parseBody_layout_crcFail hlen hne.symm⟩

end Sys2Proof.Machine
end

section
/-! SUPPORT. `SEND` in each state of the transmitter (R135 to R143): what it comes to is what its request comes to, said
without any buffer. -/

namespace Sys2Proof.Machine

variable {c : Config} {s s' : State}

/-! ### What the transmit buffer keeps -/

/-- What `m'` holds at and beyond the capacity is what `m` holds there (R42, R91). -/
def Memory.sameBeyond (cap : Nat) (m m' : Memory) : Prop := ∀ i, cap ≤ i → Memory.read m' i = Memory.read m i

theorem Memory.sameBeyond.refl (cap : Nat) (m : Memory) : Memory.sameBeyond cap m m := fun _ _ => rfl

theorem Memory.sameBeyond.trans {cap : Nat} {m m' m'' : Memory} (h : Memory.sameBeyond cap m m')
    (h' : Memory.sameBeyond cap m' m'') : Memory.sameBeyond cap m m'' := fun i hi => (h' i hi).trans (h i hi)

/-- What storing from the start of a buffer does to each index. -/
theorem Memory.read_store_zero (m : Memory) (bs : Bytes) (i : Nat) :
    Memory.read (Memory.store m 0 bs) i = if i < bs.length then bs[i]? else Memory.read m i := by
  simp only [Memory.read_store, Nat.zero_le, Nat.zero_add, Nat.sub_zero, true_and]

/-- Bytes within the capacity, stored from the start of a buffer, leave alone what lies beyond it. -/
theorem Memory.sameBeyond_store {cap : Nat} (m : Memory) {bs : Bytes} (h : bs.length ≤ cap) :
    Memory.sameBeyond cap m (Memory.store m 0 bs) := fun i hi => by
  rw [Memory.read_store_zero, if_neg (by omega)]

/-! ### `SEND` in `READY` -/

/-- `SEND` in `READY` is `SendNow`, its answer the result (R135). -/
theorem sendStep_ready {t : Byte} {p : Bytes} {r : SendResult} (hp : p.length ≤ 65535) (hready : s.txState = .ready)
    (h : sendNow c t p s = .ok (r, s')) : sendStep c t p s = .next (s'.sendResult r) := by
  simp only [sendStep, payloadFits_eq_true hp, if_true, hready, h]

/-- A request with wire bytes is sent in one transmission (R137). -/
theorem sendStep_sent {t : Byte} {p W : Bytes} (hp : p.length ≤ 65535) (hready : s.txState = .ready)
    (h : requestWire c t p = .ok W) :
    sendStep c t p s = .next { s with txbuf := Memory.store s.txbuf 0 W, txlen := W.length, txState := .busy,
                                      trace := s.trace ++ [.uartTx W], result := .sent } :=
  sendStep_ready hp hready (sendNow_sent h s)

/-- A request that is an error is refused with it, and the transmit buffer is empty (R136, R140, R141). -/
theorem sendStep_refused {t : Byte} {p : Bytes} {e : ErrorOutcome} (hp : p.length ≤ 65535) (hready : s.txState = .ready)
    (h : requestWire c t p = .error e) :
    ∃ m, Memory.sameBeyond c.txBufCap s.txbuf m ∧
      sendStep c t p s = .next { s with txbuf := m, txlen := 0, result := .refused e } := by
  obtain ⟨junk, hfit, hnow⟩ := sendNow_refused h s
  exact ⟨_, Memory.sameBeyond_store s.txbuf hfit, sendStep_ready hp hready hnow⟩

/-- Settles O33: the memory is the old one with the wire bytes stored, or with what was encoded before the refusal. -/
theorem sendWhenReady : Obligations.SendWhenReady := by
  refine ⟨fun t p s => rfl, fun c t p s hp hready => ?_⟩
  cases hw : requestWire c t p with
  | ok W =>
    obtain ⟨-, -, hfit⟩ := requestWire_ok hw
    refine ⟨Memory.store s.txbuf 0 W, Memory.sameBeyond_store s.txbuf hfit, fun W' hW' => ?_,
      sendStep_sent hp hready hw⟩
    cases hW'
    exact ⟨hfit, Memory.read_store_zero s.txbuf W⟩
  | error e =>
    obtain ⟨m, hbeyond, hstep⟩ := sendStep_refused hp hready hw
    exact ⟨m, hbeyond, nofun, hstep⟩

/-- BLE_DATA of a length that is zero or no multiple of 64 is found out before anything is encoded (R140). -/
theorem sendDefect_badLength {p : Bytes} (h : p.length = 0 ∨ p.length % 64 ≠ 0) :
    sendDefect c (c.typeByte .bleData) p = some .badLength := by
  have hlen : bleLengthOk p = false := by
    rcases h with h | h <;> simp [bleLengthOk, bleChunk, h]
  simp [sendDefect, typeTransmits, hlen, c.typeByte_injective.eq_iff]

/-- `SEND` in `READY` of BLE_DATA of such a length is refused, with an empty transmit buffer (R140). -/
theorem sendStep_badLength {p : Bytes} (hp : p.length ≤ 65535) (hready : s.txState = .ready)
    (h : p.length = 0 ∨ p.length % 64 ≠ 0) :
    sendStep c (c.typeByte .bleData) p s = .next { s with txlen := 0, result := .refused .badLength } :=
  sendStep_ready (s' := { s with txlen := 0 }) (r := some .badLength) hp hready
    (by simp only [sendNow, sendDefect_badLength h])

/-- Settles O34: the type is looked at first, the BLE length second, and both before anything is stored. -/
theorem sendRefusesTypesAndLengths : Obligations.SendRefusesTypesAndLengths := fun _ _ _ hp hready =>
  ⟨sendStep_invalidType hp hready, sendStep_badLength hp hready⟩

/-! ### `SEND` in `BUSY` -/

/-- Settles O36. -/
theorem sendWhenBusyQueues : Obligations.SendWhenBusyQueues :=
  ⟨fun _ _ _ => rfl, fun _ t _ _ hp hbusy => sendStep_busy t hp hbusy⟩

end Sys2Proof.Machine
end

section
/-! SUPPORT. `DRAIN` and `TX_COMPLETE` (R144 to R147): the loop comes to what `queueOutcome` says of the queue. -/

namespace Sys2Proof.Machine

variable {c : Config} {s t : State}

/-! ### What a queue comes to -/

/-- The reports of the requests that are dropped (R146). -/
def dropReports (es : List ErrorOutcome) : List Effect := es.map (fun e => .diag (.txDropped e))

/-- Every error that a request can come to is reported when the request is dropped (R146, R210). -/
theorem diagOf_requestWire {t : Byte} {p : Bytes} {e : ErrorOutcome} (h : requestWire c t p = .error e) :
    diagOf e = some (.txDropped e) := by
  rcases requestWire_error h with hdefect | ⟨-, rfl, -⟩
  · unfold sendDefect at hdefect
    split at hdefect
    · split at hdefect
      · cases hdefect
      · split at hdefect <;> cases hdefect
        rfl
    · cases hdefect
      rfl
  · rfl

/-- What is sent from a queue is one of its requests. -/
theorem queueOutcome_sent {q rest : List PendingSend} {es : List ErrorOutcome} {W : Bytes}
    (h : queueOutcome c q = (es, some (W, rest))) : ∃ x ∈ q, requestWire c x.type x.payload = .ok W := by
  induction q generalizing es with
  | nil => cases h
  | cons x q ih =>
    cases hw : requestWire c x.type x.payload with
    | ok W' =>
      simp only [queueOutcome, hw] at h
      cases h
      exact ⟨x, List.mem_cons_self, hw⟩
    | error e =>
      simp only [queueOutcome, hw, Prod.mk.injEq] at h
      obtain ⟨y, hy, hyw⟩ := ih (Prod.ext rfl h.2)
      exact ⟨y, List.mem_cons_of_mem x hy, hyw⟩

/-! ### What the loop comes to -/

/-- The state after a drain of that outcome from `READY`, `m` being what the refused requests have left in the transmit
buffer (R145, R146). -/
def State.drained (s : State) (m : Memory) : List ErrorOutcome × Option (Bytes × List PendingSend) → State
  | (es, none) =>
    { s with txbuf := m, txlen := if s.txq = [] then s.txlen else 0, txq := [], trace := s.trace ++ dropReports es }
  | (es, some (W, rest)) =>
    { s with txbuf := Memory.store m 0 W, txlen := W.length, txq := rest, txState := .busy,
             trace := s.trace ++ dropReports es ++ [.uartTx W] }

/-- The state after one request has been dropped: out of the queue, refused, reported (R146). -/
def State.dropped (s : State) (m : Memory) (e : ErrorOutcome) (rest : List PendingSend) : State :=
  { s with txbuf := m, txlen := 0, txq := rest, trace := s.trace ++ [.diag (.txDropped e)] }

/-- A drain after a request has been dropped is a drain with that request first. -/
theorem State.dropped_drained {x : PendingSend} {rest : List PendingSend} {e : ErrorOutcome} (hq : s.txq = x :: rest)
    (hw : requestWire c x.type x.payload = .error e) (m m' : Memory) :
    (s.dropped m' e rest).drained m (queueOutcome c rest) = s.drained m (queueOutcome c s.txq) := by
  simp only [hq, queueOutcome, hw]
  rcases queueOutcome c rest with ⟨es, _ | ⟨W, waiting⟩⟩
  case none =>
    have hlen : (if (s.dropped m' e rest).txq = [] then (s.dropped m' e rest).txlen else 0) = 0 := ite_self 0
    simp only [State.drained, hlen]
    simp [State.dropped, dropReports, hq]
  case some => simp [State.drained, State.dropped, dropReports]

/-- With nothing queued a drain changes nothing. -/
theorem State.drained_nil (hq : s.txq = []) : s.drained s.txbuf (queueOutcome c s.txq) = s := by
  simp only [hq, queueOutcome, State.drained, dropReports, List.map_nil, List.append_nil, if_true]
  rw [← hq]

/-- In `BUSY`, and with an empty queue, there is nothing to drain (R145). -/
theorem drainLoop_idle (n : Nat) (h : s.txState = .busy ∨ s.txq = []) : drainLoop c n s = .ok s := by
  cases n with
  | zero => rfl
  | succ n =>
    simp only [drainLoop]
    split
    · rename_i x rest hready hq
      simp [hready, hq] at h
    · rfl

/-- One time round the loop: the head leaves the queue, and what cannot be sent is reported (R145, R146). -/
theorem drainLoop_round {x : PendingSend} {rest : List PendingSend} {r : SendResult} (hready : s.txState = .ready)
    (hq : s.txq = x :: rest) (hnow : sendNow c x.type x.payload { s with txq := rest } = .ok (r, t)) (n : Nat) :
    drainLoop c (n + 1) s = drainLoop c n (r.elim t t.takeError) := by
  simp only [drainLoop]
  split
  · rename_i y ys _ hq'
    obtain ⟨rfl, rfl⟩ := List.cons.inj (hq.symm.trans hq')
    rw [hnow]
    cases r <;> rfl
  · rename_i hstop
    exact absurd hq (hstop x rest hready)

/-- A round that drops the head of the queue (R146). -/
theorem drainLoop_dropped {x : PendingSend} {rest : List PendingSend} {e : ErrorOutcome} (hready : s.txState = .ready)
    (hq : s.txq = x :: rest) (hw : requestWire c x.type x.payload = .error e) (n : Nat) :
    ∃ m, Memory.sameBeyond c.txBufCap s.txbuf m ∧ drainLoop c (n + 1) s = drainLoop c n (s.dropped m e rest) := by
  obtain ⟨junk, hfit, hnow⟩ := sendNow_refused hw { s with txq := rest }
  refine ⟨_, Memory.sameBeyond_store s.txbuf hfit, ?_⟩
  rw [drainLoop_round hready hq hnow, Option.elim_some, State.takeError_eq, diagOf_requestWire hw]
  rfl

/-- A round that sends the head of the queue is the last one (R145). -/
theorem drainLoop_sent {x : PendingSend} {rest : List PendingSend} {W : Bytes} (hready : s.txState = .ready)
    (hq : s.txq = x :: rest) (hw : requestWire c x.type x.payload = .ok W) (n : Nat) :
    drainLoop c (n + 1) s = .ok (s.drained s.txbuf (queueOutcome c s.txq)) := by
  rw [drainLoop_round hready hq (sendNow_sent hw _), Option.elim_none, drainLoop_idle n (.inl rfl)]
  simp only [hq, queueOutcome, hw, State.drained, dropReports, List.map_nil, List.append_nil]

/-- In `READY`, with as many rounds as there are requests, the loop comes to the queue's outcome. -/
theorem drainLoop_ready {n : Nat} (hready : s.txState = .ready) (hn : s.txq.length ≤ n) :
    ∃ m, Memory.sameBeyond c.txBufCap s.txbuf m ∧
      drainLoop c n s = .ok (s.drained m (queueOutcome c s.txq)) := by
  induction hq : s.txq generalizing s n with
  | nil => exact ⟨s.txbuf, .refl _ _, by rw [drainLoop_idle n (.inr hq), ← hq, State.drained_nil hq]⟩
  | cons x rest ih =>
    rw [hq, List.length_cons] at hn
    obtain ⟨k, rfl⟩ : ∃ k, n = k + 1 := Nat.exists_eq_succ_of_ne_zero (Nat.ne_zero_of_lt hn)
    rw [← hq]
    cases hw : requestWire c x.type x.payload with
    | ok W => exact ⟨s.txbuf, .refl _ _, drainLoop_sent hready hq hw k⟩
    | error e =>
      obtain ⟨m', hdrop, hround⟩ := drainLoop_dropped hready hq hw k
      obtain ⟨m, hrest, hloop⟩ := ih (s := s.dropped m' e rest) hready (Nat.le_of_succ_le_succ hn) rfl
      exact ⟨m, hdrop.trans hrest, by rw [hround, hloop, State.dropped_drained hq hw]⟩

/-! ### The statements -/

/-- `TX_COMPLETE` makes the transmitter `READY` and comes to the queue's outcome (R144). -/
theorem txCompleteStep_eq (c : Config) (s : State) :
    ∃ m, Memory.sameBeyond c.txBufCap s.txbuf m ∧ txCompleteStep c s =
      .next ((({ s with txState := .ready } : State).drained m (queueOutcome c s.txq)).withResult .none) := by
  obtain ⟨m, hm, hloop⟩ := drainLoop_ready (c := c) (s := { s with txState := .ready }) rfl le_rfl
  exact ⟨m, hm, by rw [txCompleteStep, drain, hloop]; rfl⟩

/-- In `READY` a `DRAIN` is what a `TX_COMPLETE` would be: making the transmitter `READY` changes nothing. -/
theorem drainStep_of_ready (hready : s.txState = .ready) : drainStep c s = txCompleteStep c s := by
  rw [drainStep, txCompleteStep, ← hready]

/-- A `DRAIN` with nothing to drain changes nothing but the result. -/
theorem drainStep_idle (h : s.txState = .busy ∨ s.txq = []) : drainStep c s = .next { s with result := .none } := by
  rw [drainStep, drain, drainLoop_idle _ h]
  rfl

/-- Settles O37: both steps end in the state that `State.drained` says of the queue's outcome. -/
theorem transmitCompleteDrainsInOrder : Obligations.TransmitCompleteDrainsInOrder := by
  refine ⟨fun s => ⟨rfl, rfl⟩, fun c s => ?_⟩
  obtain ⟨m, hbeyond, hstep⟩ := txCompleteStep_eq c s
  obtain ⟨hrx, hrest⟩ := txCompleteStep_transmitFrame hstep
  refine ⟨_, hstep, fun hready => (drainStep_of_ready hready).trans hstep, rfl, hrx, hrest, ?_⟩
  rcases ho : queueOutcome c s.txq with ⟨es, _ | ⟨W, waiting⟩⟩
  case none => exact ⟨⟨rfl, rfl, rfl, rfl⟩, hbeyond⟩
  case some =>
    obtain ⟨x, -, hw⟩ := queueOutcome_sent ho
    obtain ⟨-, -, hfit⟩ := requestWire_ok hw
    exact ⟨⟨rfl, rfl, rfl, Memory.load_store m 0 W, rfl⟩, hbeyond.trans (Memory.sameBeyond_store m hfit)⟩

/-- `TX_COMPLETE` with an empty queue (R144, R145). -/
theorem txCompleteStep_empty (hq : s.txq = []) :
    txCompleteStep c s = .next { s with txState := .ready, result := .none } := by
  have hidle (n : Nat) := drainLoop_idle (c := c) (s := { s with txState := .ready }) n (.inr hq)
  rw [txCompleteStep, drain, hidle]
  rfl

/-- Settles O38: in `READY` the invariant leaves nothing queued, so that the second clause is a case of the first. -/
theorem nothingToDrain : Obligations.NothingToDrain := by
  refine ⟨fun s hq => txCompleteStep_empty hq, fun s hinv hready => ?_, fun s h => drainStep_idle h⟩
  have hempty := txCompleteStep_empty (c := Config.impl) (hinv.tx.ready_empty hready)
  rwa [← hready] at hempty

end Sys2Proof.Machine
end

section
/-! SUPPORT. What the transmitter submits (R137, R149): after reports of dropped requests at most one transmission, made
of whole wire frames. -/

namespace Sys2Proof.Machine

variable {c : Config} {s t : State} {before : List Effect}

/-! ### The bytes of a request are whole frames -/

/-- One or more complete wire frames of the encoder, one behind the other (R149 (c)). -/
def WholeFrames (c : Config) (W : Bytes) : Prop :=
  ∃ frames : List (Byte × Bytes), frames ≠ [] ∧ W = frames.flatMap (fun x => wireOf c x.1 x.2)

/-- BLE_DATA of an admitted length has at least one chunk (R140). -/
theorem chunks_ne_nil {p : Bytes} (h : bleLengthOk p = true) : chunks p ≠ [] := by
  simp only [bleLengthOk, Bool.and_eq_true, decide_eq_true_eq] at h
  obtain ⟨hpos, hmod⟩ : p.length ≠ 0 ∧ p.length % 64 = 0 := h
  have hlen : (chunks p).length = p.length / 64 := by simp [chunks, bleChunk]
  intro hnil
  rw [hnil, List.length_nil] at hlen
  omega

/-- A request without a defect has at least one frame (R138, R139). -/
theorem framePayloads_ne_nil {type : Byte} {p : Bytes} (h : sendDefect c type p = none) :
    framePayloads c type p ≠ [] := by
  unfold framePayloads
  split
  case isTrue => exact List.cons_ne_nil _ _
  case isFalse hcontrol =>
    apply chunks_ne_nil
    cases hlen : bleLengthOk p with
    | true => rfl
    | false =>
      simp only [sendDefect, hcontrol, hlen, if_false, Bool.false_eq_true] at h
      split at h <;> cases h

/-- The wire bytes of a request are its frames (R137). -/
theorem requestWire_wholeFrames {type : Byte} {p W : Bytes} (h : requestWire c type p = .ok W) : WholeFrames c W := by
  obtain ⟨hdefect, rfl, -⟩ := requestWire_ok h
  refine ⟨(framePayloads c type p).map (fun q => (type, q)), ?_, by rw [List.flatMap_map]⟩
  exact fun hnil => framePayloads_ne_nil hdefect (List.map_eq_nil_iff.mp hnil)

/-! ### What a free transmitter does to the trace -/

/-- What a free transmitter comes to, `before` being the trace so far: reports and nothing submitted, or reports and one
transmission of whole frames, with which it is `BUSY` (R149). -/
inductive Submission (c : Config) (before : List Effect) (t : State) : Prop
  | nothing (es : List ErrorOutcome) (hready : t.txState = .ready) (htrace : t.trace = before ++ dropReports es)
  | sent (es : List ErrorOutcome) (W : Bytes) (hframes : WholeFrames c W) (hbusy : t.txState = .busy)
      (htrace : t.trace = before ++ dropReports es ++ [.uartTx W])

/-- The result is no part of it. -/
theorem Submission.withResult (h : Submission c before t) (r : OpResult) : Submission c before (t.withResult r) := by
  cases h with
  | nothing es hready htrace => exact .nothing es hready htrace
  | sent es W hframes hbusy htrace => exact .sent es W hframes hbusy htrace

/-- A report is no transmission. -/
theorem dropReports_not_uartTx {es : List ErrorOutcome} {e : Effect} (h : e ∈ dropReports es) : e.isUartTx = false := by
  obtain ⟨o, -, rfl⟩ := List.mem_map.mp h
  rfl

theorem countP_dropReports (es : List ErrorOutcome) : (dropReports es).countP Effect.isUartTx = 0 :=
  List.countP_eq_zero.mpr fun _ he => Bool.eq_false_iff.mp (dropReports_not_uartTx he)

/-- Every transmission submitted is made of whole frames. -/
theorem Submission.wholeFrames (h : Submission c before t) {new : List Effect} {W : Bytes}
    (hnew : t.trace = before ++ new) (hW : Effect.uartTx W ∈ new) : WholeFrames c W := by
  cases h with
  | nothing es hready htrace =>
    obtain rfl := List.append_cancel_left (hnew.symm.trans htrace)
    cases dropReports_not_uartTx hW
  | sent es W' hframes hbusy htrace =>
    rw [List.append_assoc] at htrace
    obtain rfl := List.append_cancel_left (hnew.symm.trans htrace)
    rcases List.mem_append.mp hW with hW | hW
    · cases dropReports_not_uartTx hW
    · cases List.mem_singleton.mp hW
      exact hframes

/-- At most one transmission is submitted, and the transmitter is then `BUSY` (R149 (a), (b)). -/
theorem Submission.count (h : Submission c before t) : ∃ new : List Effect, t.trace = before ++ new ∧
    new.countP Effect.isUartTx ≤ 1 ∧ (t.txState = .busy ↔ new.countP Effect.isUartTx = 1) := by
  cases h with
  | nothing es hready htrace =>
    have hcount := countP_dropReports es
    exact ⟨_, htrace, by omega, by simp [hready, hcount]⟩
  | sent es W hframes hbusy htrace =>
    have hcount : (dropReports es ++ [Effect.uartTx W]).countP Effect.isUartTx = 1 := by
      rw [List.countP_append, countP_dropReports]; rfl
    exact ⟨_, htrace.trans (List.append_assoc ..), hcount.le, by simp only [hbusy, hcount]⟩

/-- Draining a queue is one submission (R145). -/
theorem drained_submission (hready : s.txState = .ready) (m : Memory) :
    Submission c s.trace (s.drained m (queueOutcome c s.txq)) := by
  rcases ho : queueOutcome c s.txq with ⟨es, _ | ⟨W, waiting⟩⟩
  case none => exact .nothing es hready rfl
  case some =>
    obtain ⟨x, -, hw⟩ := queueOutcome_sent ho
    exact .sent es W (requestWire_wholeFrames hw) rfl rfl

/-! ### Each operation of the transmitter -/

/-- What `SEND` and `DRAIN` come to: in `BUSY` nothing is submitted (R142, R145), in `READY` what a free transmitter
does. -/
def SubmitsIfReady (c : Config) (s t : State) : Prop :=
  (s.txState = .busy ∧ t.txState = .busy ∧ t.trace = s.trace) ∨ (s.txState = .ready ∧ Submission c s.trace t)

theorem sendStep_submits {type : Byte} {p : Bytes} (h : sendStep c type p s = .next t) : SubmitsIfReady c s t := by
  by_cases hp : p.length ≤ 65535
  case neg =>
    rw [sendStep_payloadTooLong type s (by omega)] at h
    cases h
  cases hs : s.txState with
  | busy =>
    rw [sendStep_busy type hp hs] at h
    cases h
    exact .inl ⟨hs, by split <;> exact hs, by split <;> rfl⟩
  | ready =>
    refine .inr ⟨hs, ?_⟩
    cases hw : requestWire c type p with
    | ok W =>
      rw [sendStep_sent hp hs hw] at h
      cases h
      exact .sent [] W (requestWire_wholeFrames hw) rfl (by simp [dropReports])
    | error e =>
      obtain ⟨m, -, hstep⟩ := sendStep_refused hp hs hw
      rw [hstep] at h
      cases h
      exact .nothing [] hs (by simp [dropReports])

/-- `TX_COMPLETE` frees the transmitter first, whatever its state (R144). -/
theorem txCompleteStep_submits (h : txCompleteStep c s = .next t) : Submission c s.trace t := by
  obtain ⟨m, -, hstep⟩ := txCompleteStep_eq c s
  rw [hstep] at h
  cases h
  exact (drained_submission (s := { s with txState := .ready }) rfl m).withResult _

theorem drainStep_submits (h : drainStep c s = .next t) : SubmitsIfReady c s t := by
  cases hs : s.txState with
  | busy =>
    rw [drainStep_idle (.inl hs)] at h
    cases h
    exact .inl ⟨hs, hs, rfl⟩
  | ready => exact .inr ⟨hs, txCompleteStep_submits ((drainStep_of_ready hs).symm.trans h)⟩

theorem SubmitsIfReady.wholeFrames (h : SubmitsIfReady c s t) {new : List Effect} {W : Bytes}
    (hnew : t.trace = s.trace ++ new) (hW : Effect.uartTx W ∈ new) : WholeFrames c W := by
  rcases h with ⟨-, -, htrace⟩ | ⟨-, hsub⟩
  · rw [htrace, List.self_eq_append_right] at hnew
    rw [hnew] at hW
    cases hW
  · exact hsub.wholeFrames hnew hW

/-- Settles O41: a transmission is the wire bytes of one request, and these are its frames. -/
theorem everyTransmissionIsWholeFrames : Obligations.EveryTransmissionIsWholeFrames := by
  refine ⟨fun t p s => ⟨rfl, rfl, rfl, rfl, rfl⟩, fun c s t new W hstep hnew hW => ?_⟩
  rcases hstep with hcomplete | hdrain | ⟨type, p, hsend⟩
  · exact (txCompleteStep_submits hcomplete).wholeFrames hnew hW
  · exact (drainStep_submits hdrain).wholeFrames hnew hW
  · exact (sendStep_submits hsend).wholeFrames hnew hW

end Sys2Proof.Machine
end

section
/-! SUPPORT. What submits nothing (R149, R150): every operation but those of the transmitter, from any state. -/

namespace Sys2Proof.Machine

variable {c : Config} {conn : Bool} {s t u : State}

/-! ### The receive path and the busy-poll, from any state -/

/-- The trace grows by effects that neither transmit nor arm the timer. -/
def AppendsQuietly (s t : State) : Prop :=
  ∃ new : List Effect, t.trace = s.trace ++ new ∧ ∀ e ∈ new, e.isUartTx = false ∧ e.isTimerArm = false

theorem AppendsQuietly.of_trace (h : t.trace = s.trace) : AppendsQuietly s t := ⟨[], by simp [h], nofun⟩

theorem AppendsQuietly.trans (h : AppendsQuietly s t) (h' : AppendsQuietly t u) : AppendsQuietly s u := by
  obtain ⟨new, htrace, hquiet⟩ := h
  obtain ⟨new', htrace', hquiet'⟩ := h'
  refine ⟨new ++ new', by rw [htrace', htrace, List.append_assoc], fun e he => ?_⟩
  exact (List.mem_append.mp he).elim (hquiet e) (hquiet' e)

/-- No effect of a routed packet is a transmission or arms the timer (R169). -/
theorem routeEffects_quiet (c : Config) (conn : Bool) (pkt : Packet) :
    ∀ e ∈ routeEffects c conn pkt, e.isUartTx = false ∧ e.isTimerArm = false := by
  cases pkt with
  | garbage => exact nofun
  | crcFail type p => exact List.forall_mem_singleton.mpr ⟨rfl, rfl⟩
  | ok type p k =>
    cases k with
    | none | ack | nak | ping => exact nofun
    | control => exact List.forall_mem_singleton.mpr ⟨rfl, rfl⟩
    | bleData =>
      cases conn with
      | false => exact nofun
      | true => exact List.forall_mem_singleton.mpr ⟨rfl, rfl⟩

theorem route_appendsQuietly (pkt : Packet) : AppendsQuietly s (route c pkt conn s) :=
  ⟨_, by rw [route_eq], routeEffects_quiet c conn pkt⟩

/-- A byte through the decoder appends nothing. -/
theorem decodeByte_trace {b : Byte} {r : ByteResult} (h : decodeByte c b s = .ok (r, t)) : t.trace = s.trace := by
  rw [decodeByte_frame h]; rfl

theorem feedByte_appendsQuietly {b : Byte} (h : feedByte c conn b s = .ok t) : AppendsQuietly s t := by
  rw [feedByte_eq] at h
  cases hb : decodeByte c b s with
  | error f => rw [hb] at h; cases h
  | ok x =>
    obtain ⟨r, u⟩ := x
    rw [hb] at h
    cases h
    refine ⟨byteEffects c conn r, congrArg (· ++ byteEffects c conn r) (decodeByte_trace hb), fun e he => ?_⟩
    obtain ⟨a, -, ha⟩ := List.mem_flatMap.mp he
    exact answerEffects_quiet c conn a e ha

theorem feedAll_appendsQuietly {bs : Bytes} (h : feedAll c conn bs s = .ok t) : AppendsQuietly s t := by
  induction bs generalizing s with
  | nil => cases h; exact .of_trace rfl
  | cons b rest ih =>
    simp only [feedAll] at h
    cases hb : feedByte c conn b s with
    | error f => rw [hb] at h; cases h
    | ok u =>
      rw [hb] at h
      exact (feedByte_appendsQuietly hb).trans (ih h)

/-- What a polling iteration reports is no transmission and does not arm the timer (R247 point (f)). -/
theorem polledEffects_quiet (c : Config) (r : DecodeResult) :
    ∀ e ∈ polledEffects c r, e.isUartTx = false ∧ e.isTimerArm = false := by
  cases r with
  | needMore => exact nofun
  | overflow => exact List.forall_mem_singleton.mpr ⟨rfl, rfl⟩
  | frame F =>
    simp only [polledEffects]
    cases parseBody c F with
    | crcFail type p => exact List.forall_mem_singleton.mpr ⟨rfl, rfl⟩
    | garbage => exact nofun
    | ok type p k => exact nofun

theorem onPolled_appendsQuietly (r : DecodeResult) : AppendsQuietly s (onPolled c r s) :=
  ⟨_, by rw [onPolled_eq], polledEffects_quiet c r⟩

theorem pollAll_appendsQuietly {expect : Byte} {bs : Bytes} {p : Option Bytes}
    (h : pollAll c expect bs s = .ok (p, t)) : AppendsQuietly s t := by
  induction bs generalizing s with
  | nil => cases h; exact .of_trace rfl
  | cons b rest ih =>
    simp only [pollAll] at h
    cases hb : decodeByte c b s with
    | error f => rw [hb] at h; cases h
    | ok x =>
      obtain ⟨r, u⟩ := x
      have hu : AppendsQuietly s u := .of_trace (decodeByte_trace hb)
      rw [hb] at h
      simp only at h
      split at h
      · exact hu.trans (ih h)
      · split at h
        · cases h; exact hu
        · exact (hu.trans (onPolled_appendsQuietly _)).trans (ih h)

/-! ### Submitting nothing -/

/-- `tx_state` stays, and what is appended to the trace holds no transmission (R148, R150). -/
def SubmitsNothing (s t : State) : Prop :=
  t.txState = s.txState ∧ ∃ new : List Effect, t.trace = s.trace ++ new ∧ new.countP Effect.isUartTx = 0

theorem SubmitsNothing.silent (hstate : t.txState = s.txState) (htrace : t.trace = s.trace) : SubmitsNothing s t :=
  ⟨hstate, [], by simp [htrace], rfl⟩

theorem SubmitsNothing.of_quiet (hstate : t.txState = s.txState) (h : AppendsQuietly s t) : SubmitsNothing s t := by
  obtain ⟨new, htrace, hquiet⟩ := h
  exact ⟨hstate, new, htrace, List.countP_eq_zero.mpr fun e he => Bool.eq_false_iff.mp (hquiet e he).1⟩

theorem SubmitsNothing.trans (h : SubmitsNothing s t) (h' : SubmitsNothing t u) : SubmitsNothing s u := by
  obtain ⟨hstate, new, htrace, hcount⟩ := h
  obtain ⟨hstate', new', htrace', hcount'⟩ := h'
  exact ⟨hstate'.trans hstate, new ++ new', by rw [htrace', htrace, List.append_assoc],
    by rw [List.countP_append, hcount, hcount']⟩

/-- The result is no part of it. -/
theorem SubmitsNothing.withResult (h : SubmitsNothing s t) (r : OpResult) : SubmitsNothing s (t.withResult r) := h

/-! ### The receive side -/

theorem route_submitsNothing (pkt : Packet) : SubmitsNothing s (route c pkt conn s) :=
  .of_quiet (by rw [route_eq]) (route_appendsQuietly pkt)

/-- Closing the valve may arm the timer, and does not transmit (R163). -/
theorem closeValve_submitsNothing (c : Config) (s : State) : SubmitsNothing s (closeValve c s) := by
  rw [closeValve_eq]
  exact ⟨rfl, _, rfl, by split <;> rfl⟩

theorem openValve_submitsNothing (s : State) : SubmitsNothing s (openValve s) := by
  unfold openValve
  split <;> exact .silent rfl rfl

theorem bpCheck_submitsNothing (used max : Nat) : SubmitsNothing s (bpCheck c used max s).2 := by
  rcases bpCheck_state c used max s with h | h <;> rw [h]
  · exact closeValve_submitsNothing c s
  · exact .silent rfl rfl

theorem receive_submitsNothing {bs : Bytes} {used max : Nat} (h : receive c bs used max conn s = .ok t) :
    SubmitsNothing s t := by
  cases ho : overThreshold used max with
  | true =>
    rw [receive_over ho] at h
    cases h
    exact (closeValve_submitsNothing c s).trans (.silent rfl rfl)
  | false =>
    rw [receive_under ho] at h
    cases hf : feedAll c conn bs s with
    | error f => rw [hf] at h; cases h
    | ok u =>
      rw [hf] at h
      cases h
      have hu : SubmitsNothing s u := .of_quiet (by rw [feedAll_frame hf]; rfl) (feedAll_appendsQuietly hf)
      exact hu.trans (.silent rfl rfl)

theorem receiveEach_submitsNothing {bs : Bytes} (h : receiveEach c conn bs s = .ok t) : SubmitsNothing s t := by
  induction bs generalizing s with
  | nil => cases h; exact .silent rfl rfl
  | cons b rest ih =>
    simp only [receiveEach] at h
    cases hb : receive c [b] 0 1 conn s with
    | error f => rw [hb] at h; cases h
    | ok u =>
      rw [hb] at h
      exact (receive_submitsNothing hb).trans (ih h)

theorem wireStep_submitsNothing {bs : Bytes} (h : wireStep c bs conn s = .next t) : SubmitsNothing s t := by
  obtain ⟨u, hu, rfl⟩ := finish_map_eq_next.mp h
  exact (receiveEach_submitsNothing hu).withResult _

theorem rxReadyStep_submitsNothing {bs : Bytes} {used max : Nat} (h : rxReadyStep c bs used max conn s = .next t) :
    SubmitsNothing s t := by
  unfold rxReadyStep at h
  split at h
  · obtain ⟨u, hu, rfl⟩ := finish_map_eq_next.mp h
    exact (receive_submitsNothing hu).withResult _
  · cases h

theorem decodeByteStep_submitsNothing {b : Byte} (h : decodeByteStep c b s = .next t) : SubmitsNothing s t := by
  obtain ⟨r, u, hu, rfl⟩ := decodeByteStep_eq_next.mp h
  rw [decodeByte_frame hu]
  exact .silent rfl rfl

theorem decodeStep_submitsNothing {input : Bytes} (h : decodeStep c input s = .next t) : SubmitsNothing s t := by
  obtain ⟨r, n, u, hu, rfl⟩ := decodeStep_eq_next.mp h
  rw [decodeBytes_frame hu]
  exact .silent rfl rfl

theorem typeStep_receive_submitsNothing {type : Byte} {p : Bytes} (h : typeStep c type (.receive p conn) s = .next t) :
    SubmitsNothing s t := by
  simp only [typeStep] at h
  split at h
  · cases h
    exact (route_submitsNothing _).withResult _
  · cases h

/-- A command is routed, and what the dispatcher does is no effect of the block (R202). -/
theorem commandStep_submitsNothing {o : CtrlOp} {args : Bytes} {status : BleStatus}
    (h : commandStep c o args status s = .next t) : SubmitsNothing s t := by
  simp only [commandStep] at h
  split at h
  · cases h
    obtain ⟨script, hs⟩ := State.handOver_eq c
      (route c (parseBody c (bodyOf c (c.typeByte .control) (c.ctrlOpcode o :: args))) (isConnected status) s)
      status (c.ctrlOpcode o :: args)
    rw [hs]
    exact (route_submitsNothing _).trans (.silent rfl rfl)
  · cases h

/-! ### `ENCODE` by itself -/

theorem setTxBuffer_submitsNothing (s : State) (B : Buffer) : SubmitsNothing s (s.setTxBuffer B) := .silent rfl rfl

theorem encodeResult_submitsNothing {space : Space} {r : EncodeResult} {B : Buffer}
    (h : encodeResult space r B s = .next t) : SubmitsNothing s t := by
  unfold encodeResult at h
  split at h
  · cases h; exact .silent rfl rfl
  · cases h

/-- The bytes are formatted, and not handed to the UART (R93). -/
theorem encodeStep_submitsNothing {d : EncodeDest} {type : Byte} {p : Bytes} (h : encodeStep c d type p s = .next t) :
    SubmitsNothing s t := by
  unfold encodeStep at h
  split at h
  · cases d with
    | txbuf =>
      simp only at h
      split at h
      · cases h
      · exact (setTxBuffer_submitsNothing s _).trans (encodeResult_submitsNothing h)
    | given content cap =>
      simp only at h
      split at h
      · exact encodeResult_submitsNothing h
      · cases h
  · cases h

/-! ### The blocking exchange -/

theorem pollRead_submitsNothing {expect : Byte} {bs : Bytes} {p : Option Bytes}
    (h : pollRead c expect bs s = .ok (p, t)) : SubmitsNothing s t := by
  rw [pollRead_eq] at h
  cases hp : pollAll c expect bs s with
  | error f => rw [hp] at h; cases h
  | ok x =>
    obtain ⟨q, u⟩ := x
    rw [hp] at h
    cases h
    have hu : SubmitsNothing s u := .of_quiet (by rw [pollAll_frame hp]; rfl) (pollAll_appendsQuietly hp)
    exact hu.trans (.silent rfl rfl)

theorem pollReads_submitsNothing {expect : Byte} {reads : List Bytes} {p : Option Bytes}
    (h : pollReads c expect reads s = .ok (p, t)) : SubmitsNothing s t := by
  induction reads generalizing s with
  | nil => cases h; exact .silent rfl rfl
  | cons bs rest ih =>
    simp only [pollReads] at h
    cases hr : pollRead c expect bs s with
    | error f => rw [hr] at h; cases h
    | ok x =>
      obtain ⟨q, u⟩ := x
      have hu := pollRead_submitsNothing hr
      rw [hr] at h
      cases q with
      | some q => cases h; exact hu
      | none => exact hu.trans (ih h)

theorem pollExchange_submitsNothing {x : Exchange} {reads : List Bytes} (h : pollExchange c x reads s = .ok t) :
    SubmitsNothing s t := by
  unfold pollExchange at h
  split at h
  · cases h
  · rename_i hp
    cases h
    exact (pollReads_submitsNothing hp).trans (.silent rfl rfl)
  · rename_i hp
    cases h
    exact (pollReads_submitsNothing hp).trans (.silent rfl rfl)

/-- The blocking write is complete on return: no completion is outstanding after it (R247, R225). -/
theorem submitBlocking_submitsNothing (h : submitBlocking s = .ok t) : SubmitsNothing s t := by
  unfold submitBlocking at h
  split at h
  · cases h
    exact ⟨rfl, _, rfl, rfl⟩
  · cases h

theorem beginExchange_submitsNothing {x : Exchange} {reads : List Bytes} (h : beginExchange c x reads s = .ok t) :
    SubmitsNothing s t := by
  unfold beginExchange at h
  split at h
  · split at h
    · cases h; exact .silent rfl rfl
    · split at h
      · cases h
      · rename_i hwrite
        have hwritten := (setTxBuffer_submitsNothing s _).trans (submitBlocking_submitsNothing hwrite)
        exact hwritten.trans (pollExchange_submitsNothing h)
  · cases h; exact .silent rfl rfl

theorem finish_eq_next {x : Except Fault State} : finish x = .next t ↔ x = .ok t := by
  cases x <;> simp [finish]

theorem syncXchgStep_submitsNothing {req : Bytes} {expect : Byte} {reads : List Bytes}
    (h : syncXchgStep c req expect reads s = .next t) : SubmitsNothing s t := by
  unfold syncXchgStep at h
  split at h
  · split at h
    · have hok := finish_eq_next.mp h
      split at hok
      · exact pollExchange_submitsNothing hok
      · exact beginExchange_submitsNothing hok
    · cases h
  · cases h

end Sys2Proof.Machine
end

section
/-! SUPPORT. At most one transmission is outstanding (R149 (a), (b), R150). -/

namespace Sys2Proof.Machine

variable {i : Instr} {s t : State}

/-- Every operation but a completion and a reset submits nothing, or is a `SEND` or a `DRAIN`, of the transmit side. -/
theorem exec_submits (h : exec i s = .next t) (hreset : i ≠ .reset) (hcomplete : i ≠ .txComplete) :
    SubmitsNothing s t ∨ (isTransmitSide i = true ∧ SubmitsIfReady Config.impl s t) := by
  cases i with
  | reset => exact absurd rfl hreset
  | txComplete => exact absurd rfl hcomplete
  | send type p => exact .inr ⟨rfl, sendStep_submits h⟩
  | drain => exact .inr ⟨rfl, drainStep_submits h⟩
  | typeAck use | typeNak use | typeBleData use | typeControl use | typePing use | typeOther type use =>
    cases use with
    | transmit p => exact .inr ⟨rfl, sendStep_submits h⟩
    | receive p conn => exact .inl (typeStep_receive_submitsNothing h)
  | delim conn | esc conn | lit b conn | escPair7E conn | escPair7D conn | escPair02 conn | escPairAny x conn
  | wireFrame body conn => exact .inl (wireStep_submitsNothing h)
  | frameBody type len p crc conn => cases h; exact .inl (route_submitsNothing _)
  | route pkt conn => cases h; exact .inl (route_submitsNothing _)
  | rxReady bs used max conn => exact .inl (rxReadyStep_submitsNothing h)
  | timerFire => cases h; exact .inl (openValve_submitsNothing s)
  | bpCheck used max => cases h; exact .inl (bpCheck_submitsNothing used max)
  | decodeByte b => exact .inl (decodeByteStep_submitsNothing h)
  | decode input => exact .inl (decodeStep_submitsNothing h)
  | encode dest type p => exact .inl (encodeStep_submitsNothing h)
  | syncXchg req expect reads => exact .inl (syncXchgStep_submitsNothing h)
  | start | escape b | crc16 bs | parse body | classify type => cases h; exact .inl (.silent rfl rfl)
  | ctrlDeviceName args st | ctrlBondDbGet args st | ctrlBondDbSet args st | ctrlPairingCode args st
  | ctrlBleStatus args st | ctrlIrk args st | ctrlProductString args st | ctrlChipReset args st
  | ctrlIdentityAddress args st | ctrlPairingSuccessful args st | ctrlTkConfirm args st | ctrlBleEnabled args st
  | ctrlTxPower args st | ctrlDebugString args st => exact .inl (commandStep_submitsNothing h)

/-- Settles O40: a completion frees the transmitter before it submits; any other operation submits in `READY` only. -/
theorem oneTransmissionAtATime : Obligations.OneTransmissionAtATime := by
  intro i s t h hreset
  by_cases hcomplete : i = .txComplete
  case pos =>
    subst hcomplete
    obtain ⟨new, htrace, hle, hbusy⟩ := (txCompleteStep_submits (c := Config.impl) h).count
    exact ⟨new, htrace, hle, fun _ hne => absurd rfl hne, fun _ => hbusy, nofun⟩
  case neg =>
    rcases exec_submits h hreset hcomplete with ⟨hstate, new, htrace, hcount⟩ | ⟨hside, hsub⟩
    case inl =>
      refine ⟨new, htrace, by omega, fun hbusy _ => ⟨hcount, hstate.trans hbusy⟩, fun hfree => ?_, fun _ => hcount⟩
      have hready : t.txState = .ready := hstate.trans (hfree.resolve_right hcomplete)
      simp [hready, hcount]
    case inr =>
      have hnot : isTransmitSide i ≠ false := by simp [hside]
      rcases hsub with ⟨hbusy, hbusy', htrace⟩ | ⟨hready, hsub⟩
      · refine ⟨[], by simp [htrace], Nat.zero_le _, fun _ _ => ⟨rfl, hbusy'⟩, fun hfree => ?_,
          fun hn => absurd hn hnot⟩
        cases hbusy.symm.trans (hfree.resolve_right hcomplete)
      · obtain ⟨new, htrace, hle, hcount⟩ := hsub.count
        exact ⟨new, htrace, hle, fun hbusy => (nomatch hready.symm.trans hbusy), fun _ => hcount,
          fun hn => absurd hn hnot⟩

end Sys2Proof.Machine
end

section
/-! SUPPORT. The router, the valve and the notification (44_rx_router.md): `ROUTE` by its effects (R169), `BP_CHECK` and
`TIMER_FIRE` on the valve (R162, R163, R166), and `RX_READY` over and under the threshold (R160, R161, R164). -/

namespace Sys2Proof.Machine

variable {c : Config} {conn : Bool} {s t : State}

/-! ### `ROUTE` -/

/-- `ROUTE` by itself adds the packet's effects and returns nothing (R169). -/
theorem exec_route_eq (pkt : Packet) (conn : Bool) (s : State) : exec (.route pkt conn) s =
    .next { s with result := .none, trace := s.trace ++ routeEffects Config.impl conn pkt } := by
  have hexec : exec (.route pkt conn) s = .next ((route Config.impl pkt conn s).withResult .none) := rfl
  rw [hexec, route_eq]
  rfl

/-- A packet without an effect changes nothing but the result (R173, R174). -/
theorem exec_route_quiet {pkt : Packet} (s : State) (h : routeEffects Config.impl conn pkt = []) :
    exec (.route pkt conn) s = .next { s with result := .none } := by
  rw [exec_route_eq, h, List.append_nil]

/-- Settles O25: in each case the effects are those of R169's table. -/
theorem routeByClass : Obligations.RouteByClass := fun conn t p s =>
  ⟨exec_route_eq (.ok t p .bleData) conn s, exec_route_eq (.ok t p .control) conn s,
    exec_route_eq (.crcFail t p) conn s, exec_route_quiet s rfl, exec_route_quiet s rfl, exec_route_quiet s rfl,
    exec_route_quiet s rfl, exec_route_quiet s rfl⟩

/-! ### The valve -/

theorem overThreshold_eq_true {used max : Nat} (h : max * 9 ≤ used * 10) : overThreshold used max = true :=
  decide_eq_true h

theorem overThreshold_eq_false {used max : Nat} (h : ¬ max * 9 ≤ used * 10) : overThreshold used max = false :=
  decide_eq_false h

theorem bpCheck_over {used max : Nat} (ho : overThreshold used max = true) (s : State) :
    bpCheck c used max s = (.over, closeValve c s) :=
  if_pos ho

theorem bpCheck_under {used max : Nat} (ho : overThreshold used max = false) (s : State) :
    bpCheck c used max s = (.under, s) :=
  if_neg (Bool.eq_false_iff.mp ho)

/-- Settles O26: over the threshold the valve closes, under it nothing is written; the timer opens it again. -/
theorem backpressureValve : Obligations.BackpressureValve := by
  refine ⟨fun used max s => ?check, fun s => ?fire⟩
  case check =>
    have hexec : exec (.bpCheck used max) s = .next ((bpCheck Config.impl used max s).2.withResult
        (.valve (bpCheck Config.impl used max s).1)) := rfl
    rw [hexec]
    split
    case isTrue h => rw [bpCheck_over (overThreshold_eq_true h), closeValve_eq]; rfl
    case isFalse h => rw [bpCheck_under (overThreshold_eq_false h)]; rfl
  case fire =>
    have hexec : exec .timerFire s = .next ((openValve s).withResult .none) := rfl
    rw [hexec, openValve]
    split <;> rfl

/-! ### `RX_READY` over the threshold -/

/-- Over the threshold a notification closes the valve, and its bytes are lost (R163, R164). -/
theorem rxReadyStep_over {bs : Bytes} {used max : Nat} (ho : overThreshold used max = true)
    (hread : bs.length ≤ c.rxScratchCap) (conn : Bool) (s : State) : rxReadyStep c bs used max conn s =
      .next { s with scratch := [], rxIrqEn := false, rxTimerArmed := true, result := .none,
                     trace := s.trace ++ if s.rxTimerArmed then [] else [.timerArm c.rxReenableDelay] } := by
  rw [rxReadyStep, if_pos hread, receive_over ho, closeValve_eq]
  rfl

/-- Settles O28. -/
theorem overThresholdBytesAreLost : Obligations.OverThresholdBytesAreLost := fun _ _ _ conn s hread hover =>
  rxReadyStep_over (c := Config.impl) (overThreshold_eq_true hover) hread conn s

/-! ### The receive enable -/

/-- A notification that completes is within the scratch buffer. -/
theorem rxReadyStep_fits {bs : Bytes} {used max : Nat} (h : rxReadyStep c bs used max conn s = .next t) :
    bs.length ≤ c.rxScratchCap := by
  by_contra hlong
  rw [rxReadyStep_readTooLong used max conn s (Nat.lt_of_not_le hlong)] at h
  cases h

/-- The receive path does not read the receive enable (R161). -/
theorem feedAll_withRxIrqEn (c : Config) (conn : Bool) (bs : Bytes) (s : State) (v : Bool) :
    feedAll c conn bs { s with rxIrqEn := v } = (feedAll c conn bs s).map (fun t => { t with rxIrqEn := v }) := by
  have h := feedAll_withReceived c conn bs { s with rxIrqEn := v } s
  have hself : ({ s with rxIrqEn := v } : State).withReceived s = { s with rxIrqEn := v } := rfl
  rw [hself] at h
  rw [h]
  cases hf : feedAll c conn bs s with
  | error f => rfl
  | ok t =>
    simp only [Except.map]
    rw [feedAll_frame hf]
    rfl

/-- Settles O32: over the threshold the enable is overwritten, under it nothing reads it. -/
theorem receiveIgnoresTheEnable : Obligations.ReceiveIgnoresTheEnable := by
  intro bs used max conn v s t h
  have hread : bs.length ≤ Config.impl.rxScratchCap := rxReadyStep_fits h
  change rxReadyStep Config.impl bs used max conn s = .next t at h
  change rxReadyStep Config.impl bs used max conn { s with rxIrqEn := v } = _
  split
  case isTrue hover =>
    have ho := overThreshold_eq_true hover
    rw [rxReadyStep_over ho hread] at h ⊢
    cases h
    rfl
  case isFalse hunder =>
    have ho := overThreshold_eq_false hunder
    rw [rxReadyStep_under ho hread] at h ⊢
    obtain ⟨u, hu, rfl⟩ := finish_map_eq_next.mp h
    rw [feedAll_withRxIrqEn, hu]
    rfl

/-! ### `RX_READY` under the threshold -/

/-- One byte is received alike whatever the memory numbers under the threshold are: it is the byte's row (R79, R160). -/
theorem rxReadyStep_single {b : Byte} {used max : Nat} (ho : overThreshold used max = false)
    (hread : [b].length ≤ c.rxScratchCap) (conn : Bool) (s : State) :
    rxReadyStep c [b] used max conn s = wireStep c [b] conn s := by
  have hsame : receive c [b] used max conn s = receive c [b] 0 1 conn s := by
    rw [receive_under ho, receive_under rfl]
  rw [rxReadyStep, if_pos hread, hsame, wireStep, receiveEach]
  cases receive c [b] 0 1 conn s <;> rfl

/-- Settles O29: the bytes go through the receive path, which writes ParserState and the trace. -/
theorem underThresholdReceiveCompletes : Obligations.UnderThresholdReceiveCompletes := by
  intro bs used max conn s h hread hunder
  have ho : overThreshold used max = false := overThreshold_eq_false (Nat.not_le_of_lt hunder)
  obtain ⟨t, ht, hrx, new, htrace, hquiet⟩ := feedAll_ok conn bs h
  have hstep : rxReadyStep Config.impl bs used max conn s = .next (t.dropScratch.withResult .none) := by
    rw [rxReadyStep_under ho hread, ht]
    rfl
  refine ⟨_, new, hstep, hrx.congr rfl rfl rfl, ?frame, hquiet, ?nothing, ?byte⟩
  case frame =>
    rw [← htrace, feedAll_frame ht]
    rfl
  case nothing =>
    rintro rfl
    cases ht
    rfl
  case byte =>
    rintro b rfl
    exact (rxReadyStep_single ho hread conn s).trans (exec_byteInstr conn b s).symm

/-- A burst of wire frames with bodies that fit, from mode `WAIT`: each body is an answer, in order, and the decoder is
as it was but for `fbuf` (R103, R107). -/
theorem driveAll_burst {bodies : List Bytes} (hm : s.decMode = .wait) (h0 : s.flen = 0)
    (hfit : ∀ F ∈ bodies, 3 ≤ F.length ∧ F.length ≤ c.rxFrameCap) :
    ∃ m, driveAll c (bodies.flatMap wireOfBody) s = .ok (bodies.map .frame, { s with fbuf := m }) := by
  induction bodies generalizing s with
  | nil => exact ⟨s.fbuf, rfl⟩
  | cons F bodies ih =>
    obtain ⟨⟨hmin, hfits⟩, hrest⟩ := List.forall_mem_cons.mp hfit
    obtain ⟨m, hbodies⟩ := ih (s := { s with fbuf := Memory.store s.fbuf 0 F }) hm h0 hrest
    exact ⟨m, driveAll_append_ok (driveAll_whole hm h0 hmin hfits) hbodies⟩

/-- Under the threshold a notification is the decoder over its bytes, with the effects of its answers (R160, R167). -/
theorem rxReadyStep_of_driveAll {bs : Bytes} {used max : Nat} {rs : List DecodeResult}
    (ho : overThreshold used max = false) (hread : bs.length ≤ c.rxScratchCap) (conn : Bool)
    (h : driveAll c bs s = .ok (rs, t)) : rxReadyStep c bs used max conn s = .next { t with
      scratch := [], result := .none, trace := t.trace ++ rs.flatMap (answerEffects c conn) } := by
  rw [rxReadyStep_under ho hread, feedAll_of_driveAll conn h]
  rfl

/-- Settles O30: the decoder's answers to the burst are its bodies, and each is parsed and routed. -/
theorem burstOfFramesIsRoutedInOrder : Obligations.BurstOfFramesIsRoutedInOrder := by
  refine ⟨fun _ _ _ _ _ => rfl, fun c bodies used max conn s hm h0 hunder hfit hread => ?_⟩
  have ho : overThreshold used max = false := overThreshold_eq_false (Nat.not_le_of_lt hunder)
  obtain ⟨m, hdrive⟩ := driveAll_burst hm h0 hfit
  refine ⟨_, rxReadyStep_of_driveAll ho hread conn hdrive, ?trace, hm, h0, ⟨rfl, rfl, rfl, rfl⟩,
    ⟨rfl, rfl, rfl, rfl, rfl⟩, rfl, rfl⟩
  simp only [List.flatMap_map, answerEffects]

end Sys2Proof.Machine
end

section
/-! SUPPORT. The control commands (45_control_dispatch.md): a command received is delivered whole (R171, R190), and what
the dispatcher makes of a list of delivered payloads (R194, R199, R202). -/

namespace Sys2Proof.Machine

variable {c : Config} {s : State}

/-! ### A command received -/

/-- A control row routes a valid CONTROL packet with the whole payload, and the dispatcher handles it (R171, R190). -/
theorem commandStep_ok (o : CtrlOp) {args : Bytes} (st : BleStatus) (s : State) (h : args.length + 1 ≤ 65535) :
    commandStep c o args st s =
      .next ((({ s with trace := s.trace ++ [.ctrlDeliver (c.ctrlOpcode o :: args)] } : State).handOver c st
        (c.ctrlOpcode o :: args)).withResult (.dispatched (dispatch c st (c.ctrlOpcode o :: args)))) := by
  have hfit : argsFit args = true := decide_eq_true h
  have hparsed : parseBody c (bodyOf c (c.typeByte .control) (c.ctrlOpcode o :: args)) =
      .ok (c.typeByte .control) (c.ctrlOpcode o :: args) .control := by
    rw [parseBody_bodyOf c _ (p := c.ctrlOpcode o :: args) h, classifyByte_typeByte]
    rfl
  simp only [commandStep, hfit, if_true, hparsed, route_eq, routeEffects]

/-- Settles O45: the payload is delivered, and the dispatcher writes the script and its own record only. -/
theorem controlCommandDelivered : Obligations.ControlCommandDelivered := by
  intro o args st s h
  obtain ⟨script, hs⟩ := State.handOver_eq Config.impl
    { s with trace := s.trace ++ [.ctrlDeliver (Config.impl.ctrlOpcode o :: args)] } st
    (Config.impl.ctrlOpcode o :: args)
  refine ⟨dispatch Config.impl st (Config.impl.ctrlOpcode o :: args), script, ?_⟩
  rw [exec_commandInstr, commandStep_ok o st s h, hs]
  rfl

/-! ### What the dispatcher makes of a payload -/

/-- A byte that is no opcode's stands for none (R199). -/
theorem ctrlOpOf_unassigned {b : Byte} (h : ∀ o, b ≠ c.ctrlOpcode o) : ctrlOpOf c b = none :=
  List.find?_eq_none.mpr fun o _ ho => h o (of_decide_eq_true ho).symm

/-- An unassigned opcode and an empty payload are no-ops (R199; U9). -/
theorem dispatch_unassigned (status : BleStatus) {p : Bytes} (h : ∀ b args, p = b :: args → ∀ o, b ≠ c.ctrlOpcode o) :
    dispatch c status p = .noOp := by
  cases p with
  | nil => rfl
  | cons b args => simp only [dispatch, ctrlOpOf_unassigned (h b args rfl)]

theorem dispatch_chipReset (status : BleStatus) (args : Bytes) :
    dispatch c status (c.ctrlOpcode .chipReset :: args) = .chipReset := by
  simp only [dispatch, ctrlOpOf_ctrlOpcode, handle]

/-! ### The payloads in their order -/

/-- CHIP_RESET is the last payload handled (R194). -/
theorem handOverAll_cons_chipReset {conn : Bool} {p : Bytes} (ps : List Bytes)
    (h : dispatch c (statusAt c conn s.occasion) p = .chipReset) :
    handOverAll c conn (p :: ps) s = s.handOver c (statusAt c conn s.occasion) p :=
  if_pos h

/-- Behind any other action the next payload is handled (R190). -/
theorem handOverAll_cons_other {conn : Bool} {p : Bytes} (ps : List Bytes)
    (h : dispatch c (statusAt c conn s.occasion) p ≠ .chipReset) :
    handOverAll c conn (p :: ps) s = handOverAll c conn ps (s.handOver c (statusAt c conn s.occasion) p) :=
  if_neg h

/-- Every payload handled adds its action to the record and counts one occasion; only CHIP_RESET leaves payloads
unhandled (R190, R194, R202). -/
theorem handOverAll_record (c : Config) (conn : Bool) (ps : List Bytes) (s : State) :
    ∃ (script : List Code) (done : List DispatchAction),
      done.length ≤ ps.length ∧ (DispatchAction.chipReset ∉ done → done.length = ps.length) ∧
      handOverAll c conn ps s =
        { s with script := script, actions := s.actions ++ done, occasion := s.occasion + done.length } := by
  induction ps generalizing s with
  | nil => exact ⟨s.script, [], le_rfl, fun _ => rfl, by simp⟩
  | cons p ps ih =>
    obtain ⟨script, hone⟩ := s.handOver_eq c (statusAt c conn s.occasion) p
    by_cases hreset : dispatch c (statusAt c conn s.occasion) p = .chipReset
    case pos =>
      rw [handOverAll_cons_chipReset ps hreset, hone, hreset]
      exact ⟨script, [.chipReset], by simp, by simp, rfl⟩
    case neg =>
      rw [handOverAll_cons_other ps hreset]
      obtain ⟨script', done, hle, hall, hrest⟩ := ih (s.handOver c (statusAt c conn s.occasion) p)
      refine ⟨script', dispatch c (statusAt c conn s.occasion) p :: done, Nat.succ_le_succ hle, fun hnot => ?_, ?_⟩
      · exact congrArg Nat.succ (hall fun hmem => hnot (List.mem_cons_of_mem _ hmem))
      · rw [hrest, hone]
        simp only [List.append_assoc, List.singleton_append, List.length_cons, Nat.add_assoc, Nat.add_comm 1]

/-- A payload without an action is recorded, and nothing comes back from it (R199). -/
theorem handOver_noOp {status : BleStatus} {p : Bytes} (h : dispatch c status p = .noOp) (s : State) :
    s.handOver c status p = { s with actions := s.actions ++ [.noOp], occasion := s.occasion + 1 } := by
  simp only [State.handOver, h, State.afterAction]

/-- After CHIP_RESET the next operation is `RESET` (R194). -/
theorem handOver_chipReset {status : BleStatus} {p : Bytes} (h : dispatch c status p = .chipReset) (s : State) :
    s.handOver c status p = { s with
      script := .line .RESET :: s.script, actions := s.actions ++ [.chipReset], occasion := s.occasion + 1 } := by
  simp only [State.handOver, h, State.afterAction]

theorem handOverAll_unassigned {conn : Bool} {p : Bytes} (ps : List Bytes) (s : State)
    (h : ∀ b args, p = b :: args → ∀ o, b ≠ c.ctrlOpcode o) : handOverAll c conn (p :: ps) s =
      handOverAll c conn ps { s with actions := s.actions ++ [.noOp], occasion := s.occasion + 1 } := by
  have hnoOp := dispatch_unassigned (statusAt c conn s.occasion) h
  rw [handOverAll_cons_other ps (by rw [hnoOp]; exact nofun), handOver_noOp hnoOp]

theorem handOverAll_chipReset (c : Config) (conn : Bool) (args : Bytes) (ps : List Bytes) (s : State) :
    handOverAll c conn ((c.ctrlOpcode .chipReset :: args) :: ps) s = { s with
      script := .line .RESET :: s.script, actions := s.actions ++ [.chipReset], occasion := s.occasion + 1 } := by
  have hreset := dispatch_chipReset (c := c) (statusAt c conn s.occasion) args
  rw [handOverAll_cons_chipReset ps hreset, handOver_chipReset hreset]

end Sys2Proof.Machine
end

section
/-! SUPPORT. What the operations outside the receive side do to the trace and the timer (R28, R30): they transmit or
report, and arm and deliver nothing. -/

namespace Sys2Proof.Machine

variable {c : Config} {i : Instr} {s t u : State}

/-! ### Transmissions and reports -/

/-- Whether an effect is a transmission or a report. -/
def Effect.isOutbound : Effect → Bool
  | .uartTx _ | .uartTxBlocking _ | .diag _ => true
  | .timerArm _ | .bleDeliver _ _ _ | .ctrlDeliver _ => false

theorem Effect.isTimerArm_of_isOutbound {e : Effect} (h : e.isOutbound = true) : e.isTimerArm = false := by
  cases e with
  | timerArm delay => cases h
  | _ => rfl

/-- The timer stays as it is, and what is appended to the trace are transmissions and reports. -/
def OutboundOnly (s t : State) : Prop :=
  t.rxTimerArmed = s.rxTimerArmed ∧ ∃ new : List Effect, t.trace = s.trace ++ new ∧ ∀ e ∈ new, e.isOutbound = true

theorem OutboundOnly.silent (htimer : t.rxTimerArmed = s.rxTimerArmed) (htrace : t.trace = s.trace) :
    OutboundOnly s t :=
  ⟨htimer, [], by simp [htrace], nofun⟩

theorem OutboundOnly.trans (h : OutboundOnly s t) (h' : OutboundOnly t u) : OutboundOnly s u := by
  obtain ⟨htimer, new, htrace, hout⟩ := h
  obtain ⟨htimer', new', htrace', hout'⟩ := h'
  refine ⟨htimer'.trans htimer, new ++ new', by rw [htrace', htrace, List.append_assoc], fun e he => ?_⟩
  exact (List.mem_append.mp he).elim (hout e) (hout' e)

/-- The result is no part of it. -/
theorem OutboundOnly.withResult (h : OutboundOnly s t) (r : OpResult) : OutboundOnly s (t.withResult r) := h

/-! ### The transmitter -/

theorem dropReports_outbound (es : List ErrorOutcome) : ∀ e ∈ dropReports es, e.isOutbound = true := by
  intro e he
  obtain ⟨o, -, rfl⟩ := List.mem_map.mp he
  rfl

/-- A free transmitter appends its reports and at most one transmission (R146, R149). -/
theorem Submission.outbound (h : Submission c s.trace t) (htimer : t.rxTimerArmed = s.rxTimerArmed) :
    OutboundOnly s t := by
  cases h with
  | nothing es hready htrace => exact ⟨htimer, _, htrace, dropReports_outbound es⟩
  | sent es W hframes hbusy htrace =>
    refine ⟨htimer, _, htrace.trans (List.append_assoc ..), fun e he => ?_⟩
    rcases List.mem_append.mp he with he | he
    · exact dropReports_outbound es e he
    · rw [List.mem_singleton.mp he]; rfl

/-- The transmit side leaves the timer alone (R28). -/
theorem TransmitFrame.rxTimerArmed (h : TransmitFrame s t) : t.rxTimerArmed = s.rxTimerArmed := by
  obtain ⟨⟨-, -, -, -, -, htimer⟩, -⟩ := h
  exact htimer

theorem SubmitsIfReady.outbound (h : SubmitsIfReady c s t) (hframe : TransmitFrame s t) : OutboundOnly s t := by
  rcases h with ⟨-, -, htrace⟩ | ⟨-, hsub⟩
  · exact .silent hframe.rxTimerArmed htrace
  · exact hsub.outbound hframe.rxTimerArmed

theorem sendStep_outbound {type : Byte} {p : Bytes} (h : sendStep c type p s = .next t) : OutboundOnly s t :=
  (sendStep_submits h).outbound (sendStep_transmitFrame h)

theorem drainStep_outbound (h : drainStep c s = .next t) : OutboundOnly s t :=
  (drainStep_submits h).outbound (drainStep_transmitFrame h)

theorem txCompleteStep_outbound (h : txCompleteStep c s = .next t) : OutboundOnly s t :=
  (txCompleteStep_submits h).outbound (txCompleteStep_transmitFrame h).rxTimerArmed

/-! ### `ENCODE` by itself -/

theorem setTxBuffer_outbound (s : State) (B : Buffer) : OutboundOnly s (s.setTxBuffer B) := .silent rfl rfl

theorem encodeResult_outbound {space : Space} {r : EncodeResult} {B : Buffer} (h : encodeResult space r B s = .next t) :
    OutboundOnly s t := by
  unfold encodeResult at h
  split at h
  · cases h; exact .silent rfl rfl
  · cases h

theorem encodeStep_outbound {d : EncodeDest} {type : Byte} {p : Bytes} (h : encodeStep c d type p s = .next t) :
    OutboundOnly s t := by
  unfold encodeStep at h
  split at h
  · cases d with
    | txbuf =>
      simp only at h
      split at h
      · cases h
      · exact (setTxBuffer_outbound s _).trans (encodeResult_outbound h)
    | given content cap =>
      simp only at h
      split at h
      · exact encodeResult_outbound h
      · cases h
  · cases h

/-! ### The blocking exchange -/

/-- A polling iteration reports, and delivers nothing (R247 point (f)). -/
theorem polledEffects_outbound (c : Config) (r : DecodeResult) : ∀ e ∈ polledEffects c r, e.isOutbound = true := by
  cases r with
  | needMore => exact nofun
  | overflow => exact List.forall_mem_singleton.mpr rfl
  | frame F =>
    simp only [polledEffects]
    cases parseBody c F with
    | crcFail type p => exact List.forall_mem_singleton.mpr rfl
    | garbage => exact nofun
    | ok type p k => exact nofun

theorem onPolled_outbound (r : DecodeResult) : OutboundOnly s (onPolled c r s) := by
  rw [onPolled_eq]
  exact ⟨rfl, _, rfl, polledEffects_outbound c r⟩

theorem decodeByte_outbound {b : Byte} {r : ByteResult} (h : decodeByte c b s = .ok (r, t)) : OutboundOnly s t := by
  rw [decodeByte_frame h]
  exact .silent rfl rfl

theorem pollAll_outbound {expect : Byte} {bs : Bytes} {p : Option Bytes} (h : pollAll c expect bs s = .ok (p, t)) :
    OutboundOnly s t := by
  induction bs generalizing s with
  | nil => cases h; exact .silent rfl rfl
  | cons b rest ih =>
    simp only [pollAll] at h
    cases hb : decodeByte c b s with
    | error f => rw [hb] at h; cases h
    | ok x =>
      have hu := decodeByte_outbound hb
      rw [hb] at h
      simp only at h
      split at h
      · exact hu.trans (ih h)
      · split at h
        · cases h; exact hu
        · exact (hu.trans (onPolled_outbound _)).trans (ih h)

theorem pollRead_outbound {expect : Byte} {bs : Bytes} {p : Option Bytes} (h : pollRead c expect bs s = .ok (p, t)) :
    OutboundOnly s t := by
  rw [pollRead_eq] at h
  cases hp : pollAll c expect bs s with
  | error f => rw [hp] at h; cases h
  | ok x =>
    rw [hp] at h
    cases h
    exact (pollAll_outbound hp).trans (.silent rfl rfl)

theorem pollReads_outbound {expect : Byte} {reads : List Bytes} {p : Option Bytes}
    (h : pollReads c expect reads s = .ok (p, t)) : OutboundOnly s t := by
  induction reads generalizing s with
  | nil => cases h; exact .silent rfl rfl
  | cons bs rest ih =>
    simp only [pollReads] at h
    split at h
    · cases h
    · rename_i hr
      cases h
      exact pollRead_outbound hr
    · rename_i hr
      exact (pollRead_outbound hr).trans (ih h)

theorem pollExchange_outbound {x : Exchange} {reads : List Bytes} (h : pollExchange c x reads s = .ok t) :
    OutboundOnly s t := by
  unfold pollExchange at h
  split at h
  · cases h
  · rename_i hp
    cases h
    exact (pollReads_outbound hp).trans (.silent rfl rfl)
  · rename_i hp
    cases h
    exact (pollReads_outbound hp).trans (.silent rfl rfl)

/-- The blocking write is a transmission (R247). -/
theorem submitBlocking_outbound (h : submitBlocking s = .ok t) : OutboundOnly s t := by
  unfold submitBlocking at h
  split at h
  · cases h
    exact ⟨rfl, _, rfl, List.forall_mem_singleton.mpr rfl⟩
  · cases h

theorem beginExchange_outbound {x : Exchange} {reads : List Bytes} (h : beginExchange c x reads s = .ok t) :
    OutboundOnly s t := by
  unfold beginExchange at h
  split at h
  · split at h
    · cases h; exact .silent rfl rfl
    · split at h
      · cases h
      · rename_i hwrite
        have hwritten := (setTxBuffer_outbound s _).trans (submitBlocking_outbound hwrite)
        exact hwritten.trans (pollExchange_outbound h)
  · cases h; exact .silent rfl rfl

theorem syncXchgStep_outbound {req : Bytes} {expect : Byte} {reads : List Bytes}
    (h : syncXchgStep c req expect reads s = .next t) : OutboundOnly s t := by
  unfold syncXchgStep at h
  split at h
  · split at h
    · have hok := finish_eq_next.mp h
      split at hok
      · exact pollExchange_outbound hok
      · exact beginExchange_outbound hok
    · cases h
  · cases h

/-! ### The instructions -/

/-- Every operation but those of the receive side and the control rows transmits or reports at most, and leaves the
timer alone; a reset, which disarms it, has no effect (R28, R243). -/
theorem exec_outbound (h : exec i s = .next t) :
    isReceiveSide i = true ∨ (∃ o args st, i = commandInstr o args st) ∨ (i = .reset ∧ t = resetBlock s) ∨
      OutboundOnly s t := by
  cases i with
  | delim conn | esc conn | lit b conn | escPair7E conn | escPair7D conn | escPair02 conn | escPairAny x conn
  | wireFrame body conn | frameBody type len p crc conn | route pkt conn | rxReady bs used max conn | timerFire
  | bpCheck used max | decodeByte b | decode input => exact .inl rfl
  | typeAck use | typeNak use | typeBleData use | typeControl use | typePing use | typeOther type use =>
    cases use with
    | receive p conn => exact .inl rfl
    | transmit p => exact .inr (.inr (.inr (sendStep_outbound h)))
  | ctrlDeviceName args st => exact .inr (.inl ⟨.deviceName, args, st, rfl⟩)
  | ctrlBondDbGet args st => exact .inr (.inl ⟨.bondDbGet, args, st, rfl⟩)
  | ctrlBondDbSet args st => exact .inr (.inl ⟨.bondDbSet, args, st, rfl⟩)
  | ctrlPairingCode args st => exact .inr (.inl ⟨.pairingCode, args, st, rfl⟩)
  | ctrlBleStatus args st => exact .inr (.inl ⟨.bleStatus, args, st, rfl⟩)
  | ctrlIrk args st => exact .inr (.inl ⟨.irk, args, st, rfl⟩)
  | ctrlProductString args st => exact .inr (.inl ⟨.productString, args, st, rfl⟩)
  | ctrlChipReset args st => exact .inr (.inl ⟨.chipReset, args, st, rfl⟩)
  | ctrlIdentityAddress args st => exact .inr (.inl ⟨.identityAddress, args, st, rfl⟩)
  | ctrlPairingSuccessful args st => exact .inr (.inl ⟨.pairingSuccessful, args, st, rfl⟩)
  | ctrlTkConfirm args st => exact .inr (.inl ⟨.tkConfirm, args, st, rfl⟩)
  | ctrlBleEnabled args st => exact .inr (.inl ⟨.bleEnabled, args, st, rfl⟩)
  | ctrlTxPower args st => exact .inr (.inl ⟨.txPower, args, st, rfl⟩)
  | ctrlDebugString args st => exact .inr (.inl ⟨.debugString, args, st, rfl⟩)
  | reset => cases h; exact .inr (.inr (.inl ⟨rfl, rfl⟩))
  | send type p => exact .inr (.inr (.inr (sendStep_outbound h)))
  | drain => exact .inr (.inr (.inr (drainStep_outbound h)))
  | txComplete => exact .inr (.inr (.inr (txCompleteStep_outbound h)))
  | encode dest type p => exact .inr (.inr (.inr (encodeStep_outbound h)))
  | syncXchg req expect reads => exact .inr (.inr (.inr (syncXchgStep_outbound h)))
  | start | escape b | crc16 bs | parse body | classify type => cases h; exact .inr (.inr (.inr (.silent rfl rfl)))

end Sys2Proof.Machine
end

section
/-! SUPPORT. The timer (R163, R166, R175 (b), R259): armed only when it is not, and disarmed by its firing and by a
reset alone. -/

namespace Sys2Proof.Machine

variable {c : Config} {conn : Bool} {i : Instr} {s t u : State}

/-! ### What an operation does to the timer -/

/-- What any operation but `TIMER_FIRE` and `RESET` does to the timer: it leaves it as it is, or arms it once, the timer
not being armed (R163). -/
inductive TimerStep (s t : State) : Prop
  | kept (new : List Effect) (htimer : t.rxTimerArmed = s.rxTimerArmed) (htrace : t.trace = s.trace ++ new)
      (hcount : new.countP Effect.isTimerArm = 0)
  | armed (new : List Effect) (hbefore : s.rxTimerArmed = false) (hafter : t.rxTimerArmed = true)
      (htrace : t.trace = s.trace ++ new) (hcount : new.countP Effect.isTimerArm = 1)

theorem TimerStep.silent (htimer : t.rxTimerArmed = s.rxTimerArmed) (htrace : t.trace = s.trace) : TimerStep s t :=
  .kept [] htimer (by simp [htrace]) rfl

theorem TimerStep.of_quiet (htimer : t.rxTimerArmed = s.rxTimerArmed) (h : AppendsQuietly s t) : TimerStep s t := by
  obtain ⟨new, htrace, hquiet⟩ := h
  exact .kept new htimer htrace (List.countP_eq_zero.mpr fun e he => Bool.eq_false_iff.mp (hquiet e he).2)

theorem OutboundOnly.timerStep (h : OutboundOnly s t) : TimerStep s t := by
  obtain ⟨htimer, new, htrace, hout⟩ := h
  exact .kept new htimer htrace
    (List.countP_eq_zero.mpr fun e he => Bool.eq_false_iff.mp (Effect.isTimerArm_of_isOutbound (hout e he)))

/-- Of two operations one after the other at most one arms the timer: after the first it is armed already. -/
theorem TimerStep.trans (h : TimerStep s t) (h' : TimerStep t u) : TimerStep s u := by
  have hjoin {new new' : List Effect} (htrace : t.trace = s.trace ++ new) (htrace' : u.trace = t.trace ++ new') :
      u.trace = s.trace ++ (new ++ new') := by rw [htrace', htrace, List.append_assoc]
  cases h with
  | kept new htimer htrace hcount =>
    cases h' with
    | kept new' htimer' htrace' hcount' =>
      exact .kept _ (htimer'.trans htimer) (hjoin htrace htrace') (by rw [List.countP_append, hcount, hcount'])
    | armed new' hbefore hafter htrace' hcount' =>
      exact .armed _ (htimer.symm.trans hbefore) hafter (hjoin htrace htrace')
        (by rw [List.countP_append, hcount, hcount'])
  | armed new hbefore hafter htrace hcount =>
    cases h' with
    | kept new' htimer' htrace' hcount' =>
      exact .armed _ hbefore (htimer'.trans hafter) (hjoin htrace htrace')
        (by rw [List.countP_append, hcount, hcount'])
    | armed new' hbefore' => cases hafter.symm.trans hbefore'

/-- The result is no part of it. -/
theorem TimerStep.withResult (h : TimerStep s t) (r : OpResult) : TimerStep s (t.withResult r) := by
  cases h with
  | kept new htimer htrace hcount => exact .kept new htimer htrace hcount
  | armed new hbefore hafter htrace hcount => exact .armed new hbefore hafter htrace hcount

/-! ### The receive side -/

/-- Closing the valve arms the timer unless it is armed (R163). -/
theorem closeValve_timerStep (c : Config) (s : State) : TimerStep s (closeValve c s) := by
  rw [closeValve_eq]
  cases h : s.rxTimerArmed with
  | true => exact .kept [] h.symm rfl rfl
  | false => exact .armed [.timerArm c.rxReenableDelay] h rfl rfl rfl

theorem bpCheck_timerStep (used max : Nat) : TimerStep s (bpCheck c used max s).2 := by
  rcases bpCheck_state c used max s with h | h <;> rw [h]
  · exact closeValve_timerStep c s
  · exact .silent rfl rfl

theorem openValve_rxTimerArmed (s : State) : (openValve s).rxTimerArmed = false := by
  unfold openValve
  split
  case isTrue => rfl
  case isFalse h => exact Bool.eq_false_iff.mpr h

theorem openValve_trace (s : State) : (openValve s).trace = s.trace := by
  unfold openValve
  split <;> rfl

theorem route_timerStep (pkt : Packet) : TimerStep s (route c pkt conn s) :=
  .of_quiet (by rw [route_eq]) (route_appendsQuietly pkt)

/-- Only a notification over the threshold reaches the timer (R160). -/
theorem receive_timerStep {bs : Bytes} {used max : Nat} (h : receive c bs used max conn s = .ok t) : TimerStep s t := by
  cases ho : overThreshold used max with
  | true =>
    rw [receive_over ho] at h
    cases h
    exact (closeValve_timerStep c s).trans (.silent rfl rfl)
  | false =>
    rw [receive_under ho] at h
    cases hf : feedAll c conn bs s with
    | error f => rw [hf] at h; cases h
    | ok u =>
      rw [hf] at h
      cases h
      have hu : TimerStep s u := .of_quiet (by rw [feedAll_frame hf]; rfl) (feedAll_appendsQuietly hf)
      exact hu.trans (.silent rfl rfl)

theorem receiveEach_timerStep {bs : Bytes} (h : receiveEach c conn bs s = .ok t) : TimerStep s t := by
  induction bs generalizing s with
  | nil => cases h; exact .silent rfl rfl
  | cons b rest ih =>
    simp only [receiveEach] at h
    split at h
    · cases h
    · rename_i hb
      exact (receive_timerStep hb).trans (ih h)

theorem wireStep_timerStep {bs : Bytes} (h : wireStep c bs conn s = .next t) : TimerStep s t := by
  obtain ⟨u, hu, rfl⟩ := finish_map_eq_next.mp h
  exact (receiveEach_timerStep hu).withResult _

theorem rxReadyStep_timerStep {bs : Bytes} {used max : Nat} (h : rxReadyStep c bs used max conn s = .next t) :
    TimerStep s t := by
  rw [rxReadyStep, if_pos (rxReadyStep_fits h)] at h
  obtain ⟨u, hu, rfl⟩ := finish_map_eq_next.mp h
  exact (receive_timerStep hu).withResult _

theorem typeStep_receive_timerStep {type : Byte} {p : Bytes} (h : typeStep c type (.receive p conn) s = .next t) :
    TimerStep s t := by
  simp only [typeStep] at h
  split at h
  · cases h
    exact (route_timerStep _).withResult _
  · cases h

/-- `DECODE_BYTE` and `DECODE` write ParserState only. -/
theorem decodeByteStep_outbound {b : Byte} (h : decodeByteStep c b s = .next t) : OutboundOnly s t := by
  obtain ⟨r, u, hu, rfl⟩ := decodeByteStep_eq_next.mp h
  rw [decodeByte_frame hu]
  exact .silent rfl rfl

theorem decodeStep_outbound {input : Bytes} (h : decodeStep c input s = .next t) : OutboundOnly s t := by
  obtain ⟨r, n, u, hu, rfl⟩ := decodeStep_eq_next.mp h
  rw [decodeBytes_frame hu]
  exact .silent rfl rfl

theorem commandStep_timerStep {o : CtrlOp} {args : Bytes} {st : BleStatus}
    (h : commandStep c o args st s = .next t) : TimerStep s t := by
  by_cases hfit : args.length + 1 ≤ 65535
  case neg =>
    rw [commandStep_payloadTooLong o st s (Nat.lt_of_not_le hfit)] at h
    cases h
  rw [commandStep_ok o st s hfit] at h
  obtain ⟨script, hs⟩ := State.handOver_eq c
    { s with trace := s.trace ++ [.ctrlDeliver (c.ctrlOpcode o :: args)] } st (c.ctrlOpcode o :: args)
  rw [hs] at h
  cases h
  exact .kept [.ctrlDeliver (c.ctrlOpcode o :: args)] rfl rfl rfl

/-- Every operation of the receive side arms the timer at most once and unarmed, but the timer's own firing. -/
theorem exec_receiveSide_timerStep (hi : isReceiveSide i = true) (hfire : i ≠ .timerFire) (h : exec i s = .next t) :
    TimerStep s t := by
  cases i with
  | timerFire => exact absurd rfl hfire
  | delim conn | esc conn | lit b conn | escPair7E conn | escPair7D conn | escPair02 conn | escPairAny x conn
  | wireFrame body conn => exact wireStep_timerStep h
  | rxReady bs used max conn => exact rxReadyStep_timerStep h
  | frameBody type len p crc conn => cases h; exact (route_timerStep _).withResult _
  | route pkt conn => cases h; exact (route_timerStep _).withResult _
  | bpCheck used max => cases h; exact (bpCheck_timerStep used max).withResult _
  | decodeByte b => exact (decodeByteStep_outbound h).timerStep
  | decode input => exact (decodeStep_outbound h).timerStep
  | typeAck use | typeNak use | typeBleData use | typeControl use | typePing use | typeOther type use =>
    cases use with
    | transmit p => cases hi
    | receive p conn => exact typeStep_receive_timerStep h
  | _ => cases hi

/-! ### Every operation -/

theorem exec_timerStep (hfire : i ≠ .timerFire) (hreset : i ≠ .reset) (h : exec i s = .next t) : TimerStep s t := by
  obtain hrx | ⟨o, args, st, rfl⟩ | ⟨hr, -⟩ | hout := exec_outbound h
  · exact exec_receiveSide_timerStep hrx hfire h
  · exact commandStep_timerStep ((exec_commandInstr o args st s).symm.trans h)
  · exact absurd hr hreset
  · exact hout.timerStep

/-- `TIMER_FIRE` and `RESET` leave the timer unarmed and have no effect (R166, R240, R243). -/
theorem exec_disarms (hi : i = .timerFire ∨ i = .reset) (h : exec i s = .next t) :
    t.rxTimerArmed = false ∧ t.trace = s.trace := by
  obtain rfl | rfl := hi
  · cases h
    exact ⟨openValve_rxTimerArmed s, openValve_trace s⟩
  · cases h
    exact ⟨rfl, rfl⟩

/-- Operations without a firing and a reset among them are one step of the timer. -/
theorem execAll_timerStep {ops : List Instr} (hfire : Instr.timerFire ∉ ops) (hreset : Instr.reset ∉ ops)
    (h : execAll ops s = .next t) : TimerStep s t := by
  induction ops generalizing s with
  | nil => cases h; exact .silent rfl rfl
  | cons i ops ih =>
    obtain ⟨hi, hops⟩ := List.ne_and_not_mem_of_not_mem_cons hfire
    obtain ⟨hi', hops'⟩ := List.ne_and_not_mem_of_not_mem_cons hreset
    simp only [execAll] at h
    split at h
    · rename_i hexec
      exact (exec_timerStep hi.symm hi'.symm hexec).trans (ih hops hops' h)
    · cases h
    · cases h

/-- Settles O27: an operation disarms the timer without an effect, or is a step of it, and such steps compose. -/
theorem timerArmedAtMostOnce : Obligations.TimerArmedAtMostOnce := by
  refine ⟨fun i s t h => ?operation, fun ops s t hfire hreset h => ?run⟩
  case operation =>
    by_cases hi : i = .timerFire ∨ i = .reset
    case pos =>
      obtain ⟨hunarmed, htrace⟩ := exec_disarms hi h
      exact ⟨[], by simp [htrace], .inl rfl, fun _ harmed => (nomatch hunarmed.symm.trans harmed), fun _ _ => hi⟩
    case neg =>
      obtain ⟨hfire, hreset⟩ := not_or.mp hi
      cases exec_timerStep hfire hreset h with
      | kept new htimer htrace hcount =>
        exact ⟨new, htrace, .inl hcount, fun _ harmed => htimer.symm.trans harmed,
          fun harmed hunarmed => nomatch harmed.symm.trans (htimer.symm.trans hunarmed)⟩
      | armed new hbefore hafter htrace hcount =>
        exact ⟨new, htrace, .inr ⟨hcount, hbefore, hafter⟩, fun hnone => (nomatch hnone.symm.trans hcount),
          fun harmed => nomatch harmed.symm.trans hbefore⟩
  case run =>
    cases execAll_timerStep hfire hreset h with
    | kept new htimer htrace hcount => exact ⟨new, htrace, by omega, fun _ => hcount⟩
    | armed new hbefore hafter htrace hcount =>
      exact ⟨new, htrace, hcount.le, fun harmed => nomatch harmed.symm.trans hbefore⟩

end Sys2Proof.Machine
end

section
/-! SUPPORT. Which operations deliver a CONTROL payload (R171, R190), and that the dispatcher sees each of them. -/

namespace Sys2Proof.Machine

variable {c : Config} {i : Instr} {s t : State}

/-- What is appended to the trace hands nothing to the dispatcher. -/
def DeliversNothing (s t : State) : Prop :=
  ∃ new : List Effect, t.trace = s.trace ++ new ∧ ∀ p, Effect.ctrlDeliver p ∉ new

theorem DeliversNothing.silent (h : t.trace = s.trace) : DeliversNothing s t := ⟨[], by simp [h], nofun⟩

theorem OutboundOnly.deliversNothing (h : OutboundOnly s t) : DeliversNothing s t := by
  obtain ⟨-, new, htrace, hout⟩ := h
  exact ⟨new, htrace, fun p hp => nomatch hout _ hp⟩

theorem bpCheck_deliversNothing (used max : Nat) : DeliversNothing s (bpCheck c used max s).2 := by
  rcases bpCheck_state c used max s with h | h <;> rw [h]
  · rw [closeValve_eq]
    exact ⟨_, rfl, fun p => by cases s.rxTimerArmed <;> simp⟩
  · exact .silent rfl

/-- An operation of the receive side delivers under its connection flag, or delivers nothing. -/
theorem exec_receiveSide_delivery (hi : isReceiveSide i = true) (h : exec i s = .next t) :
    (∃ conn, deliversUnder i = some conn) ∨ DeliversNothing s t := by
  cases i with
  | delim conn | esc conn | lit b conn | escPair7E conn | escPair7D conn | escPair02 conn | escPairAny x conn
  | wireFrame body conn | frameBody type len p crc conn | route pkt conn | rxReady bs used max conn =>
    exact .inl ⟨conn, rfl⟩
  | typeAck use | typeNak use | typeBleData use | typeControl use | typePing use | typeOther type use =>
    cases use with
    | transmit p => cases hi
    | receive p conn => exact .inl ⟨conn, rfl⟩
  | timerFire => cases h; exact .inr (.silent (openValve_trace s))
  | bpCheck used max => cases h; exact .inr (bpCheck_deliversNothing used max)
  | decodeByte b => exact .inr (decodeByteStep_outbound h).deliversNothing
  | decode input => exact .inr (decodeStep_outbound h).deliversNothing
  | _ => cases hi

/-- Only the rows through which a frame reaches the router and the control rows deliver (R171, R190). -/
theorem exec_delivery (h : exec i s = .next t) :
    (∃ conn, deliversUnder i = some conn) ∨ (∃ o args st, i = commandInstr o args st) ∨ DeliversNothing s t := by
  obtain hrx | hcommand | ⟨-, rfl⟩ | hout := exec_outbound h
  · exact (exec_receiveSide_delivery hrx h).imp_right .inr
  · exact .inr (.inl hcommand)
  · exact .inr (.inr (.silent rfl))
  · exact .inr (.inr hout.deliversNothing)

/-- What an operation has appended to the trace is what the dispatcher observes of it (R190). -/
theorem observed_delivering {conn : Bool} {new : List Effect} (hi : deliversUnder i = some conn)
    (htrace : t.trace = s.trace ++ new) :
    observed c i s t = handOverAll c conn (new.filterMap Effect.delivery) t := by
  simp only [observed, hi, htrace, List.drop_left]

/-- Settles O60: which operations deliver, what is observed of them, and what the dispatcher makes of it. -/
theorem everyDeliveryReachesTheDispatcher : Obligations.EveryDeliveryReachesTheDispatcher := by
  refine ⟨?origin, ?seen, handOverAll_record, fun c conn p ps t h => handOverAll_unassigned ps t h,
    handOverAll_chipReset⟩
  case origin =>
    intro i s t new p h htrace hp
    obtain hrow | hcommand | ⟨new', htrace', hnone⟩ := exec_delivery h
    · exact .inl hrow
    · exact .inr hcommand
    · obtain rfl := List.append_cancel_left (htrace.symm.trans htrace')
      exact absurd hp (hnone p)
  case seen =>
    intro i conn s t new hi h htrace
    rw [h]
    exact congrArg Host.Outcome.next (observed_delivering hi htrace)

end Sys2Proof.Machine
end

section
/-! SUPPORT. What the dispatcher makes of each control command (R192 to R199), and which actions come back into the
script (R191, R194, R202). -/

namespace Sys2Proof.Machine

variable {c : Config} {o : CtrlOp} {args : Bytes} {st : BleStatus} {s t : State}

/-! ### The handlers, by the arguments behind the opcode byte -/

theorem isConnected_eq_decide (st : BleStatus) : isConnected st = decide (st ≠ .advertising) := by
  cases st <;> rfl

/-- The length bound counts the whole payload (R192). -/
theorem handle_deviceName (b : Byte) (args : Bytes) : handle c st .deviceName (b :: args) =
    if args.length + 1 ≤ c.nameBound then .updateDeviceName args (args.take c.advNameCap) else .noOp := rfl

/-- Only an existing connection has the product string indicated (R193). -/
theorem handle_productString (p : Bytes) :
    handle c st .productString p = if st = .advertising then .noOp else .indicateProductString := by
  cases st <;> rfl

/-- The key and one byte more stand behind the opcode byte (R195). -/
theorem handle_tkConfirm (b : Byte) (args : Bytes) : handle c st .tkConfirm (b :: args) =
    if args.length = c.keyLen + 1 then .forwardTkConfirm args else .noOp := by
  simp only [handle, List.length_cons, Nat.add_right_cancel_iff, List.drop_succ_cons, List.drop_zero]

/-- A status request has no arguments (R196). -/
theorem handle_bleStatus_nil (b : Byte) :
    handle c st .bleStatus [b] = .replyStatus ((c.statusReply st).take maxPayload) := rfl

theorem handle_bleStatus_of_ne_nil (b : Byte) (h : args ≠ []) : handle c st .bleStatus (b :: args) = .noOp := by
  have hlength : (b :: args).length ≠ 1 := fun h1 => h (List.length_eq_zero_iff.mp (Nat.succ.inj h1))
  exact if_neg hlength

/-- The length test and the test of the argument byte say that the argument is the one byte 0 (R197). -/
theorem length_two_and_argument_zero_iff (b : Byte) (args : Bytes) :
    ((b :: args).length = 2 ∧ byteAt (b :: args) 1 = 0) ↔ args = [0] := by
  match args with
  | [] => simp
  | [x] => simp [byteAt]
  | x :: y :: rest => simp

theorem handle_bleEnabled (b : Byte) (args : Bytes) : handle c st .bleEnabled (b :: args) =
    if args = [0] then .beginShutdown (decide (st ≠ .advertising)) else .noOp := by
  simp only [handle, length_two_and_argument_zero_iff, isConnected_eq_decide]

/-- The level is the first argument byte (R198). -/
theorem handle_txPower_cons (b l : Byte) (rest : Bytes) : handle c st .txPower (b :: l :: rest) =
    if 1 ≤ l.toNat ∧ l.toNat ≤ 12 then .applyTxPower l else .noOp := by
  have hlength : 2 ≤ (b :: l :: rest).length := Nat.le_add_left 2 rest.length
  have hlevel : byteAt (b :: l :: rest) 1 = l := rfl
  simp only [handle, hlength, hlevel, true_and]

theorem handle_txPower_nil (b : Byte) : handle c st .txPower [b] = .noOp := rfl

/-! ### What comes back -/

/-- Whether an action puts something into the script: a `RESET` (R194) or a reply (R191). -/
def DispatchAction.comesBack : DispatchAction → Bool
  | .chipReset | .replyStatus _ => true
  | .noOp | .updateDeviceName _ _ | .indicateProductString | .forwardTkConfirm _ | .beginShutdown _
  | .applyTxPower _ => false

theorem afterAction_of_not_comesBack {a : DispatchAction} (h : a.comesBack = false) (s : State) :
    s.afterAction c a = s := by
  cases a with
  | chipReset | replyStatus p => cases h
  | _ => rfl

/-- Only CHIP_RESET and GET_BLE_STATUS have an action that comes back (R191, R194, R202). -/
theorem handle_not_comesBack (p : Bytes) (hreset : o ≠ .chipReset) (hstatus : o ≠ .bleStatus) :
    (handle c st o p).comesBack = false := by
  cases o with
  | chipReset => exact absurd rfl hreset
  | bleStatus => exact absurd rfl hstatus
  | deviceName | productString | tkConfirm | bleEnabled | txPower => simp only [handle]; split <;> rfl
  | _ => rfl

/-! ### A control row -/

/-- A command that completes has its handler's action as the result, and what comes back of it in the script (R190). -/
theorem commandStep_answer (h : commandStep c o args st s = .next t) :
    t.result = .dispatched (handle c st o (c.ctrlOpcode o :: args)) ∧
      t.script = (s.afterAction c (handle c st o (c.ctrlOpcode o :: args))).script := by
  have hfit : args.length + 1 ≤ 65535 := by
    by_contra hlong
    rw [commandStep_payloadTooLong o st s (Nat.lt_of_not_le hlong)] at h
    cases h
  have hhandle : dispatch c st (c.ctrlOpcode o :: args) = handle c st o (c.ctrlOpcode o :: args) := by
    simp only [dispatch, ctrlOpOf_ctrlOpcode]
  rw [commandStep_ok o st s hfit, State.handOver, hhandle] at h
  cases h
  refine ⟨rfl, ?script⟩
  cases handle c st o (c.ctrlOpcode o :: args) <;> rfl

/-- An action that does not come back leaves the script as it is (R202). -/
theorem commandStep_script_kept (h : commandStep c o args st s = .next t)
    (hback : (handle c st o (c.ctrlOpcode o :: args)).comesBack = false) : t.script = s.script := by
  obtain ⟨-, hscript⟩ := commandStep_answer h
  rw [hscript, afterAction_of_not_comesBack hback]

/-- After CHIP_RESET the next operation is `RESET` (R194). -/
theorem commandStep_chipReset (h : commandStep c .chipReset args st s = .next t) :
    t.result = .dispatched .chipReset ∧ t.script = .line .RESET :: s.script :=
  commandStep_answer h

/-- The reply to GET_BLE_STATUS is a `SEND` of a CONTROL packet somewhere behind the next operations (R191, R196). -/
theorem commandStep_bleStatus_nil (h : commandStep c .bleStatus [] st s = .next t) :
    ∃ (reply : Bytes) (before behind : List Code), t.result = .dispatched (.replyStatus reply) ∧
      reply.length ≤ 65535 ∧ s.script = before ++ behind ∧ t.script = before ++ .reply reply :: behind ∧
      decode c (.reply reply) = .ok (.send (c.typeByte .control) reply) := by
  obtain ⟨hresult, hscript⟩ := commandStep_answer h
  rw [handle_bleStatus_nil] at hresult hscript
  obtain ⟨before, behind, hsplit, hinsert⟩ :=
    insertBehind_eq (c.replyDelay s.occasion) (.reply ((c.statusReply st).take maxPayload)) s.script
  exact ⟨_, before, behind, hresult, List.length_take_le maxPayload _, hsplit, hscript.trans hinsert, rfl⟩

/-- Settles O46, opcode by opcode: the result is the handler's action, and only the two opcodes whose action comes back
change the script. -/
theorem dispatcherActions : Obligations.DispatcherActions := by
  intro o args st s t h
  rw [exec_commandInstr] at h
  obtain ⟨hresult, -⟩ := commandStep_answer h
  have hkept (hreset : o ≠ .chipReset) (hstatus : o ≠ .bleStatus) : t.script = s.script :=
    commandStep_script_kept h (handle_not_comesBack _ hreset hstatus)
  cases o with
  | chipReset => exact commandStep_chipReset h
  | bleStatus =>
    by_cases hargs : args = []
    case pos =>
      subst hargs
      exact commandStep_bleStatus_nil h
    case neg =>
      have hnoOp := handle_bleStatus_of_ne_nil (c := Config.impl) (st := st) (Config.impl.ctrlOpcode .bleStatus) hargs
      simp only [if_neg hargs]
      exact ⟨hnoOp ▸ hresult, commandStep_script_kept h (by rw [hnoOp]; rfl)⟩
  | deviceName => exact ⟨handle_deviceName _ args ▸ hresult, hkept nofun nofun⟩
  | productString => exact ⟨handle_productString _ ▸ hresult, hkept nofun nofun⟩
  | tkConfirm => exact ⟨handle_tkConfirm _ args ▸ hresult, hkept nofun nofun⟩
  | bleEnabled => exact ⟨handle_bleEnabled _ args ▸ hresult, hkept nofun nofun⟩
  | txPower =>
    refine ⟨hkept nofun nofun, ?level, ?noLevel⟩
    case level =>
      rintro l rest rfl
      exact handle_txPower_cons _ l rest ▸ hresult
    case noLevel =>
      rintro rfl
      exact handle_txPower_nil (c := Config.impl) (st := st) _ ▸ hresult
  | bondDbGet | bondDbSet | pairingCode | irk | identityAddress | pairingSuccessful | debugString =>
    exact ⟨hresult, hkept nofun nofun⟩

end Sys2Proof.Machine
end

section
/-! SUPPORT. The blocking exchange with operands in their range, and the exchange that is not admitted (R246). -/

namespace Sys2Proof.Machine

variable {c : Config} {req : Bytes} {reads : List Bytes} {s : State}

theorem readsFit_eq_true (h : ∀ r ∈ reads, r.length ≤ c.rxScratchCap) :
    reads.all (fun r => decide (r.length ≤ c.rxScratchCap)) = true :=
  List.all_eq_true.mpr fun r hr => decide_eq_true (h r hr)

/-- With operands in their range `SYNC_XCHG` goes on with the exchange that is polling for this request, or begins a new
one (R247, R249). -/
theorem syncXchgStep_inRange (expect : Byte) (s : State) (hreq : payloadFits req = true)
    (hreads : reads.all (fun r => decide (r.length ≤ c.rxScratchCap)) = true) :
    syncXchgStep c req expect reads s = finish (if s.exchange = some ⟨req, expect⟩
      then pollExchange c ⟨req, expect⟩ reads s else beginExchange c ⟨req, expect⟩ reads s) := by
  simp only [syncXchgStep, hreq, hreads, if_true]

/-- The admission test comes before anything is encoded (R246). -/
theorem beginExchange_notAdmitted (x : Exchange) (reads : List Bytes) (h : s.phase ≠ .boot ∨ s.txState ≠ .ready) :
    beginExchange c x reads s = .ok (s.refuse .notAdmitted) := by
  have hadm : exchangeAdmitted s = false := by
    rw [exchangeAdmitted, ← Bool.decide_and]
    exact decide_eq_false (not_and_or.mpr h)
  simp only [beginExchange, hadm, Bool.false_eq_true, if_false]

/-- Settles O50: with no exchange in progress a new one begins, and the admission test fails. -/
theorem exchangeNotAdmitted : Obligations.ExchangeNotAdmitted := by
  intro req expect reads s hreq hreads hidle hnot
  have hstep : exec (.syncXchg req expect reads) s = syncXchgStep Config.impl req expect reads s := rfl
  have hnew : s.exchange ≠ some ⟨req, expect⟩ := hidle ▸ nofun
  rw [hstep, syncXchgStep_inRange expect s (payloadFits_eq_true hreq) (readsFit_eq_true hreads), if_neg hnew,
    beginExchange_notAdmitted _ reads hnot]
  rfl

end Sys2Proof.Machine
end

section
/-! SUPPORT. Completion (R219, R220): each operation with operands in their range ends in a next state. What an operation
needs of the state for that is the part of the invariants that it reads: nothing for the transmit side, whose buffer is
written before it is read. -/

namespace Sys2Proof.Machine

variable {c : Config} {s : State}

/-- An operation ends in a next state: no fault and no refusal by name. -/
def Completes (o : Host.Outcome State Fault Refusal) : Prop := ∃ t, o = .next t

/-- What keeps the invariants raises no fault, and what ends by `finish` is not refused by name. -/
theorem completes_of_kept_finish {x : Except Fault State} (h : Kept c (finish x)) : Completes (finish x) := by
  cases x with
  | ok t => exact ⟨t, rfl⟩
  | error f => exact h.elim

/-! ### The receive side -/

theorem wireStep_completes (bs : Bytes) (conn : Bool) (h : Inv c s) : Completes (wireStep c bs conn s) :=
  completes_of_kept_finish (wireStep_kept bs conn h)

theorem rxReadyStep_completes {bs : Bytes} (used max : Nat) (conn : Bool) (h : Inv c s)
    (hfit : bs.length ≤ c.rxScratchCap) : Completes (rxReadyStep c bs used max conn s) := by
  have hkept := rxReadyStep_kept bs used max conn h
  rw [rxReadyStep, if_pos hfit] at hkept ⊢
  exact completes_of_kept_finish hkept

theorem decodeByteStep_completes (b : Byte) (h : RxInv c s) : Completes (decodeByteStep c b s) := by
  obtain ⟨r, t, hb, -⟩ := decodeByte_ok b h
  exact ⟨_, decodeByteStep_ok hb⟩

theorem decodeStep_completes (input : Bytes) (h : RxInv c s) : Completes (decodeStep c input s) := by
  obtain ⟨r, n, t, hdec, -⟩ := decodeBytes_ok input h
  exact ⟨_, decodeStep_ok hdec⟩

/-! ### The transmit side -/

theorem sendStep_completes (type : Byte) {p : Bytes} (s : State) (hp : p.length ≤ 65535) :
    Completes (sendStep c type p s) := by
  cases hstate : s.txState with
  | busy => exact ⟨_, sendStep_busy type hp hstate⟩
  | ready =>
    cases hwire : requestWire c type p with
    | ok W => exact ⟨_, sendStep_sent hp hstate hwire⟩
    | error e =>
      obtain ⟨m, -, hrefused⟩ := sendStep_refused hp hstate hwire
      exact ⟨_, hrefused⟩

theorem txCompleteStep_completes (c : Config) (s : State) : Completes (txCompleteStep c s) := by
  obtain ⟨m, -, hstep⟩ := txCompleteStep_eq c s
  exact ⟨_, hstep⟩

theorem drainStep_completes (c : Config) (s : State) : Completes (drainStep c s) := by
  cases hstate : s.txState with
  | busy => exact ⟨_, drainStep_idle (.inl hstate)⟩
  | ready => exact drainStep_of_ready hstate ▸ txCompleteStep_completes c s

/-- `ENCODE` into the transmit buffer reads the content already there, and is refused where that buffer is in use
(assumption 8). -/
theorem encodeStep_completes {dest : EncodeDest} (type : Byte) {p : Bytes} (h : TxInv c s) (hdest : dest.fits = true)
    (hp : p.length ≤ 65535) (hready : dest = .txbuf → s.txState = .ready) :
    Completes (encodeStep c dest type p s) := by
  cases dest with
  | txbuf =>
    obtain ⟨content, hcontent⟩ := h.txBuffer_sound.content
    obtain ⟨B, hstep, -⟩ := encodeStep_txbuf type (hready rfl) h.txlen_le hcontent hp
    exact ⟨_, hstep⟩
  | given content cap => exact ⟨_, encodeStep_given type s (of_decide_eq_true hdest) hp⟩

/-! ### Rows of both sides, and the exchange -/

theorem typeStep_completes (type : Byte) {use : TypeUse} (s : State) (hfit : use.fits = true) :
    Completes (typeStep c type use s) := by
  cases use with
  | transmit p => exact sendStep_completes type s (of_decide_eq_true hfit)
  | receive p conn => exact ⟨_, typeStep_receive type conn s (of_decide_eq_true hfit)⟩

theorem commandStep_completes (o : CtrlOp) {args : Bytes} (st : BleStatus) (s : State) (hfit : argsFit args = true) :
    Completes (commandStep c o args st s) :=
  ⟨_, commandStep_ok o st s (of_decide_eq_true hfit)⟩

/-- Not admitted, refused for capacity, answered, or still polling (assumption 10). -/
theorem syncXchgStep_completes {req : Bytes} (expect : Byte) {reads : List Bytes} (h : Inv c s)
    (hreq : payloadFits req = true) (hreads : reads.all (fun r => decide (r.length ≤ c.rxScratchCap)) = true) :
    Completes (syncXchgStep c req expect reads s) := by
  have hkept := syncXchgStep_kept req expect reads h
  rw [syncXchgStep_inRange expect s hreq hreads] at hkept ⊢
  exact completes_of_kept_finish hkept

/-! ### The statement -/

/-- Settles O59, instruction by instruction: well-formedness is the operand range of the instruction's step. -/
theorem wellFormedInstructionsComplete : Obligations.WellFormedInstructionsComplete := by
  intro i s h hwf hready
  cases i with
  | delim conn | esc conn | lit b conn | escPair7E conn | escPair7D conn | escPair02 conn | escPairAny x conn
  | wireFrame body conn => exact wireStep_completes _ conn h
  | rxReady bs used max conn => exact rxReadyStep_completes used max conn h (of_decide_eq_true hwf)
  | decodeByte b => exact decodeByteStep_completes b h.rx
  | decode input => exact decodeStep_completes input h.rx
  | typeAck use | typeNak use | typeBleData use | typeControl use | typePing use =>
    exact typeStep_completes _ s hwf
  | typeOther type use =>
    obtain ⟨-, hfit⟩ := Bool.and_eq_true_iff.mp hwf
    exact typeStep_completes type s hfit
  | send type p => exact sendStep_completes type s (of_decide_eq_true hwf)
  | txComplete => exact txCompleteStep_completes _ s
  | drain => exact drainStep_completes _ s
  | encode dest type p =>
    obtain ⟨hdest, hp⟩ := Bool.and_eq_true_iff.mp hwf
    exact encodeStep_completes type h.tx hdest (of_decide_eq_true hp) fun htxbuf => hready type p (htxbuf ▸ rfl)
  | syncXchg req expect reads =>
    obtain ⟨hreq, hreads⟩ := Bool.and_eq_true_iff.mp hwf
    exact syncXchgStep_completes expect h hreq hreads
  | ctrlDeviceName args st | ctrlBondDbGet args st | ctrlBondDbSet args st | ctrlPairingCode args st
  | ctrlBleStatus args st | ctrlIrk args st | ctrlProductString args st | ctrlChipReset args st
  | ctrlIdentityAddress args st | ctrlPairingSuccessful args st | ctrlTkConfirm args st | ctrlBleEnabled args st
  | ctrlTxPower args st | ctrlDebugString args st => exact commandStep_completes _ st s hwf
  | frameBody type len p crc conn | route pkt conn | timerFire | bpCheck used max | reset | start | escape b | crc16 bs
  | parse body | classify type => exact ⟨_, rfl⟩

end Sys2Proof.Machine
end

section
/-! SUPPORT. The polling of a blocking exchange over its reads (R247): what it writes, that the reads are polled like
one stream of bytes, and that the polling is the decoder over these bytes until the reply comes. -/

namespace Sys2Proof.Machine

variable {c : Config} {expect : Byte} {s t u : State}

/-! ### What the polling writes -/

/-- `s` with ParserState, the trace and `scratch` taken from `d`: what the reads of an exchange write. -/
def State.withPolled (s d : State) : State := { s.withReceived d with scratch := d.scratch }

@[simp] theorem State.withPolled_self (s : State) : s.withPolled s = s := rfl

theorem pollRead_withPolled (c : Config) (expect : Byte) (bs : Bytes) (s d : State) :
    pollRead c expect bs (s.withPolled d) = (pollRead c expect bs d).map fun x => (x.1, s.withPolled x.2) := by
  have hreceived : s.withPolled d = State.withReceived { s with scratch := d.scratch } d := rfl
  rw [pollRead_eq, pollRead_eq, hreceived, pollAll_withReceived]
  cases pollAll c expect bs d <;> rfl

/-- The reads of an exchange read and write ParserState, the trace and `scratch` only. -/
theorem pollReads_withPolled (c : Config) (expect : Byte) (reads : List Bytes) (s d : State) :
    pollReads c expect reads (s.withPolled d) =
      (pollReads c expect reads d).map fun x => (x.1, s.withPolled x.2) := by
  induction reads generalizing d with
  | nil => rfl
  | cons bs rest ih =>
    simp only [pollReads, pollRead_withPolled]
    cases pollRead c expect bs d with
    | error f => rfl
    | ok x =>
      obtain ⟨p, u⟩ := x
      cases p with
      | some p => rfl
      | none => exact ih u

theorem pollReads_frame {reads : List Bytes} {p : Option Bytes} (h : pollReads c expect reads s = .ok (p, t)) :
    t = s.withPolled t := by
  have hself := pollReads_withPolled c expect reads s s
  rw [State.withPolled_self, h] at hself
  simpa [Except.map] using hself

/-- What an exchange shows to its caller, its result and whether it is over, plays no part in the polling. -/
theorem pollReads_setExchange (reads : List Bytes) (s : State) (x : Option Exchange) (r : OpResult) :
    pollReads c expect reads { s with exchange := x, result := r } =
      (pollReads c expect reads s).map fun y => (y.1, { y.2 with exchange := x, result := r }) := by
  have hpolled := pollReads_withPolled c expect reads { s with exchange := x, result := r } s
  refine hpolled.trans ?_
  cases h : pollReads c expect reads s with
  | error f => rfl
  | ok y =>
    simp only [Except.map, Except.ok.injEq, Prod.mk.injEq, true_and]
    rw [pollReads_frame h]
    rfl

/-! ### Reads one after the other -/

/-- An exchange that has its reply looks at no further read (R247). -/
theorem pollReads_append_of_reply {first : List Bytes} {p : Bytes} (more : List Bytes)
    (h : pollReads c expect first s = .ok (some p, t)) : pollReads c expect (first ++ more) s = .ok (some p, t) := by
  induction first generalizing s with
  | nil => cases h
  | cons bs rest ih =>
    simp only [pollReads, List.cons_append] at h ⊢
    split at h
    · cases h
    · exact h
    · exact ih h

/-- Without a reply the polling goes on with the next read (R249). -/
theorem pollReads_append_of_none {first : List Bytes} (more : List Bytes)
    (h : pollReads c expect first s = .ok (none, t)) :
    pollReads c expect (first ++ more) s = pollReads c expect more t := by
  induction first generalizing s with
  | nil => cases h; rfl
  | cons bs rest ih =>
    simp only [pollReads, List.cons_append] at h ⊢
    split at h
    · cases h
    · cases h
    · exact ih h

/-! ### The reads as one stream -/

/-- Bytes behind others are polled where these have brought no reply, and are discarded where they have. -/
theorem pollAll_append (c : Config) (expect : Byte) (xs ys : Bytes) (s : State) :
    pollAll c expect (xs ++ ys) s =
      (pollAll c expect xs s).bind fun x => x.1.elim (pollAll c expect ys x.2) fun _ => .ok x := by
  induction xs generalizing s with
  | nil => rfl
  | cons b xs ih =>
    simp only [List.cons_append, pollAll]
    cases decodeByte c b s with
    | error f => rfl
    | ok x =>
      obtain ⟨r, u⟩ := x
      simp only
      cases r.answers with
      | nil => exact ih u
      | cons a as =>
        simp only
        cases replyIn c expect a with
        | some p => rfl
        | none => exact ih _

theorem pollAll_append_of_none {xs : Bytes} (ys : Bytes) (h : pollAll c expect xs s = .ok (none, u)) :
    pollAll c expect (xs ++ ys) s = pollAll c expect ys u := by
  rw [pollAll_append, h]; rfl

/-- `scratch` plays no part in what the bytes of a read come to. -/
theorem pollAll_dropScratch (bs : Bytes) (s : State) :
    pollAll c expect bs s.dropScratch = (pollAll c expect bs s).map fun x => (x.1, x.2.dropScratch) := by
  refine (pollAll_withReceived c expect bs s.dropScratch s).trans ?_
  cases h : pollAll c expect bs s with
  | error f => rfl
  | ok x =>
    simp only [Except.map, Except.ok.injEq, Prod.mk.injEq, true_and]
    rw [pollAll_frame h]
    rfl

/-- However the bytes are cut into reads, they are polled one after the other (R247). -/
theorem pollReads_eq (c : Config) (expect : Byte) (bs : Bytes) (reads : List Bytes) (s : State) :
    pollReads c expect (bs :: reads) s =
      (pollAll c expect (bs :: reads).flatten s).map fun x => (x.1, x.2.dropScratch) := by
  induction reads generalizing bs s with
  | nil =>
    simp only [pollReads, pollRead_eq, List.flatten_cons, List.flatten_nil, List.append_nil]
    cases pollAll c expect bs s with
    | error f => rfl
    | ok x => obtain ⟨p, u⟩ := x; cases p <;> rfl
  | cons bs' reads ih =>
    rw [pollReads, pollRead_eq, List.flatten_cons, pollAll_append]
    cases pollAll c expect bs s with
    | error f => rfl
    | ok x =>
      obtain ⟨p, u⟩ := x
      cases p with
      | some p => rfl
      | none =>
        refine (ih bs' u.dropScratch).trans ?_
        rw [pollAll_dropScratch]
        simp only [Except.bind, Option.elim]
        cases pollAll c expect (bs' :: reads).flatten u <;> rfl

/-! ### The stream through the decoder -/

/-- A byte whose answer is not the reply is reported, where there is something to report (R247 point (f)). -/
theorem pollAll_cons_of_none {b : Byte} {bs : Bytes} {r : ByteResult} (h : decodeByte c b s = .ok (r, u))
    (hnone : ∀ a ∈ r.answers, replyIn c expect a = none) :
    pollAll c expect (b :: bs) s =
      pollAll c expect bs { u with trace := u.trace ++ r.answers.flatMap (polledEffects c) } := by
  simp only [pollAll, h]
  cases r with
  | more => simp only [ByteResult.answers, List.flatMap_nil, List.append_nil]
  | frame F => simp only [ByteResult.answers, List.flatMap_singleton, hnone _ (.head _), onPolled_eq]
  | overflow => simp only [ByteResult.answers, List.flatMap_singleton, hnone _ (.head _), onPolled_eq]

/-- Where no answer of the decoder is the reply, the polling is the decoder with the reports of its answers. -/
theorem pollAll_of_driveAll {bs : Bytes} {rs : List DecodeResult} (h : driveAll c bs s = .ok (rs, t))
    (hnone : ∀ a ∈ rs, replyIn c expect a = none) :
    pollAll c expect bs s = .ok (none, { t with trace := t.trace ++ rs.flatMap (polledEffects c) }) := by
  induction bs generalizing s t rs with
  | nil => cases h; simp only [pollAll, List.flatMap_nil, List.append_nil]
  | cons b bs ih =>
    cases hb : decodeByte c b s with
    | error f => simp only [driveAll, hb] at h; cases h
    | ok x =>
      obtain ⟨r, s'⟩ := x
      cases hrest : driveAll c bs s' with
      | error f => simp only [driveAll, hb, hrest] at h; cases h
      | ok y =>
        obtain ⟨rs', t'⟩ := y
        simp only [driveAll, hb, hrest] at h
        cases h
        obtain ⟨hhead, htail⟩ := List.forall_mem_append.mp hnone
        have hdrive := driveAll_withParser c bs
          { s' with trace := s'.trace ++ r.answers.flatMap (polledEffects c) } s'
        rw [hrest] at hdrive
        rw [pollAll_cons_of_none hb hhead]
        refine (ih hdrive htail).trans ?_
        rw [driveAll_frame hrest]
        simp only [List.flatMap_append, State.withParser, List.append_assoc]

/-- A byte with which alone the decoder answers a frame completes that frame. -/
theorem decodeByte_of_driveAll {b : Byte} {F : Bytes} (h : driveAll c [b] s = .ok ([.frame F], t)) :
    decodeByte c b s = .ok (.frame F, t) := by
  simp only [driveAll] at h
  cases hb : decodeByte c b s with
  | error f => rw [hb] at h; cases h
  | ok x =>
    obtain ⟨r, u⟩ := x
    rw [hb] at h
    cases r with
    | frame G => cases h; rfl
    | more => cases h
    | overflow => cases h

/-- The last delimiter of a wire frame completes it, behind bytes that have no answer (R95, R103). -/
theorem wireOfBody_last {F : Bytes} (hm : s.decMode = .wait) (h0 : s.flen = 0) (hmin : minComplete ≤ F.length)
    (hfits : F.length ≤ c.rxFrameCap) :
    ∃ u, driveAll c (delimByte :: escapeAll F) s = .ok ([], u) ∧
      decodeByte c delimByte u = .ok (.frame F, { s with fbuf := Memory.store s.fbuf 0 F }) := by
  obtain ⟨u, hu⟩ := driveAll_unfinished hm h0 hfits
  have hwhole := driveAll_whole hm h0 hmin hfits
  rw [wireOfBody, ← List.cons_append, driveAll_append, hu] at hwhole
  refine ⟨u, hu, decodeByte_of_driveAll ?_⟩
  rw [← hwhole]
  simp only [Except.bind]
  cases driveAll c [delimByte] u <;> rfl

/-- A wire frame that is the reply ends the polling, and the bytes behind it are discarded (R247 points (e), (g)). -/
theorem pollAll_reply {F p : Bytes} (hm : s.decMode = .wait) (h0 : s.flen = 0) (hmin : minComplete ≤ F.length)
    (hfits : F.length ≤ c.rxFrameCap) (hreply : replyIn c expect (.frame F) = some p) (behind : Bytes) :
    pollAll c expect (wireOfBody F ++ behind) s = .ok (some p, { s with fbuf := Memory.store s.fbuf 0 F }) := by
  obtain ⟨u, hsilent, hlast⟩ := wireOfBody_last hm h0 hmin hfits
  have hbefore : pollAll c expect (delimByte :: escapeAll F) s = .ok (none, u) := by
    rw [pollAll_of_driveAll hsilent nofun, List.flatMap_nil, List.append_nil]
  rw [wireOfBody, ← List.cons_append, List.append_assoc, pollAll_append_of_none _ hbefore]
  simp only [List.singleton_append, pollAll, hlast, ByteResult.answers, hreply]

/-! ### The reply -/

/-- A packet that is no valid CONTROL packet with the expected opcode is not the reply (R247 point (e)). -/
theorem matchingReply_none {pkt : Packet} (h : ∀ t q, pkt ≠ .ok t (expect :: q) .control) :
    matchingReply expect pkt = none := by
  unfold matchingReply
  split
  · rename_i t b q
    exact if_neg fun hb => h t q (by rw [hb])
  · rfl

/-- The encoder's CONTROL frame with the expected opcode is the reply, its whole payload (R247 point (e)). -/
theorem replyIn_control {rest : Bytes} (h : rest.length + 1 ≤ maxPayload) :
    replyIn c expect (.frame (bodyOf c (c.typeByte .control) (expect :: rest))) = some (expect :: rest) := by
  rw [replyIn, parseBody_bodyOf c _ (p := expect :: rest) h, classifyByte_control]
  exact if_pos rfl

/-- From mode `WAIT`, frames that are not the reply are dropped, a CRC failure among them reported (R247 point (f)). -/
theorem pollAll_dropped {others : List Bytes} (hm : s.decMode = .wait) (h0 : s.flen = 0)
    (hothers : ∀ F ∈ others, 3 ≤ F.length ∧ F.length ≤ c.rxFrameCap ∧
      ∀ t q, parseBody c F ≠ .ok t (expect :: q) .control) :
    ∃ m, pollAll c expect (others.flatMap wireOfBody) s = .ok (none, { s with
      fbuf := m, trace := s.trace ++ others.flatMap fun F => polledEffects c (.frame F) }) := by
  obtain ⟨m, hdrive⟩ := driveAll_burst hm h0 fun F hF =>
    let ⟨hmin, hfits, _⟩ := hothers F hF
    ⟨hmin, hfits⟩
  have hnone : ∀ a ∈ others.map DecodeResult.frame, replyIn c expect a = none :=
    List.forall_mem_map.mpr fun F hF =>
      let ⟨_, _, hother⟩ := hothers F hF
      matchingReply_none hother
  refine ⟨m, (pollAll_of_driveAll hdrive hnone).trans ?_⟩
  rw [List.flatMap_map]

/-- Behind such frames the encoder's CONTROL frame with the expected opcode ends the polling, and the bytes behind it are
discarded (R247). -/
theorem pollAll_droppedThenReply {others : List Bytes} {rest : Bytes} (hm : s.decMode = .wait) (h0 : s.flen = 0)
    (hothers : ∀ F ∈ others, 3 ≤ F.length ∧ F.length ≤ c.rxFrameCap ∧
      ∀ t q, parseBody c F ≠ .ok t (expect :: q) .control)
    (hpayload : rest.length + 1 ≤ maxPayload) (hcap : rest.length + 6 ≤ c.rxFrameCap) (behind : Bytes) :
    ∃ m, pollAll c expect
        (others.flatMap wireOfBody ++ (wireOf c (c.typeByte .control) (expect :: rest) ++ behind)) s =
      .ok (some (expect :: rest), { s with
        fbuf := m, trace := s.trace ++ others.flatMap fun F => polledEffects c (.frame F) }) := by
  obtain ⟨m, hdropped⟩ := pollAll_dropped hm h0 hothers
  have hlen : (bodyOf c (c.typeByte .control) (expect :: rest)).length = rest.length + 6 := bodyOf_length ..
  refine ⟨Memory.store m 0 (bodyOf c (c.typeByte .control) (expect :: rest)), ?_⟩
  rw [pollAll_append_of_none _ hdropped]
  exact pollAll_reply (s := { s with fbuf := m, trace := _ }) hm h0 (by rw [hlen, minComplete]; omega) (hlen ▸ hcap)
    (replyIn_control hpayload) behind

/-! ### The exchange -/

/-- The exchange ends with the reply (R247 point (h)). -/
theorem pollExchange_reply {x : Exchange} {reads : List Bytes} {p : Bytes}
    (h : pollReads c x.expect reads s = .ok (some p, t)) :
    pollExchange c x reads s = .ok { t with exchange := none, result := .reply p } := by
  simp only [pollExchange, h]
  rfl

/-- Everything that polling can come to: the reply, or polling on. -/
theorem pollExchange_cases {x : Exchange} {reads : List Bytes} (h : pollExchange c x reads s = .ok t) :
    ∃ u,
      (∃ p, pollReads c x.expect reads s = .ok (some p, u) ∧ t = { u with exchange := none, result := .reply p }) ∨
      (pollReads c x.expect reads s = .ok (none, u) ∧ t = { u with exchange := some x, result := .noReply }) := by
  unfold pollExchange at h
  split at h
  · cases h
  · rename_i p u hpolled
    cases h
    exact ⟨u, .inl ⟨p, hpolled, rfl⟩⟩
  · rename_i u hpolled
    cases h
    exact ⟨u, .inr ⟨hpolled, rfl⟩⟩

/-- An exchange that is held as still polling polls the reads it is given (R249). -/
theorem syncXchgStep_polling {req : Bytes} {reads : List Bytes} (hreq : req.length ≤ 65535)
    (hreads : ∀ r ∈ reads, r.length ≤ c.rxScratchCap) (hx : s.exchange = some ⟨req, expect⟩) :
    syncXchgStep c req expect reads s = finish (pollExchange c ⟨req, expect⟩ reads s) := by
  rw [syncXchgStep_inRange expect s (payloadFits_eq_true hreq) (readsFit_eq_true hreads), if_pos hx]

/-- Settles O53: the reads are one stream, in which the decoder finds the frames in turn. -/
theorem exchangeReturnsTheReply : Obligations.ExchangeReturnsTheReply := by
  refine ⟨fun _ _ _ _ => rfl, ?_⟩
  intro c req expect rest others first last behind s hrx hx hm hreq hpayload hcap hothers _ hcut hreads
  have hstream : (first ++ [last ++ behind]).flatten =
      others.flatMap wireOfBody ++ (wireOf c (c.typeByte .control) (expect :: rest) ++ behind) := by
    simp only [List.flatten_append, List.flatten_singleton, ← List.append_assoc, hcut]
  obtain ⟨m, hall⟩ := pollAll_droppedThenReply hm (hrx.wait_empty hm) hothers hpayload hcap behind
  obtain ⟨r, rs, hrs⟩ := List.exists_cons_of_ne_nil (List.append_ne_nil_of_right_ne_nil first
    (List.cons_ne_nil (last ++ behind) []))
  have hpolled := pollReads_eq c expect r rs s
  rw [← hrs, hstream, hall] at hpolled
  have hstep := (syncXchgStep_polling hreq hreads hx).trans (congrArg finish (pollExchange_reply hpolled))
  exact ⟨_, hstep, rfl, rfl, hm, hrx.wait_empty hm, rfl, ⟨rfl, rfl, rfl, rfl⟩, rfl, rfl, rfl, rfl, rfl, rfl⟩

end Sys2Proof.Machine
end

section
/-! SUPPORT. The blocking exchange from its request on (R246, R247, R249): the request written or refused, and the
polling continued by more reads. -/

namespace Sys2Proof.Machine

variable {c : Config} {req : Bytes} {expect : Byte} {x : Exchange} {s t u : State}

/-! ### The request -/

/-- With no exchange in progress `SYNC_XCHG` begins one (R247). -/
theorem syncXchgStep_begin {reads : List Bytes} (hreq : req.length ≤ 65535)
    (hreads : ∀ r ∈ reads, r.length ≤ c.rxScratchCap) (hidle : s.exchange ≠ some ⟨req, expect⟩) :
    syncXchgStep c req expect reads s = finish (beginExchange c ⟨req, expect⟩ reads s) := by
  rw [syncXchgStep_inRange expect s (payloadFits_eq_true hreq) (readsFit_eq_true hreads), if_neg hidle]

theorem exchangeAdmitted_eq_true (hphase : s.phase = .boot) (hready : s.txState = .ready) :
    exchangeAdmitted s = true := by
  rw [exchangeAdmitted, hphase, hready]; rfl

/-- The fresh transmit buffer holds the request's frame, and its blocking write goes through (R137, R247). -/
theorem syncXchgStep_written {reads : List Bytes} (hreq : req.length ≤ 65535)
    (hreads : ∀ r ∈ reads, r.length ≤ c.rxScratchCap) (hidle : s.exchange ≠ some ⟨req, expect⟩)
    (hphase : s.phase = .boot) (hready : s.txState = .ready)
    (hfit : (wireOf c (c.typeByte .control) req).length ≤ c.txBufCap) :
    syncXchgStep c req expect reads s = finish (pollExchange c ⟨req, expect⟩ reads { s with
      txbuf := Memory.store s.txbuf 0 (wireOf c (c.typeByte .control) req)
      txlen := (wireOf c (c.typeByte .control) req).length
      trace := s.trace ++ [.uartTxBlocking (wireOf c (c.typeByte .control) req)] }) := by
  have hencode := encodeInto_done c ({ s with txlen := 0 }.txBuffer c) (c.typeByte .control) req (by simpa using hfit)
  simp only [State.txBuffer_cells, State.txBuffer_len, State.txBuffer_cap, Nat.zero_add] at hencode
  rw [syncXchgStep_begin hreq hreads hidle]
  simp only [beginExchange, exchangeAdmitted_eq_true hphase hready, if_true, hencode, submitBlocking,
    State.setTxBuffer, Memory.load_store]
  rfl

/-- A request that does not fit is refused, whatever part of it has been stored (R92, R247). -/
theorem syncXchgStep_full {reads : List Bytes} (hreq : req.length ≤ 65535)
    (hreads : ∀ r ∈ reads, r.length ≤ c.rxScratchCap) (hidle : s.exchange ≠ some ⟨req, expect⟩)
    (hphase : s.phase = .boot) (hready : s.txState = .ready)
    (hfull : c.txBufCap < (wireOf c (c.typeByte .control) req).length) :
    syncXchgStep c req expect reads s = .next { s with
      txbuf := Memory.store s.txbuf 0 ((wireOf c (c.typeByte .control) req).take c.txBufCap)
      txlen := 0
      result := .refused .capacityExceeded } := by
  have hencode := encodeInto_full c ({ s with txlen := 0 }.txBuffer c) (c.typeByte .control) req (Nat.zero_le _)
    (by simpa using hfull)
  simp only [State.txBuffer_cells, State.txBuffer_len, State.txBuffer_cap, Nat.sub_zero] at hencode
  rw [syncXchgStep_begin hreq hreads hidle]
  simp only [beginExchange, exchangeAdmitted_eq_true hphase hready, if_true, hencode]
  rfl

/-- Settles O51: with no reads the polling ends at once, and the exchange is held. -/
theorem exchangeWritesTheRequest : Obligations.ExchangeWritesTheRequest := by
  refine ⟨fun _ _ _ _ => rfl, ?_⟩
  intro c req expect s hreq hidle hphase hready W
  have hnew : s.exchange ≠ some ⟨req, expect⟩ := hidle ▸ nofun
  by_cases hfit : W.length ≤ c.txBufCap
  case pos =>
    refine ⟨Memory.store s.txbuf 0 W, Memory.sameBeyond_store s.txbuf hfit,
      fun _ => Memory.read_store_zero s.txbuf W, ?_⟩
    rw [syncXchgStep_written hreq (List.forall_mem_nil _) hnew hphase hready hfit, if_pos hfit]
    rfl
  case neg =>
    refine ⟨Memory.store s.txbuf 0 (W.take c.txBufCap), Memory.sameBeyond_store s.txbuf (List.length_take_le _ _),
      fun h => absurd h hfit, ?_⟩
    rw [syncXchgStep_full hreq (List.forall_mem_nil _) hnew hphase hready (Nat.lt_of_not_le hfit), if_neg hfit]

/-! ### More reads -/

/-- Polling on with more reads from the state that is held is polling them at once (R249). -/
theorem pollExchange_append {first : List Bytes} (more : List Bytes)
    (h : pollReads c x.expect first s = .ok (none, u)) :
    pollExchange c x (first ++ more) s = pollExchange c x more { u with exchange := some x, result := .noReply } := by
  simp only [pollExchange, pollReads_append_of_none more h, pollReads_setExchange]
  cases pollReads c x.expect more u with
  | error f => rfl
  | ok y => obtain ⟨p, v⟩ := y; cases p <;> rfl

/-- What comes before the first read does not depend on the reads: the polling begins in some state, or the exchange is
refused (R246, R247). -/
theorem syncXchgStep_opening (c : Config) (expect : Byte) (s : State) (hreq : req.length ≤ 65535) :
    (∃ u, ∀ reads, (∀ r ∈ reads, r.length ≤ c.rxScratchCap) →
      syncXchgStep c req expect reads s = finish (pollExchange c ⟨req, expect⟩ reads u)) ∨
    ∃ e u, u.result = .refused e ∧ ∀ reads, (∀ r ∈ reads, r.length ≤ c.rxScratchCap) →
      syncXchgStep c req expect reads s = .next u := by
  by_cases hx : s.exchange = some ⟨req, expect⟩
  · exact .inl ⟨s, fun reads hreads => syncXchgStep_polling hreq hreads hx⟩
  by_cases hadm : s.phase = .boot ∧ s.txState = .ready
  · obtain ⟨hphase, hready⟩ := hadm
    rcases Nat.lt_or_ge c.txBufCap (wireOf c (c.typeByte .control) req).length with hfull | hfit
    · exact .inr ⟨.capacityExceeded, _, rfl, fun reads hreads =>
        syncXchgStep_full hreq hreads hx hphase hready hfull⟩
    · exact .inl ⟨_, fun reads hreads => syncXchgStep_written hreq hreads hx hphase hready hfit⟩
  · refine .inr ⟨.notAdmitted, s.refuse .notAdmitted, rfl, fun reads hreads => ?_⟩
    rw [syncXchgStep_begin hreq hreads hx, beginExchange_notAdmitted _ reads (not_and_or.mp hadm)]
    rfl

/-- An exchange that ends in a next state has its operands in their range (assumption 8). -/
theorem syncXchgStep_next_inRange {reads : List Bytes} (h : syncXchgStep c req expect reads s = .next t) :
    req.length ≤ 65535 ∧ ∀ r ∈ reads, r.length ≤ c.rxScratchCap := by
  have hreq : req.length ≤ 65535 := by
    by_contra hlong
    rw [syncXchgStep_payloadTooLong expect reads s (Nat.lt_of_not_le hlong)] at h
    cases h
  refine ⟨hreq, fun r hr => ?_⟩
  by_contra hlong
  rw [syncXchgStep_readTooLong expect s hreq hr (Nat.lt_of_not_le hlong)] at h
  cases h

/-- Settles O52: what is held is the state in which the first reads leave the polling. -/
theorem exchangeGoesOnWithMoreReads : Obligations.ExchangeGoesOnWithMoreReads := by
  refine ⟨fun _ _ _ _ => rfl, fun c req expect first more s t hmore h => ?_⟩
  obtain ⟨hreq, hfirst⟩ := syncXchgStep_next_inRange h
  have hboth : ∀ r ∈ first ++ more, r.length ≤ c.rxScratchCap := List.forall_mem_append.mpr ⟨hfirst, hmore⟩
  rcases syncXchgStep_opening c expect s hreq with ⟨u, hpoll⟩ | ⟨e, u, hresult, hrefused⟩
  case inl =>
    rw [hpoll first hfirst] at h
    obtain ⟨v, ⟨p, hpolled, rfl⟩ | ⟨hpolled, rfl⟩⟩ := pollExchange_cases (finish_eq_next.mp h)
    · refine ⟨nofun, fun _ _ => ⟨rfl, ?_⟩⟩
      exact (hpoll _ hboth).trans (congrArg finish (pollExchange_reply (pollReads_append_of_reply more hpolled)))
    · refine ⟨fun _ => ⟨rfl, ?_⟩, nofun⟩
      rw [hpoll _ hboth, pollExchange_append more hpolled, syncXchgStep_polling hreq hmore rfl]
  case inr =>
    cases (hrefused first hfirst).symm.trans h
    rw [hresult]
    exact ⟨nofun, nofun⟩

end Sys2Proof.Machine
end

section
/-! SUPPORT. The busy transmitter (R255): no operation but a completion and a reset writes `txbuf`, its length or
`tx_state`. -/

namespace Sys2Proof.Machine

variable {c : Config} {i : Instr} {s t : State}

/-- The transmit buffer, its length and `tx_state` are as they were (R255). -/
def TxbufKept (s t : State) : Prop := t.txbuf = s.txbuf ∧ t.txlen = s.txlen ∧ t.txState = s.txState

theorem TxbufKept.refl (s : State) : TxbufKept s s := ⟨rfl, rfl, rfl⟩

/-- The receive side shares nothing with the transmit buffer (R28). -/
theorem ReceiveFrame.txbufKept (h : ReceiveFrame s t) : TxbufKept s t := by
  obtain ⟨⟨hstate, hbuf, hlen, -⟩, -⟩ := h
  exact ⟨hbuf, hlen, hstate⟩

/-- A `SEND` in `BUSY` looks at the queue only, or is refused by name (R142). -/
theorem sendStep_txbufKept {type : Byte} {p : Bytes} (hbusy : s.txState = .busy) (h : sendStep c type p s = .next t) :
    TxbufKept s t := by
  rcases Nat.lt_or_ge 65535 p.length with hlong | hp
  · rw [sendStep_payloadTooLong type s hlong] at h; cases h
  · rw [sendStep_busy type hp hbusy] at h
    cases h
    split <;> exact .refl s

/-- Nothing is drained in `BUSY` (R145). -/
theorem drainStep_txbufKept (hbusy : s.txState = .busy) (h : drainStep c s = .next t) : TxbufKept s t := by
  rw [drainStep_idle (.inl hbusy)] at h
  cases h
  exact .refl s

/-- `ENCODE` by itself is refused the busy transmit buffer, and a buffer of the caller is none of the block's (R93,
assumption 8). -/
theorem encodeStep_txbufKept {d : EncodeDest} {type : Byte} {p : Bytes} (hbusy : s.txState = .busy)
    (h : encodeStep c d type p s = .next t) : TxbufKept s t := by
  rcases Nat.lt_or_ge 65535 p.length with hlong | hp
  · rw [encodeStep_payloadTooLong d type s hlong] at h; cases h
  · cases d with
    | txbuf => rw [encodeStep_busy type hbusy hp] at h; cases h
    | given content cap =>
      rcases Nat.lt_or_ge cap content.length with hover | hcap
      · rw [encodeStep_destinationOverfull type s hp hover] at h; cases h
      · rw [encodeStep_given type s hcap hp] at h
        cases h
        exact .refl s

/-- The polling writes nothing of the transmit side. -/
theorem pollExchange_txbufKept {x : Exchange} {reads : List Bytes} (h : pollExchange c x reads s = .ok t) :
    TxbufKept s t := by
  obtain ⟨u, ⟨p, hpolled, rfl⟩ | ⟨hpolled, rfl⟩⟩ := pollExchange_cases h <;>
  · rw [pollReads_frame hpolled]
    exact .refl s

/-- No exchange is admitted in `BUSY`, and one that is polling writes nothing more (R246, R247). -/
theorem syncXchgStep_txbufKept {req : Bytes} {expect : Byte} {reads : List Bytes} (hbusy : s.txState = .busy)
    (h : syncXchgStep c req expect reads s = .next t) : TxbufKept s t := by
  obtain ⟨hreq, hreads⟩ := syncXchgStep_next_inRange h
  by_cases hx : s.exchange = some ⟨req, expect⟩
  · rw [syncXchgStep_polling hreq hreads hx] at h
    exact pollExchange_txbufKept (finish_eq_next.mp h)
  · have hnot : s.txState ≠ .ready := hbusy ▸ nofun
    rw [syncXchgStep_begin hreq hreads hx, beginExchange_notAdmitted _ reads (.inr hnot)] at h
    cases h
    exact .refl s

/-- A command is routed and handed over, which touches the trace and the environment only (R171, R202). -/
theorem commandStep_txbufKept {o : CtrlOp} {args : Bytes} {st : BleStatus} (h : commandStep c o args st s = .next t) :
    TxbufKept s t := by
  rcases Nat.lt_or_ge 65535 (args.length + 1) with hlong | hfit
  · rw [commandStep_payloadTooLong o st s hlong] at h; cases h
  · obtain ⟨script, hs⟩ := State.handOver_eq c
      { s with trace := s.trace ++ [.ctrlDeliver (c.ctrlOpcode o :: args)] } st (c.ctrlOpcode o :: args)
    rw [commandStep_ok o st s hfit, hs] at h
    cases h
    exact .refl s

/-- Every operation but a completion and a reset leaves the transmit buffer of a busy transmitter alone. -/
theorem exec_txbufKept (hbusy : s.txState = .busy) (hcomplete : i ≠ .txComplete) (hreset : i ≠ .reset)
    (h : exec i s = .next t) : TxbufKept s t := by
  cases i with
  | reset => exact absurd rfl hreset
  | txComplete => exact absurd rfl hcomplete
  | send type p => exact sendStep_txbufKept hbusy h
  | drain => exact drainStep_txbufKept hbusy h
  | encode d type p => exact encodeStep_txbufKept hbusy h
  | syncXchg req expect reads => exact syncXchgStep_txbufKept hbusy h
  | typeAck use | typeNak use | typeBleData use | typeControl use | typePing use | typeOther type use =>
    cases use with
    | transmit p => exact sendStep_txbufKept hbusy h
    | receive p conn => exact (typeStep_receiveFrame h).txbufKept
  | start | escape b | crc16 bs | parse body | classify type => cases h; exact .refl s
  | ctrlDeviceName args st | ctrlBondDbGet args st | ctrlBondDbSet args st | ctrlPairingCode args st
  | ctrlBleStatus args st | ctrlIrk args st | ctrlProductString args st | ctrlChipReset args st
  | ctrlIdentityAddress args st | ctrlPairingSuccessful args st | ctrlTkConfirm args st | ctrlBleEnabled args st
  | ctrlTxPower args st | ctrlDebugString args st => exact commandStep_txbufKept h
  | _ => exact (exec_receiveFrame rfl h).txbufKept

/-- Settles O39. -/
theorem busyProtectsTheTransmitBuffer : Obligations.BusyProtectsTheTransmitBuffer := by
  intro i s t hbusy hcomplete hreset h
  obtain ⟨hbuf, hlen, hstate⟩ := exec_txbufKept hbusy hcomplete hreset h
  exact ⟨hbuf, hlen, hstate.trans hbusy⟩

end Sys2Proof.Machine
end

section
/-! SUPPORT. Reset, the change to steady state, and what a polling exchange keeps from being executed
(70_reset_and_hazards.md). -/

namespace Sys2Proof.Machine

/-! ### Reset and start -/

/-- The items that a reset takes out of the script are the dispatcher's waiting replies (R242). -/
theorem Code.isReply_eq_true {code : Code} : code.isReply = true ↔ ∃ p, code = .reply p := by
  cases code <;> simp [Code.isReply]

/-- No reply waits after a reset (R242). -/
theorem reply_not_mem_resetBlock_script (p : Bytes) (s : State) : Code.reply p ∉ (resetBlock s).script := by
  intro hmem
  obtain ⟨-, hkept⟩ := List.mem_filter.mp hmem
  cases hkept

/-- A script in which no reply waits stays as it is. -/
theorem resetBlock_script_of_no_reply {s : State} (h : ∀ p, Code.reply p ∉ s.script) :
    (resetBlock s).script = s.script := by
  refine List.filter_eq_self.mpr fun code hmem => ?_
  rw [Bool.not_eq_true', ← Bool.not_eq_true, Code.isReply_eq_true]
  rintro ⟨p, rfl⟩
  exact h p hmem

/-- Settles O47: `RESET` is `resetBlock`, whose script is what was not the dispatcher's. -/
theorem resetInstallsTheResetValues : Obligations.ResetInstallsTheResetValues := fun s =>
  ⟨resetBlock s, rfl, rfl, rfl, rfl, rfl, rfl, rfl, rfl, rfl, rfl, fun p => reply_not_mem_resetBlock_script p s,
    List.filter_sublist, resetBlock_script_of_no_reply, rfl, rfl, rfl, rfl⟩

/-- Settles O49: `START` is that update by definition. -/
theorem startEntersSteadyState : Obligations.StartEntersSteadyState := fun _ => rfl

/-! ### A polling exchange -/

/-- While an exchange polls, nothing but more reads of it and a reset is admitted (R249, R251). -/
theorem admits_eq_false {s : State} {i : Instr} {x : Exchange} (hx : s.exchange = some x) (hreset : i ≠ .reset)
    (hmore : ∀ reads, i ≠ .syncXchg x.req x.expect reads) : admits s i = false := by
  simp only [admits, hx]
  split
  · exact absurd rfl hreset
  · rename_i req expect reads
    rw [← Bool.decide_and]
    refine decide_eq_false ?_
    rintro ⟨rfl, rfl⟩
    exact hmore reads rfl
  · rfl

/-- Settles O54. -/
theorem exchangeBlocksOtherOperations : Obligations.ExchangeBlocksOtherOperations := by
  intro s code rest i x hs hx hdec hreset hmore
  have hstop : admits { s with script := rest } i = false := admits_eq_false hx hreset hmore
  simp only [step, fetch_ok hs hdec, hstop, Bool.false_eq_true, if_false]

end Sys2Proof.Machine
end
